-- ==== Sys2Proof/Word.lean ====
section
/-! DEFINITION. The fixed-width values of I2CM (00_scope R6, R7): bit 0 is the least significant bit. -/

namespace Sys2Proof

/-- A data byte, a pin mask, a command byte (R6). -/
abbrev Byte := BitVec 8

/-- A clock divisor (R29). -/
abbrev Half := BitVec 16

/-- A host command word or a RESULT value (R25, R70). -/
abbrev Word := BitVec 32

/-- The byte with only bit `i` set. -/
def byteBit (i : Nat) : Byte := (1#8) <<< i

end Sys2Proof
end

