-- ==== Sys2Proof/Config.lean ====
section
/-! DEFINITION. The implementation parameters (00_scope R6) and the free values: what the spec leaves to the
environment or to the implementation. An opaque constant has no body, so no proof can rest on its value. -/

namespace Sys2Proof

/-- The eight opcode bytes of the primitive commands (R6; D5: an adapter's detail, with defaults). -/
structure Opcodes where
  setLow    : Byte
  clkOut    : Byte
  clkInBits : Byte
  flush     : Byte
  div5Off   : Byte
  adaptOff  : Byte
  ph3On     : Byte
  setDiv    : Byte
  deriving DecidableEq, Repr

/-- The opcode bytes as a list, in the order of R6. -/
def Opcodes.all (o : Opcodes) : List Byte :=
  [o.setLow, o.clkOut, o.clkInBits, o.flush, o.div5Off, o.adaptOff, o.ph3On, o.setDiv]

/-- "8-bit each, pairwise distinct" (R6). -/
abbrev Opcodes.Distinct (o : Opcodes) : Prop := o.all.Nodup

/-- The default opcode bytes of R6 (log 20: the spec marks them as general knowledge). -/
def Opcodes.standard : Opcodes :=
  { setLow := 0x80, clkOut := 0x11, clkInBits := 0x22, flush := 0x87, div5Off := 0x8A, adaptOff := 0x97,
    ph3On := 0x8C, setDiv := 0x86 }

/-- The parameters of R6. -/
structure Params where
  /-- `R`, the repeat count of START and STOP. -/
  repeatCount    : Nat
  /-- `F_MASTER`, hertz. -/
  fMaster        : Nat
  /-- `DIV_RESET`. -/
  divReset       : Half
  /-- `N_RD_ATTEMPTS`. -/
  rdAttempts     : Nat
  /-- `AUX_DIR`, direction bits of lines 7 to 2. -/
  auxDir         : BitVec 6
  /-- `AUX_VAL`, value bits of lines 7 to 2. -/
  auxVal         : BitVec 6
  /-- `STATUS_ERR_MASK`. -/
  statusErrMask  : Byte
  /-- `ABORT_ON_ADDR_NACK`, read by the composites only. -/
  abortOnAddrNack : Bool
  /-- The opcode bytes. -/
  opcodes        : Opcodes
  deriving DecidableEq, Repr

/-- The bounds of R6: `R >= 1`, `N_RD_ATTEMPTS >= 1`, `F_MASTER` positive, opcodes pairwise distinct. -/
abbrev Params.Wf (p : Params) : Prop :=
  1 ≤ p.repeatCount ∧ 1 ≤ p.rdAttempts ∧ 0 < p.fMaster ∧ p.opcodes.Distinct

/-- `F_MASTER` less one: an OPEN parameter (R6, log 2). -/
opaque Config.fMasterPred : Nat

/-- `DIV_RESET`: an OPEN parameter (R6, log 2). -/
opaque Config.divReset : Half

/-- `STATUS_ERR_MASK`: an OPEN parameter (R6, log 2). -/
opaque Config.statusErrMask : Byte

/-- The defaults of R6, with the OPEN parameters left free. -/
def Params.standard : Params :=
  { repeatCount := 4, fMaster := Config.fMasterPred + 1, divReset := Config.divReset, rdAttempts := 1,
    auxDir := 0, auxVal := 0, statusErrMask := Config.statusErrMask, abortOnAddrNack := true,
    opcodes := Opcodes.standard }

/-- What the link answers to one write (R55). -/
inductive WriteOutcome where
  /-- All bytes written. -/
  | ok
  /-- `IoError` or a short count; `queued` bytes got through, cut to a proper part of the bytes given. -/
  | fail (queued : Nat)
  deriving DecidableEq, Repr, Inhabited

/-- What the link answers to one read (R56). -/
inductive ReadOutcome where
  /-- `IoError`: nothing is removed. -/
  | ioError
  /-- Up to `count` bytes, never more than asked or available. -/
  | bytes (count : Nat)
  deriving DecidableEq, Repr, Inhabited

/-- Which of the two bus lines changes first when one setting changes both (R130). -/
inductive LineOrder where
  | sdaFirst
  | sclFirst
  deriving DecidableEq, Repr, Inhabited

/-- Where the reset event finds the block (R250 "whatever the block was doing"). -/
inductive ResetPoint where
  /-- Between two steps. -/
  | between
  /-- Inside the host's next operation, at its point `k`. -/
  | inHost (k : Nat)
  /-- Inside the command Stage P executes next, at its point `k`. -/
  | inEngine (k : Nat)
  deriving DecidableEq, Repr, Inhabited

/-- Who takes the next step of the machine. -/
inductive Turn where
  /-- The host hands its next word to Stage S (R9). -/
  | host
  /-- Stage P executes one command (R129). -/
  | engine
  /-- The target starts (`true`) or stops (`false`) driving SDA low (R123). -/
  | target (drive : Bool)
  /-- The reset event `rst`, between steps or inside one (R250). -/
  | rst (point : ResetPoint)
  deriving DecidableEq, Repr, Inhabited

/-- A free choice of the next agent (U20, log 5). -/
opaque Config.freeTurn : Nat → Turn

/-- A free outcome of a link write (U18, log 4). -/
opaque Config.freeWrite : Nat → WriteOutcome

/-- A free outcome of a link read (U19, log 4). -/
opaque Config.freeRead : Nat → ReadOutcome

/-- A free number of commands executed before a LinkRead (U20, log 6). -/
opaque Config.freePace : Nat → Nat

/-- A free reaction of the target (U30, log 8). -/
opaque Config.freeReact : Nat → Bool

/-- A free byte (U14, U15, U16, log 4). -/
opaque Config.freeByte : Nat → Byte

/-- A free line order (U21, log 9). -/
opaque Config.freeOrder : Nat → LineOrder

end Sys2Proof
end

