-- ==== Sys2Proof/Syntax.lean ====
section
/-! DEFINITION. The abstract syntax: one constructor per row of spec/opcode_table.json. The first six are host
operations (30_encoding R70), the last nine are primitive commands (30_encoding R80 to R87). -/

namespace Sys2Proof

/-- Every instruction of I2CM. Operand widths are those of R70 and R81 to R87, so that no out-of-range operand can be
written (R72). -/
inductive Instr where
  /-- Host operation START (R150). -/
  | start
  /-- Host operation STOP (R151). -/
  | stop
  /-- Host operation SENDBYTE `value` (R170). -/
  | sendByte (value : Byte)
  /-- Host operation READBYTE `isLastByte` (R172). -/
  | readByte (isLastByte : Bool)
  /-- Host operation SETCLK `divisor` (R102). -/
  | setClk (divisor : Half)
  /-- Host operation SETADDR `addr7`, `readIntent` (R174). -/
  | setAddr (addr7 : BitVec 7) (readIntent : Bool)
  /-- Command PIN `dir`, `val` (R122). -/
  | pin (dir val : Byte)
  /-- Command CLKOUT8 `v` (R125). -/
  | clkOut8 (v : Byte)
  /-- Command CLKIN1 (R126). -/
  | clkIn1
  /-- Command CLKIN8 (R127). -/
  | clkIn8
  /-- Command FLUSH (R128). -/
  | flush
  /-- Command DIV5OFF (R103). -/
  | div5Off
  /-- Command ADAPTOFF (R104). -/
  | adaptOff
  /-- Command PH3ON (R105). -/
  | ph3On
  /-- Command SETDIV `d` (R106). -/
  | setDiv (d : Half)
  deriving DecidableEq, Repr

/-- Is it one of the six host operations (R70), and not a primitive command? -/
def Instr.isHost : Instr → Bool
  | .start => true
  | .stop => true
  | .sendByte _ => true
  | .readByte _ => true
  | .setClk _ => true
  | .setAddr _ _ => true
  | .pin _ _ => false
  | .clkOut8 _ => false
  | .clkIn1 => false
  | .clkIn8 => false
  | .flush => false
  | .div5Off => false
  | .adaptOff => false
  | .ph3On => false
  | .setDiv _ => false

end Sys2Proof
end

