-- ==== Sys2Proof/WellFormed.lean ====
section
/-! DEFINITION. Well-formed instructions. The operand types already hold every width of R70 and R81 to R87; the one
check left is the open-drain rule of R122 and R34: a PIN may not drive SDA (line 1) or SCL (line 0) high. -/

namespace Sys2Proof

/-- Do the masks drive line `i` high: direction 1 and value 1 (R120)? -/
def drivesHigh (dir val : Byte) (i : Nat) : Bool := dir.getLsbD i && val.getLsbD i

/-- Do the masks drive neither SDA nor SCL high (R122)? -/
def openDrainMasks (dir val : Byte) : Bool := !drivesHigh dir val 1 && !drivesHigh dir val 0

/-- The syntactic checks of an instruction. -/
def Instr.wellFormed : Instr → Bool
  | .start => true
  | .stop => true
  | .sendByte _ => true
  | .readByte _ => true
  | .setClk _ => true
  | .setAddr _ _ => true
  | .pin dir val => openDrainMasks dir val
  | .clkOut8 _ => true
  | .clkIn1 => true
  | .clkIn8 => true
  | .flush => true
  | .div5Off => true
  | .adaptOff => true
  | .ph3On => true
  | .setDiv _ => true

end Sys2Proof
end

