-- ==== Sys2Proof/Decode.lean ====
section
/-! DEFINITION. Decoding, total on every word and on every list of bytes, rejecting by name; then the encoder, written
from the same tables (30_encoding R71, R80 to R88); then the listing syntax of R91. -/

namespace Sys2Proof

/-- Why an encoding is reserved (R78, R89). -/
inductive Reject where
  /-- Host word: opcode 0x00 or 0x07 to 0xFF (R78). -/
  | hostOpcode
  /-- Host word: a must-be-zero bit is set (R78). -/
  | hostMustBeZero
  /-- Command: the first byte is none of the eight opcodes (R88). -/
  | commandOpcode
  /-- CLKOUT8 with a length field other than 0x0000 (R89). -/
  | shiftOutLength
  /-- Shift-in with a length byte other than 0 and 7 (R89). -/
  | shiftInLength
  deriving DecidableEq, Repr

/-- What decoding the front of the command queue gives. -/
inductive Decoded where
  /-- A whole command, and the bytes after it. -/
  | command (i : Instr) (rest : List Byte)
  /-- A reserved command (R89). -/
  | reserved (why : Reject)
  /-- The bytes end before the command is complete (R88). -/
  | incomplete
  deriving DecidableEq, Repr

/-- What decoding a host word gives. -/
inductive HostDecoded where
  | operation (i : Instr)
  | reserved (why : Reject)
  deriving DecidableEq, Repr

/-- The low field of a host word as a byte. -/
def hostByte (w : Word) : Byte := w.extractLsb' 0 8

/-- A host word decodes iff `W & mask = match` for a row of R71's table. -/
def decodeHost (w : Word) : HostDecoded :=
  if w = 0x01000000#32 then .operation .start
  else if w = 0x02000000#32 then .operation .stop
  else if w &&& 0xFFFFFF00#32 = 0x03000000#32 then .operation (.sendByte (hostByte w))
  else if w &&& 0xFFFFFFFE#32 = 0x04000000#32 then .operation (.readByte (w.getLsbD 0))
  else if w &&& 0xFFFF0000#32 = 0x05000000#32 then .operation (.setClk (w.extractLsb' 0 16))
  else if w &&& 0xFFFFFE80#32 = 0x06000000#32 then .operation (.setAddr (w.extractLsb' 0 7) (w.getLsbD 8))
  else if 1 ≤ (w >>> 24).toNat ∧ (w >>> 24).toNat ≤ 6 then .reserved .hostMustBeZero
  else .reserved .hostOpcode

/-- The bytes of PIN after its opcode: value, then direction (R81). -/
def decodePin : List Byte → Decoded
  | val :: dir :: rest => .command (.pin dir val) rest
  | _ => .incomplete

/-- The bytes of CLKOUT8 after its opcode: length low, length high, data (R82, R88). -/
def decodeClkOut : List Byte → Decoded
  | l0 :: l1 :: v :: rest => if l0 = 0 ∧ l1 = 0 then .command (.clkOut8 v) rest else .reserved .shiftOutLength
  | _ => .incomplete

/-- The byte of a shift-in after its opcode: bit count less one (R83, R84, R88). -/
def decodeClkIn : List Byte → Decoded
  | n :: rest =>
    if n = 0 then .command .clkIn1 rest
    else if n = 7 then .command .clkIn8 rest
    else .reserved .shiftInLength
  | _ => .incomplete

/-- The bytes of SETDIV after its opcode: low, then high (R87). -/
def decodeSetDiv : List Byte → Decoded
  | lo :: hi :: rest => .command (.setDiv (hi ++ lo)) rest
  | _ => .incomplete

/-- Stage P's fetch from the front of the command queue (R88). -/
def decodeCommand (o : Opcodes) : List Byte → Decoded
  | [] => .incomplete
  | b :: rest =>
    if b = o.setLow then decodePin rest
    else if b = o.clkOut then decodeClkOut rest
    else if b = o.clkInBits then decodeClkIn rest
    else if b = o.flush then .command .flush rest
    else if b = o.div5Off then .command .div5Off rest
    else if b = o.adaptOff then .command .adaptOff rest
    else if b = o.ph3On then .command .ph3On rest
    else if b = o.setDiv then decodeSetDiv rest
    else .reserved .commandOpcode

/-- The two forms an instruction's encoding has: a host word, or bytes on CMD_OUT. -/
inductive Encoding where
  | hostWord (w : Word)
  | command (bytes : List Byte)
  deriving DecidableEq, Repr

/-- The instruction an encoding is, if it is exactly one. -/
def decode (o : Opcodes) : Encoding → Option Instr
  | .hostWord w =>
    match decodeHost w with
    | .operation i => some i
    | .reserved _ => none
  | .command bytes =>
    match decodeCommand o bytes with
    | .command i [] => some i
    | .command _ (_ :: _) => none
    | .reserved _ => none
    | .incomplete => none

/-- The word of a host operation (R71); none for a primitive command. -/
def encodeHost : Instr → Option Word
  | .start => some 0x01000000#32
  | .stop => some 0x02000000#32
  | .sendByte v => some (0x03#8 ++ 0#16 ++ v)
  | .readByte l => some (0x04#8 ++ 0#23 ++ BitVec.ofBool l)
  | .setClk d => some (0x05#8 ++ 0#8 ++ d)
  | .setAddr a r => some (0x06#8 ++ 0#15 ++ BitVec.ofBool r ++ 0#1 ++ a)
  | .pin _ _ => none
  | .clkOut8 _ => none
  | .clkIn1 => none
  | .clkIn8 => none
  | .flush => none
  | .div5Off => none
  | .adaptOff => none
  | .ph3On => none
  | .setDiv _ => none

/-- The bytes of a primitive command (R81 to R87); none for a host operation, which is not a command (R80). -/
def encodeCommand (o : Opcodes) : Instr → List Byte
  | .pin dir val => [o.setLow, val, dir]
  | .clkOut8 v => [o.clkOut, 0, 0, v]
  | .clkIn1 => [o.clkInBits, 0]
  | .clkIn8 => [o.clkInBits, 7]
  | .flush => [o.flush]
  | .div5Off => [o.div5Off]
  | .adaptOff => [o.adaptOff]
  | .ph3On => [o.ph3On]
  | .setDiv d => [o.setDiv, d.extractLsb' 0 8, d.extractLsb' 8 8]
  | .start => []
  | .stop => []
  | .sendByte _ => []
  | .readByte _ => []
  | .setClk _ => []
  | .setAddr _ _ => []

/-- The bytes of a list of commands, in order. -/
def encodeCommands (o : Opcodes) (cmds : List Instr) : List Byte := cmds.flatMap (encodeCommand o)

/-- The encoding of an instruction. -/
def encode (o : Opcodes) (i : Instr) : Encoding :=
  match encodeHost i with
  | some w => .hostWord w
  | none => .command (encodeCommand o i)

/-- The lowest `n` bytes of a number, most significant first (the table reads a command's bytes so, log 12). -/
def bytesBE : Nat → Nat → List Byte
  | 0, _ => []
  | n + 1, w => BitVec.ofNat 8 (w / 256 ^ n) :: bytesBE n w

/-- The encoding that `nbits` bits `w` of spec/opcode_table.json stand for: 32 bits are a host word unless the top byte
is CLKOUT8's opcode (log 12). -/
def tableEncoding (nbits w : Nat) : Encoding :=
  if nbits = 32 ∧ BitVec.ofNat 8 (w / 256 ^ 3) ≠ Opcodes.standard.clkOut then .hostWord (BitVec.ofNat 32 w)
  else .command (bytesBE (nbits / 8) w)

/-- The instruction the decoder reads from a word of spec/opcode_table.json, with the default opcodes. -/
def decodeTableWord (nbits w : Nat) : Option Instr := decode Opcodes.standard (tableEncoding nbits w)

/-- A hexadecimal digit. -/
def hexDigit (n : Nat) : String :=
  (["0", "1", "2", "3", "4", "5", "6", "7", "8", "9", "A", "B", "C", "D", "E", "F"][n % 16]?).getD "0"

/-- A byte as two hexadecimal digits. -/
def hexByte (b : Byte) : String := hexDigit (b.toNat / 16) ++ hexDigit b.toNat

/-- The listing syntax of R91. -/
def Instr.listing : Instr → String
  | .start => "START"
  | .stop => "STOP"
  | .sendByte v => "SENDBYTE 0x" ++ hexByte v
  | .readByte l => if l then "READBYTE last" else "READBYTE more"
  | .setClk d => "SETCLK 0x" ++ hexByte (d.extractLsb' 8 8) ++ hexByte (d.extractLsb' 0 8)
  | .setAddr a r => "SETADDR 0x" ++ hexByte (a.setWidth 8) ++ (if r then ", r" else ", w")
  | .pin dir val => "PIN dir=0x" ++ hexByte dir ++ " val=0x" ++ hexByte val
  | .clkOut8 v => "CLKOUT8 0x" ++ hexByte v
  | .clkIn1 => "CLKIN1"
  | .clkIn8 => "CLKIN8"
  | .flush => "FLUSH"
  | .div5Off => "DIV5OFF"
  | .adaptOff => "ADAPTOFF"
  | .ph3On => "PH3ON"
  | .setDiv d => "SETDIV 0x" ++ hexByte (d.extractLsb' 8 8) ++ hexByte (d.extractLsb' 0 8)

end Sys2Proof
end

