-- ==== Sys2Proof/Machine/State.lean ====
section
/-! DEFINITION. The machine's state as plain data, the reasons a step can stop, and the state after reset
(10_state R20 to R37). -/

namespace Sys2Proof.Machine

/-- `BUS`, the source's BusState (R22). Values 5 to 7 are unrepresentable, as R22 allows. -/
inductive BusState where
  | idle
  | started
  | addressPhase
  | dataPhase
  | stopped
  deriving DecidableEq, Repr

/-- The levels of the two bus lines (R33, R123). -/
structure Levels where
  sda : Bool
  scl : Bool
  deriving DecidableEq, Repr

/-- An input the environment chooses: what a run has scripted, and how many values have been taken. Past the script
each value is a free value (log 4). -/
structure Stream (α : Type) where
  script : List α
  taken  : Nat
  deriving DecidableEq, Repr

/-- A stream with nothing scripted and nothing taken. -/
def Stream.fresh {α : Type} : Stream α := { script := [], taken := 0 }

/-- Everything that comes from outside Stage S and Stage P (log 4). -/
structure Env where
  /-- Host words asked for and not yet taken (R21). -/
  words  : List Word
  /-- Who moves next (R129, U20). -/
  turns  : Stream Turn
  /-- Outcomes of link writes (R55). -/
  writes : Stream WriteOutcome
  /-- Outcomes of link reads (R56). -/
  reads  : Stream ReadOutcome
  /-- How many commands Stage P executes before a LinkRead (R62). -/
  paces  : Stream Nat
  /-- The target's reactions (R129). -/
  reacts : Stream Bool
  /-- Free bytes (R90, R35). -/
  draws  : Stream Byte
  /-- Which line changes first (R130). -/
  orders : Stream LineOrder
  deriving DecidableEq, Repr

/-- The state of I2CM: Stage S (R22 to R25), Stage P (R28 to R31), the queues (R32), the environment, the parameters
(R6), and two histories that nothing reads (log 10). -/
structure State where
  /-- R22. -/
  bus    : BusState
  /-- R23. -/
  clkcfg : Bool
  /-- R24. -/
  fatal  : Bool
  /-- R25. -/
  result : Word
  /-- R28: 1 is driven. -/
  pindir : Byte
  /-- R28: the driven level. -/
  pinval : Byte
  /-- R29. -/
  div    : Half
  /-- R30. -/
  div5   : Bool
  /-- R30. -/
  adapt  : Bool
  /-- R30. -/
  ph3    : Bool
  /-- R31. -/
  rxsh   : Byte
  /-- R32: written by Stage S, not yet executed. -/
  cmdq   : List Byte
  /-- R32: produced, not yet released. -/
  rspq   : List Byte
  /-- R32: released, readable. -/
  rspa   : List Byte
  /-- R123: the target drives SDA low. -/
  tlow   : Bool
  env    : Env
  params : Params
  /-- R51: every byte ever written to CMD_OUT. -/
  cmdOut : List Byte
  /-- R124: the levels the bus lines have taken, oldest first. -/
  wave   : List Levels
  deriving DecidableEq, Repr

/-- No error of the spec stops the machine: every error kind is recorded in RESULT and the machine goes on
(60_exceptions, opening and R226). The type has no constructor (log 15). -/
inductive Fault : Type
  deriving DecidableEq, Repr

/-- Why the machine has no meaning for what was asked of it (R8 `refuse`, R233). Every one is safe: nothing can be
proved of a run past it. -/
inductive Refusal where
  /-- Raised by exec's arm of an instruction that has no meaning yet; safe. -/
  | notModelled (mnemonic : String)
  /-- Raised by the host's turn on a reserved word (R78); safe. -/
  | reservedHostWord (why : Reject)
  /-- Raised by every host operation but SETADDR while `FATAL = 1` (R24, R233); safe. -/
  | sessionFatal
  /-- Raised by SENDBYTE and READBYTE while `CLKCFG = 0` (R23, R233); safe. -/
  | clockNotConfigured
  /-- Raised by SENDBYTE, READBYTE and SETCLK in a bus state that does not admit them (R36, R233); safe. -/
  | notAdmitted (bus : BusState)
  /-- Raised by Stage P on a reserved command (R89); safe. -/
  | reservedCommand (why : Reject)
  /-- Raised by PIN when it would drive SDA or SCL high (R122); safe. -/
  | busLineDrivenHigh
  /-- Raised by CLKOUT8, CLKIN1 and CLKIN8 when SCL is not driven low (R125 to R127); safe. -/
  | sclNotLow
  /-- Raised by CLKOUT8, CLKIN1 and CLKIN8 with `PH3 = 0`, `DIV5 = 1` or `ADAPT = 1` (U27, N18); safe. -/
  | clockModesNotSet
  deriving DecidableEq, Repr

/-- What one step answers. -/
abbrev Step := Host.Outcome State Fault Refusal

/-- An environment with no host word and nothing scripted. -/
def Env.fresh : Env :=
  { words := [], turns := Stream.fresh, writes := Stream.fresh, reads := Stream.fresh, paces := Stream.fresh,
    reacts := Stream.fresh, draws := Stream.fresh, orders := Stream.fresh }

/-- The machine right after reset (R35, R250). `div5`, `adapt`, `ph3` and `rxsh` are "any value" in the spec: here 0,
DESIGN CHOICE, unsafe, log 3. -/
def State.reset : State :=
  { bus := .idle, clkcfg := false, fatal := false, result := 0, pindir := 0, pinval := 0,
    div := Params.standard.divReset, div5 := false, adapt := false, ph3 := false, rxsh := 0,
    cmdq := [], rspq := [], rspa := [], tlow := false, env := Env.fresh, params := Params.standard,
    cmdOut := [], wave := [{ sda := true, scl := true }] }

end Sys2Proof.Machine
end

