-- ==== Sys2Proof/Machine/Flags.lean ====
section
/-! DEFINITION. The one flag of I2CM, the error codes and the RESULT register (10_state R22, R25, R26;
43_byte_transfer R171; 60_exceptions R220, R221, R226). -/

namespace Sys2Proof.Machine

/-- The numbers of R22. -/
def BusState.code : BusState → BitVec 3
  | .idle => 0
  | .started => 1
  | .addressPhase => 2
  | .dataPhase => 3
  | .stopped => 4

/-- The error kinds of R220. -/
inductive ErrorKind where
  | adapterOpenFailed
  | adapterIoFailed
  | addressNack
  | dataNack
  | readIncomplete
  | syncFailed
  deriving DecidableEq, Repr

/-- The codes of R221. -/
def ErrorKind.code : ErrorKind → BitVec 4
  | .adapterOpenFailed => 1
  | .adapterIoFailed => 2
  | .addressNack => 3
  | .dataNack => 4
  | .readIncomplete => 5
  | .syncFailed => 6

/-- The kind a code of RESULT.ERR stands for; none for 0 and for the reserved codes (R221). -/
def errorKindOf (code : BitVec 4) : Option ErrorKind :=
  if code = 1 then some .adapterOpenFailed
  else if code = 2 then some .adapterIoFailed
  else if code = 3 then some .addressNack
  else if code = 4 then some .dataNack
  else if code = 5 then some .readIncomplete
  else if code = 6 then some .syncFailed
  else none

/-- `Ack` or `Nack` (R26, R171). -/
inductive AckResult where
  | ack
  | nack
  deriving DecidableEq, Repr

/-- `RESULT.NACK <- b[0]` (R171): 0 is Ack, 1 is Nack; bits 7:1 take no part. -/
def nackBit (b : Byte) : Bool := b.getLsbD 0

/-- The fields of RESULT that an operation chooses; FATALF and BUSF are copies (R25). -/
structure ResultFields where
  data : Byte := 0
  raw1 : Byte := 0
  rspn : BitVec 2 := 0
  nack : Bool := false
  err  : BitVec 4 := 0
  deriving DecidableEq, Repr

/-- The layout of RESULT (R25, R79). -/
def packResult (f : ResultFields) (fatalf : Bool) (busf : BitVec 3) : Word :=
  0#4 ++ busf ++ BitVec.ofBool fatalf ++ f.err ++ 0#1 ++ BitVec.ofBool f.nack ++ f.rspn ++ f.raw1 ++ f.data

/-- `DATA = RESULT[7:0]`. -/
def resultData (w : Word) : Byte := w.extractLsb' 0 8
/-- `RAW1 = RESULT[15:8]`. -/
def resultRaw1 (w : Word) : Byte := w.extractLsb' 8 8
/-- `RSPN = RESULT[17:16]`. -/
def resultRspn (w : Word) : BitVec 2 := w.extractLsb' 16 2
/-- `NACK = RESULT[18]`. -/
def resultNack (w : Word) : Bool := w.getLsbD 18
/-- `RESULT[19]`, reads 0. -/
def resultBit19 (w : Word) : Bool := w.getLsbD 19
/-- `ERR = RESULT[23:20]`. -/
def resultErr (w : Word) : BitVec 4 := w.extractLsb' 20 4
/-- `FATALF = RESULT[24]`. -/
def resultFatalf (w : Word) : Bool := w.getLsbD 24
/-- `BUSF = RESULT[27:25]`. -/
def resultBusf (w : Word) : BitVec 3 := w.extractLsb' 25 3
/-- `RESULT[31:28]`, read 0. -/
def resultTop (w : Word) : BitVec 4 := w.extractLsb' 28 4

/-- Writing RESULT whole: the given fields, and copies of FATAL and BUS as they stand (R25, R226). -/
def writeResult (f : ResultFields) (s : State) : State := { s with result := packResult f s.fatal s.bus.code }

/-- How the host reads the flag of the last SENDBYTE (R26, R224). -/
def ackOf (s : State) : AckResult := if resultNack s.result then .nack else .ack

end Sys2Proof.Machine
end

