-- ==== Sys2Proof/Machine/Operands.lean ====
section
/-! DEFINITION. Operand assembly: the bus pin patterns (41_pin_commands R121), the encoder functions of the source
(30_encoding R92, 00_scope R3), the address byte (43_byte_transfer R174), the command lists of START and STOP
(42_start_stop R150, R151) and the bits of a byte in wire order (20_memory R57). -/

namespace Sys2Proof.Machine

/-- `encodePinCommand(direction_mask, value_mask)` (R81). -/
def encodePinCommand (dir val : Byte) : Instr := .pin dir val

/-- `PAT(d)`: the aux lines at their constants, bit 1 of `d` drives SDA low, bit 0 drives SCL low, both value bits 0
(R121). -/
def pat (p : Params) (d : BitVec 2) : Instr := encodePinCommand (p.auxDir ++ d) (p.auxVal ++ 0#2)

/-- `encodeClockOutByte(value)` (R82). -/
def encodeClockOutByte (v : Byte) : List Instr := [.clkOut8 v]

/-- `encodeClockInBit()` (R83, R92). -/
def encodeClockInBit : List Instr := [.clkIn1, .flush]

/-- `encodeClockInByte()` (R84, R92). -/
def encodeClockInByte : List Instr := [.clkIn8, .flush]

/-- `encodeClockConfig(divisor)`: the four commands in the source's order (R92, R102). -/
def encodeClockConfig (d : Half) : List Instr := [.div5Off, .adaptOff, .ph3On, .setDiv d]

/-- What START emits: SDA low and SCL high `R` times, both low `R` times, and one more (R150). -/
def startCommands (p : Params) : List Instr :=
  List.replicate p.repeatCount (pat p 0b10#2) ++ List.replicate p.repeatCount (pat p 0b11#2) ++ [pat p 0b11#2]

/-- What STOP emits: both low `R` times, both released `R` times, and the final idle-pin command (R151). -/
def stopCommands (p : Params) : List Instr :=
  List.replicate p.repeatCount (pat p 0b11#2) ++ List.replicate p.repeatCount (pat p 0b00#2) ++ [pat p 0b00#2]

/-- What SENDBYTE emits before its read (R170). -/
def sendCommands (v : Byte) : List Instr := encodeClockOutByte v ++ encodeClockInBit

/-- What READBYTE emits before its read: release SDA, `encodeClockInByte`, "then a flush" (R172, conflict C3). -/
def readCommands (p : Params) : List Instr := pat p 0b01#2 :: encodeClockInByte ++ [.flush]

/-- The master's ACK (more) or NACK (last) level after a read, with SCL low (R172, R173). -/
def ackPattern (p : Params) (last : Bool) : Instr := if last then pat p 0b01#2 else pat p 0b11#2

/-- `(addr7 << 1) | readIntent` (R174). -/
def addressByte (a : BitVec 7) (r : Bool) : Byte := a.setWidth 8 <<< 1 ||| (BitVec.ofBool r).setWidth 8

/-- A byte's bits in wire order: bit 7 first, bit 0 last (R57). -/
def bitsMsbFirst (v : Byte) : List Bool :=
  [v.getLsbD 7, v.getLsbD 6, v.getLsbD 5, v.getLsbD 4, v.getLsbD 3, v.getLsbD 2, v.getLsbD 1, v.getLsbD 0]

/-- A register with bit `i` set to `b`. -/
def withBit (v : Byte) (i : Nat) (b : Bool) : Byte := if b then v ||| byteBit i else v &&& ~~~ byteBit i

/-- `trunc_8((x << 1) | bit)`: one step of the receive shift register (R31). -/
def shiftIn (x : Byte) (bit : Bool) : Byte := x <<< 1 ||| (BitVec.ofBool bit).setWidth 8

/-- A response byte of CLKIN1: bit 0 is the sample, bits 7:1 are the drawn byte's (R90, R126). -/
def clkIn1Response (drawn rxsh : Byte) : Byte := drawn &&& 0xFE#8 ||| rxsh &&& 0x01#8

end Sys2Proof.Machine
end

