-- ==== Sys2Proof/Machine/Ops.lean ====
section
/-! DEFINITION. The named operations every meaning is built from: draws from the environment, `Emit` (20_memory R55),
`LinkRead` (R56), admission and refusal (60_exceptions R233), `raise` (R226, R227), the drivers of the two bus lines
with their level changes (41_pin_commands R120, R123, R130), and the reset event (70_reset_and_hazards R250). -/

namespace Sys2Proof.Machine

/-- The next value of a stream: scripted, or else free. -/
def Stream.peek {α : Type} (free : Nat → α) (st : Stream α) : α := st.script.headD (free st.taken)

/-- The stream after one value is taken. -/
def Stream.advance {α : Type} (st : Stream α) : Stream α := { script := st.script.tail, taken := st.taken + 1 }

/-- The value `n` places further on. -/
def Stream.nth {α : Type} (free : Nat → α) (st : Stream α) (n : Nat) : α := st.script.getD n (free (st.taken + n))

def State.drawTurn (s : State) : Turn := s.env.turns.peek Config.freeTurn
def State.drawWrite (s : State) : WriteOutcome := s.env.writes.peek Config.freeWrite
def State.drawRead (s : State) : ReadOutcome := s.env.reads.peek Config.freeRead
def State.drawPace (s : State) : Nat := s.env.paces.peek Config.freePace
def State.drawReact (s : State) : Bool := s.env.reacts.peek Config.freeReact
def State.drawByte (s : State) : Byte := s.env.draws.peek Config.freeByte
def State.drawOrder (s : State) : LineOrder := s.env.orders.peek Config.freeOrder

def State.takeTurn (s : State) : State := { s with env := { s.env with turns := s.env.turns.advance } }
def State.takeWrite (s : State) : State := { s with env := { s.env with writes := s.env.writes.advance } }
def State.takeRead (s : State) : State := { s with env := { s.env with reads := s.env.reads.advance } }
def State.takePace (s : State) : State := { s with env := { s.env with paces := s.env.paces.advance } }
def State.takeReact (s : State) : State := { s with env := { s.env with reacts := s.env.reacts.advance } }
def State.takeByte (s : State) : State := { s with env := { s.env with draws := s.env.draws.advance } }
def State.takeOrder (s : State) : State := { s with env := { s.env with orders := s.env.orders.advance } }

/-- Running one thing after another: a fault or a refusal ends the run. -/
def andThen {α β : Type} (x : Host.Outcome α Fault Refusal) (k : α → Host.Outcome β Fault Refusal) :
    Host.Outcome β Fault Refusal :=
  match x with
  | .next a => k a
  | .fault r => .fault r
  | .refused r => .refused r

/-- `raise E(fields)` for an error that is not fatal: RESULT is written whole with the error's code (R226). -/
def raiseError (e : ErrorKind) (f : ResultFields) (s : State) : State := writeResult { f with err := e.code } s

/-- `raise AdapterIoFailed(write)`: FATAL is set, BUS and CLKCFG are kept, RESULT is written (R227). -/
def raiseFatal (s : State) : State := raiseError .adapterIoFailed {} { s with fatal := true }

/-- Bytes arriving on CMD_OUT (R51, R55). -/
def State.queue (bytes : List Byte) (s : State) : State :=
  { s with cmdq := s.cmdq ++ bytes, cmdOut := s.cmdOut ++ bytes }

/-- The part of a failed write that was queued: any proper part from the front (R55). -/
def cutWrite (bytes : List Byte) (queued : Nat) : List Byte := bytes.take (min queued (bytes.length - 1))

/-- `Emit(cmds)` (R55): did the write succeed, and the state after it. -/
def emit (cmds : List Instr) (s : State) : Bool × State :=
  match s.drawWrite with
  | .ok => (true, s.takeWrite.queue (encodeCommands s.params.opcodes cmds))
  | .fail k => (false, s.takeWrite.queue (cutWrite (encodeCommands s.params.opcodes cmds) k))

/-- `Emit` as an operation's last possible failure: go on, or raise the fatal error. -/
def emitThen (cmds : List Instr) (k : State → State) (s : State) : State :=
  if (emit cmds s).1 then k (emit cmds s).2 else raiseFatal (emit cmds s).2

/-- `Emit` with more to do after it that may itself stop. -/
def emitOr (cmds : List Instr) (k : State → Step) (s : State) : Step :=
  if (emit cmds s).1 then k (emit cmds s).2 else .next (raiseFatal (emit cmds s).2)

/-- `LinkRead(n)` (R56): `none` is `IoError`; otherwise at most `n` bytes off the front of RSPA. -/
def linkRead (n : Nat) (s : State) : Option (List Byte) × State :=
  match s.drawRead with
  | .ioError => (none, s.takeRead)
  | .bytes k => (some (s.rspa.take (min k n)), { s.takeRead with rspa := s.rspa.drop (min k n) })

/-- Why a host operation is not admitted, in the order of R233: FATAL, then CLKCFG where it is needed, then BUS. -/
def admission (needsClock : Bool) (admits : BusState → Bool) (s : State) : Option Refusal :=
  if s.fatal then some .sessionFatal
  else if needsClock && !s.clkcfg then some .clockNotConfigured
  else if !admits s.bus then some (.notAdmitted s.bus)
  else none

/-- Refuse with the reason, or go on. -/
def unlessRefused (why : Option Refusal) (k : Step) : Step :=
  match why with
  | some r => .refused r
  | none => k

/-- Any bus state (R150, R151). -/
def anyBus : BusState → Bool
  | .idle => true
  | .started => true
  | .addressPhase => true
  | .dataPhase => true
  | .stopped => true

/-- SETCLK's admitted set (R36, R102). -/
def idleBus : BusState → Bool
  | .idle => true
  | .started => false
  | .addressPhase => false
  | .dataPhase => false
  | .stopped => false

/-- SENDBYTE's admitted set (R36, R170). -/
def sendBus : BusState → Bool
  | .idle => false
  | .started => true
  | .addressPhase => true
  | .dataPhase => true
  | .stopped => false

/-- READBYTE's admitted set (R36, R172). -/
def readBus : BusState → Bool
  | .idle => false
  | .started => false
  | .addressPhase => true
  | .dataPhase => true
  | .stopped => false

/-- Where SENDBYTE takes BUS (R36, R170). -/
def busAfterSend : BusState → BusState
  | .started => .addressPhase
  | .idle => .dataPhase
  | .addressPhase => .dataPhase
  | .dataPhase => .dataPhase
  | .stopped => .dataPhase

/-- Does the master drive line `i` low (R123)? -/
def State.masterLow (s : State) (i : Nat) : Bool := s.pindir.getLsbD i && !s.pinval.getLsbD i

/-- The levels of SDA (line 1) and SCL (line 0): wired-AND with a pull-up; the target never drives SCL (R123). -/
def State.levels (s : State) : Levels :=
  { sda := !(s.masterLow 1 || s.tlow), scl := !s.masterLow 0 }

/-- The level of line `i` of the GPIO group; `aux` is what the environment puts on released lines 7 to 2 (R33, R123,
U17). -/
def State.line (s : State) (aux : Byte) (i : Nat) : Bool :=
  if i = 0 then s.levels.scl
  else if i = 1 then s.levels.sda
  else if s.pindir.getLsbD i then s.pinval.getLsbD i
  else aux.getLsbD i

/-- The levels between two settings that differ in both lines (R130). -/
def halfway (order : LineOrder) (a b : Levels) : Levels :=
  match order with
  | .sdaFirst => { sda := b.sda, scl := a.scl }
  | .sclFirst => { sda := a.sda, scl := b.scl }

/-- Does going from `a` to `b` change both lines? -/
def bothChange (a b : Levels) : Bool := a.sda != b.sda && a.scl != b.scl

/-- The level changes of going from `a` to `b`: none, one, or two in the given order (R130). -/
def settingChanges (order : LineOrder) (a b : Levels) : List Levels :=
  if a = b then [] else if bothChange a b then [halfway order a b, b] else [b]

/-- Recording the change of the lines from `a` to what they are now; when both change, the order is the environment's
(R130). -/
def recordChange (a : Levels) (s : State) : State :=
  let t : State := { s with wave := s.wave ++ settingChanges s.drawOrder a s.levels }
  if bothChange a s.levels then t.takeOrder else t

/-- Setting the drivers (R120, R122). -/
def setDrivers (dir val : Byte) (s : State) : State :=
  recordChange s.levels { s with pindir := dir, pinval := val }

/-- The target's drive of SDA becomes `drive` (R123). -/
def targetDrives (drive : Bool) (s : State) : State := recordChange s.levels { s with tlow := drive }

/-- The target's reaction (R129). -/
def react (s : State) : State := targetDrives s.drawReact s.takeReact

/-- `PINDIR[i] <- b`, one line change (R125). -/
def assignDir (i : Nat) (b : Bool) (s : State) : State := setDrivers (withBit s.pindir i b) s.pinval s

/-- `PINDIR[i] <- b`, and then the target may react (R129). -/
def assign (i : Nat) (b : Bool) (s : State) : State := react (assignDir i b s)

/-- `RXSH <- trunc_8((RXSH << 1) | SDA)` (R126, R127). -/
def sampleSda (s : State) : State := { s with rxsh := shiftIn s.rxsh s.levels.sda }

/-- Doing one thing `n` times. -/
def times : Nat → (State → State) → State → State
  | 0, _, s => s
  | n + 1, f, s => times n f (f s)

/-- The reset event `rst` (R35, R250): Stage S, Stage P and the queues; DIV5, ADAPT, PH3 and RXSH take free values. The
environment, the parameters and the histories are not the block's (log 10, log 18). -/
def rst (s : State) : State :=
  let t := s.takeByte
  recordChange s.levels
    { t.takeByte with
      bus := .idle, clkcfg := false, fatal := false, result := 0, pindir := 0, pinval := 0,
      div := s.params.divReset,
      div5 := s.drawByte.getLsbD 0, adapt := s.drawByte.getLsbD 1, ph3 := s.drawByte.getLsbD 2,
      rxsh := t.drawByte, cmdq := [], rspq := [], rspa := [] }

end Sys2Proof.Machine
end

