-- ==== Sys2Proof/Machine/ClockDivisor.lean ====
section
/-! DEFINITION. The clock family (40_clock_divisor): the arithmetic helpers, the host operation SETCLK, and the
commands DIV5OFF, ADAPTOFF, PH3ON and SETDIV. -/

namespace Sys2Proof.Machine

/-- `DivisorOf(Fm, Fs)` (R100): floor division, less one in the integers, mod 2^16; refused (`none`) for `Fs = 0`. -/
def divisorOf (fm fs : Nat) : Option Half :=
  if fs = 0 then none else some (BitVec.ofInt 16 ((fm / (2 * fs) : Nat) - 1 : Int))

/-- `FsclOf(Fm, d)` (R101). -/
def fsclOf (fm : Nat) (d : Half) : Nat := fm / (2 * (d.toNat + 1))

/-- The SCL frequency during shift commands, given by the spec with `DIV5 = 0` only (R107). DESIGN CHOICE, unsafe (log 22):
this is R107's nominal figure, whatever PH3 and ADAPT are; whether three-phase clocking (91_not_in_source N3) or adaptive
clocking (R104) changes the rate the spec leaves open. No meaning and no statement reads it. -/
def sclRate (s : State) : Option Nat := if s.div5 then none else some (fsclOf s.params.fMaster s.div)

/-- SETCLK `divisor` (R102). -/
def execSetClk (d : Half) (s : State) : Step :=
  unlessRefused (admission false idleBus s)
    (.next (emitThen (encodeClockConfig d) (fun t => writeResult {} { t with clkcfg := true }) s))

/-- DIV5OFF (R103). -/
def execDiv5Off (s : State) : Step := .next { s with div5 := false }

/-- ADAPTOFF (R104). -/
def execAdaptOff (s : State) : Step := .next { s with adapt := false }

/-- PH3ON (R105). -/
def execPh3On (s : State) : Step := .next { s with ph3 := true }

/-- SETDIV `d` (R106). -/
def execSetDiv (d : Half) (s : State) : Step := .next { s with div := d }

end Sys2Proof.Machine
end

