-- ==== Sys2Proof/Machine/PinEngine.lean ====
section
/-! DEFINITION. The pin engine's commands PIN, CLKOUT8, CLKIN1, CLKIN8 and FLUSH (41_pin_commands R122, R125 to
R128). -/

namespace Sys2Proof.Machine

/-- PIN `dir`, `val` (R122): refused when it would drive SDA or SCL high; the target reacts after it (R129). -/
def execPin (dir val : Byte) (s : State) : Step :=
  if openDrainMasks dir val then .next (react (setDrivers dir val s)) else .refused .busLineDrivenHigh

/-- The clock modes a shift command needs: three-phase on, divide-by-5 and adaptive off (R105, U27). -/
def State.modesSet (s : State) : Bool := s.ph3 && !s.div5 && !s.adapt

/-- Why a shift command is refused: SCL not driven low at its start (R125 to R127), or clock modes not set (U27). DESIGN
CHOICE, unsafe (log 27): PINVAL is not tested. R125 takes `PINVAL[1:0]` to be 0b00 and says nothing of a shift command with
PINVAL[1] = 1, which a PIN given by hand can leave; the assignments are then executed as written, and a 0 bit drives SDA
high. Under Stage S it cannot occur (R34). -/
def shiftRefusal (s : State) : Option Refusal :=
  if !s.pindir.getLsbD 0 then some .sclNotLow
  else if !s.modesSet then some .clockModesNotSet
  else none

/-- One bit out: place it with SCL low (0 drives SDA low, 1 releases it), release SCL, drive SCL low (R125). -/
def clockOutBit (bit : Bool) (s : State) : State := assign 0 true (assign 0 false (assign 1 (!bit) s))

/-- Bits out, in order. -/
def clockOut : List Bool → State → State
  | [], s => s
  | bit :: bits, s => clockOut bits (clockOutBit bit s)

/-- CLKOUT8 `v` (R125). -/
def execClkOut8 (v : Byte) (s : State) : Step :=
  unlessRefused (shiftRefusal s) (.next (clockOut (bitsMsbFirst v) s))

/-- One bit in: release SCL, sample SDA on the rising edge, drive SCL low (R126). -/
def clockInBit (s : State) : State := assign 0 true (react (sampleSda (assignDir 0 false s)))

/-- The lines part of CLKIN1 and CLKIN8: release SDA, then `n` bits in (R126, R127). -/
def clockIn (n : Nat) (s : State) : State := times n clockInBit (assign 1 false s)

/-- Appending to RSPQ (R126, R127). -/
def State.respond (bytes : List Byte) (s : State) : State := { s with rspq := s.rspq ++ bytes }

/-- CLKIN1's response: bit 0 is the sample, the other bits are drawn (R126). -/
def respondBit (s : State) : State := s.takeByte.respond [clkIn1Response s.drawByte s.rxsh]

/-- CLKIN8's response: the byte shifted in, then a drawn status byte (R127). -/
def respondByte (s : State) : State := s.takeByte.respond [s.rxsh, s.drawByte]

/-- CLKIN1 (R126). -/
def execClkIn1 (s : State) : Step := unlessRefused (shiftRefusal s) (.next (respondBit (clockIn 1 s)))

/-- CLKIN8 (R127). -/
def execClkIn8 (s : State) : Step := unlessRefused (shiftRefusal s) (.next (respondByte (clockIn 8 s)))

/-- FLUSH (R128). -/
def execFlush (s : State) : Step := .next { s with rspa := s.rspa ++ s.rspq, rspq := [] }

end Sys2Proof.Machine
end

