-- ==== Sys2Proof/Machine/Engine.lean ====
section
/-! DEFINITION. Stage P as an agent (41_pin_commands R129): fetch one command from the front of CMDQ, remove its bytes,
execute it to completion; and several such steps in a row, for the stretches inside a host operation (20_memory R60,
R62). -/

namespace Sys2Proof.Machine

/-- What a primitive command does; Stage P has no meaning for anything but the nine commands (R89). -/
def engineExec (i : Instr) (s : State) : Step :=
  match i with
  | .pin dir val => execPin dir val s
  | .clkOut8 v => execClkOut8 v s
  | .clkIn1 => execClkIn1 s
  | .clkIn8 => execClkIn8 s
  | .flush => execFlush s
  | .div5Off => execDiv5Off s
  | .adaptOff => execAdaptOff s
  | .ph3On => execPh3On s
  | .setDiv d => execSetDiv d s
  | .start => .refused (.reservedCommand .commandOpcode)
  | .stop => .refused (.reservedCommand .commandOpcode)
  | .sendByte _ => .refused (.reservedCommand .commandOpcode)
  | .readByte _ => .refused (.reservedCommand .commandOpcode)
  | .setClk _ => .refused (.reservedCommand .commandOpcode)
  | .setAddr _ _ => .refused (.reservedCommand .commandOpcode)

/-- Stage P's fetch (R88). -/
def fetchCommand (s : State) : Decoded := decodeCommand s.params.opcodes s.cmdq

/-- One step of Stage P, with `run` executing the command; with no complete command it has no step (R88, log 7). -/
def engineStepWith (run : Instr → State → Step) (s : State) : Step :=
  match fetchCommand s with
  | .command i rest => run i { s with cmdq := rest }
  | .reserved why => .refused (.reservedCommand why)
  | .incomplete => .next s

/-- One step of Stage P. -/
def engineStep (s : State) : Step := engineStepWith engineExec s

/-- `n` steps of Stage P. -/
def runEngine : Nat → State → Step
  | 0, s => .next s
  | n + 1, s => andThen (engineStep s) (runEngine n)

/-- Stage P running for a while, as long as the environment says (R62, log 6). -/
def engineRuns (s : State) : Step := runEngine s.drawPace s.takePace

end Sys2Proof.Machine
end

