-- ==== Sys2Proof/Machine/ByteTransfer.lean ====
section
/-! DEFINITION. The byte transmitter and receiver: SENDBYTE, READBYTE, SETADDR (43_byte_transfer R170 to R174). -/

namespace Sys2Proof.Machine

/-- SENDBYTE's reads: at most `n` attempts at one byte, ended by a byte or by `IoError`; Stage P may run before each
(R170, R62). -/
def readAttempts : Nat → State → Host.Outcome (Option Byte × State) Fault Refusal
  | 0, s => .next (none, s)
  | n + 1, s =>
    andThen (engineRuns s) fun t =>
      match linkRead 1 t with
      | (none, u) => .next (none, u)
      | (some (b :: _), u) => .next (some b, u)
      | (some [], u) => readAttempts n u

/-- RESULT of SENDBYTE: the decoded byte, or the Nack-equivalent failure (R170, R171). -/
def sendFields : Option Byte → ResultFields
  | some b => { data := b, rspn := 1, nack := nackBit b }
  | none => { rspn := 0, nack := true, err := ErrorKind.adapterIoFailed.code }

/-- SENDBYTE's state writes after its last Emit (R170). -/
def finishSend (got : Option Byte) (s : State) : State :=
  writeResult (sendFields got) { s with bus := busAfterSend s.bus }

/-- SENDBYTE after its read: the idle re-assert, in every outcome of the read (R170). -/
def sendTail (got : Option Byte) (s : State) : State := emitThen [pat s.params 0b01#2] (finishSend got) s

/-- SENDBYTE `value` (R170). -/
def execSendByte (v : Byte) (s : State) : Step :=
  unlessRefused (admission true sendBus s)
    (emitOr (sendCommands v)
      (fun t => andThen (readAttempts t.params.rdAttempts t) fun r => .next (sendTail r.1 r.2)) s)

/-- The status byte says that the shift did not complete (R90, R172). -/
def shiftFailed (p : Params) (status : Byte) : Bool := status &&& p.statusErrMask != 0

/-- A recoverable error of READBYTE: BUS goes to DataPhase, nothing more is emitted (R172). -/
def readFails (e : ErrorKind) (f : ResultFields) (s : State) : State := raiseError e f { s with bus := .dataPhase }

/-- READBYTE's state writes after its last Emit (R172). -/
def finishRead (d status : Byte) (s : State) : State :=
  writeResult { data := d, raw1 := status, rspn := 2 } { s with bus := .dataPhase }

/-- READBYTE after its read (R172): `IoError`, two bytes, or a short read. -/
def readTail (last : Bool) (got : Option (List Byte)) (s : State) : State :=
  match got with
  | none => readFails .adapterIoFailed {} s
  | some [d, status] =>
    if shiftFailed s.params status then readFails .readIncomplete { data := d, raw1 := status, rspn := 2 } s
    else emitThen [ackPattern s.params last] (finishRead d status) s
  | some short => readFails .readIncomplete { data := short.headD 0, rspn := BitVec.ofNat 2 short.length } s

/-- READBYTE `isLastByte` (R172). -/
def execReadByte (last : Bool) (s : State) : Step :=
  unlessRefused (admission true readBus s)
    (emitOr (readCommands s.params)
      (fun t => andThen (engineRuns t) fun u => .next (readTail last (linkRead 2 u).1 (linkRead 2 u).2)) s)

/-- SETADDR `addr7`, `readIntent` (R174): admitted in every state, touches RESULT only. -/
def execSetAddr (a : BitVec 7) (r : Bool) (s : State) : Step := .next (writeResult { data := addressByte a r } s)

end Sys2Proof.Machine
end

