-- ==== Sys2Proof/Machine/StartStop.lean ====
section
/-! DEFINITION. The start and stop condition generator: START and STOP (42_start_stop R150, R151). -/

namespace Sys2Proof.Machine

/-- START's state writes after its Emit (R150). -/
def finishStart (s : State) : State := writeResult {} { s with bus := .started }

/-- STOP writes Stopped, then Idle (R151, D11). -/
def finishStop (s : State) : State :=
  let t : State := { s with bus := .stopped }
  writeResult {} { t with bus := .idle }

/-- START (R150). -/
def execStart (s : State) : Step :=
  unlessRefused (admission false anyBus s) (.next (emitThen (startCommands s.params) finishStart s))

/-- STOP (R151). -/
def execStop (s : State) : Step :=
  unlessRefused (admission false anyBus s) (.next (emitThen (stopCommands s.params) finishStop s))

end Sys2Proof.Machine
end

