-- ==== Sys2Proof/Machine/ResetPoints.lean ====
section
/-! DEFINITION. The reset event "whatever the block was doing" (70_reset_and_hazards R250): between two steps, inside a
host operation, or inside a primitive command. What an operation or a command passes through is listed here, assignment by
assignment, Emit by Emit and read by read; the event then starts from one of those states (log 26). -/

namespace Sys2Proof.Machine

/-- Doing actions in order. -/
def runActs : List (State → State) → State → State
  | [], s => s
  | f :: fs, s => runActs fs (f s)

/-- The states passed while doing actions in order, the first and the last included. -/
def passed : List (State → State) → State → List State
  | [], s => [s]
  | f :: fs, s => s :: passed fs (f s)

/-- The actions of `assign`: the assignment, and the target's reaction to it (R129). -/
def assignActs (i : Nat) (b : Bool) : List (State → State) := [assignDir i b, react]

/-- The actions of `clockOut` (R125). -/
def clockOutActs (bits : List Bool) : List (State → State) :=
  bits.flatMap fun bit => assignActs 1 (!bit) ++ assignActs 0 false ++ assignActs 0 true

/-- The actions of `clockInBit` (R126). -/
def clockInBitActs : List (State → State) := [assignDir 0 false, sampleSda, react] ++ assignActs 0 true

/-- The actions of `clockIn` (R126, R127). -/
def clockInActs (n : Nat) : List (State → State) := assignActs 1 false ++ (List.replicate n clockInBitActs).flatten

/-- The actions of a primitive command, in the order of its rule (R103 to R106, R122, R125 to R128); a host operation is
none. -/
def commandActs : Instr → List (State → State)
  | .pin dir val => [setDrivers dir val, react]
  | .clkOut8 v => clockOutActs (bitsMsbFirst v)
  | .clkIn1 => clockInActs 1 ++ [respondBit]
  | .clkIn8 => clockInActs 8 ++ [respondByte]
  | .flush => [fun s => { s with rspa := s.rspa ++ s.rspq, rspq := [] }]
  | .div5Off => [fun s => { s with div5 := false }]
  | .adaptOff => [fun s => { s with adapt := false }]
  | .ph3On => [fun s => { s with ph3 := true }]
  | .setDiv d => [fun s => { s with div := d }]
  | .start => []
  | .stop => []
  | .sendByte _ => []
  | .readByte _ => []
  | .setClk _ => []
  | .setAddr _ _ => []

/-- The last point of a run that goes on: its end. -/
def endPoint (x : Step) : List State :=
  match x with
  | .next t => [t]
  | .fault _ => []
  | .refused _ => []

/-- The points of one command; none when Stage P refuses it. -/
def commandPoints (i : Instr) (s : State) : List State :=
  match engineExec i s with
  | .next _ => passed (commandActs i) s
  | .fault _ => []
  | .refused _ => []

/-- The points of one step of Stage P; none when it has no command to execute. -/
def enginePoints (s : State) : List State :=
  match fetchCommand s with
  | .command i rest => commandPoints i { s with cmdq := rest }
  | .reserved _ => []
  | .incomplete => []

/-- The points of `n` steps of Stage P. -/
def runEnginePoints : Nat → State → List State
  | 0, s => [s]
  | n + 1, s => enginePoints s ++ (endPoint (engineStep s)).flatMap (runEnginePoints n)

/-- The points of Stage P running before a LinkRead (R62). -/
def engineRunsPoints (s : State) : List State := runEnginePoints s.drawPace s.takePace

/-- The points of SENDBYTE's reads (R170). -/
def readAttemptsPoints : Nat → State → List State
  | 0, _ => []
  | n + 1, s =>
    engineRunsPoints s ++ (endPoint (engineRuns s)).flatMap fun t =>
      match linkRead 1 t with
      | (none, u) => [u]
      | (some (_ :: _), u) => [u]
      | (some [], u) => u :: readAttemptsPoints n u

/-- The points of READBYTE's read (R172). -/
def readPoints (s : State) : List State :=
  engineRunsPoints s ++ (endPoint (engineRuns s)).map fun t => (linkRead 2 t).2

/-- The points after an Emit that succeeds, its end first (R55); an Emit that fails ends its operation. -/
def emitPoints (cmds : List Instr) (k : State → List State) (s : State) : List State :=
  if (emit cmds s).1 then (emit cmds s).2 :: k (emit cmds s).2 else []

/-- The points of an operation: its beginning, what is inside, its end; none when it is not admitted. An operation's last
Emit and its end differ only in BUS, CLKCFG, FATAL and RESULT, which the reset event sets, so they are one point. -/
def unlessRefusedPoints (why : Option Refusal) (s : State) (inside : List State) (x : Step) : List State :=
  match why with
  | some _ => []
  | none => s :: (inside ++ endPoint x)

/-- The points of a host operation (R102, R150, R151, R170, R172, R174). -/
def operationPoints (i : Instr) (s : State) : List State :=
  match i with
  | .start => unlessRefusedPoints (admission false anyBus s) s [] (execStart s)
  | .stop => unlessRefusedPoints (admission false anyBus s) s [] (execStop s)
  | .setClk d => unlessRefusedPoints (admission false idleBus s) s [] (execSetClk d s)
  | .setAddr a r => unlessRefusedPoints none s [] (execSetAddr a r s)
  | .sendByte v =>
    unlessRefusedPoints (admission true sendBus s) s
      (emitPoints (sendCommands v) (fun t => readAttemptsPoints t.params.rdAttempts t) s) (execSendByte v s)
  | .readByte last =>
    unlessRefusedPoints (admission true readBus s) s (emitPoints (readCommands s.params) readPoints s)
      (execReadByte last s)
  | .pin _ _ => []
  | .clkOut8 _ => []
  | .clkIn1 => []
  | .clkIn8 => []
  | .flush => []
  | .div5Off => []
  | .adaptOff => []
  | .ph3On => []
  | .setDiv _ => []

/-- The points of the host's next operation. -/
def hostPoints (s : State) : List State :=
  match s.env.words with
  | [] => []
  | w :: rest =>
    match decodeHost w with
    | .operation i => operationPoints i { s with env := { s.env with words := rest } }
    | .reserved _ => []

/-- Where the reset event finds the block: as it stands, or inside what the host or Stage P would do next; as it stands,
when there is no such point (log 26). -/
def resetStart (p : ResetPoint) (s : State) : State :=
  match p with
  | .between => s
  | .inHost k => (hostPoints s)[k]?.getD s
  | .inEngine k => (enginePoints s)[k]?.getD s

/-- The reset event, whatever the block was doing (R250). -/
def resetAt (p : ResetPoint) (s : State) : State := rst (resetStart p s)

end Sys2Proof.Machine
end

