-- ==== Sys2Proof/Machine/Agents.lean ====
section
/-! DEFINITION. The agents' turns (00_scope R9, 41_pin_commands R129): what each does when it is its turn, with `run`
executing an instruction; and how a table word is put where the next step fetches it. -/

namespace Sys2Proof.Machine

/-- The host's turn: Stage S takes the next word and executes it; a reserved word is refused (R78); with no word the
block waits (R250, log 5). -/
def hostTurn (run : Instr → State → Step) (s : State) : Step :=
  match s.env.words with
  | [] => .next s
  | w :: rest =>
    match decodeHost w with
    | .operation i => run i { s with env := { s.env with words := rest } }
    | .reserved why => .refused (.reservedHostWord why)

/-- One turn of the machine. -/
def takeStep (run : Instr → State → Step) (turn : Turn) (s : State) : Step :=
  match turn with
  | .host => hostTurn run s
  | .engine => engineStepWith run s
  | .target drive => .next (targetDrives drive s)
  | .rst point => .next (resetAt point s)

/-- Scripting one more turn, before any other. -/
def State.scriptTurn (turn : Turn) (s : State) : State :=
  { s with env := { s.env with turns := { s.env.turns with script := turn :: s.env.turns.script } } }

/-- The host asks for one more operation, before any other. -/
def State.askWord (w : Word) (s : State) : State := { s with env := { s.env with words := w :: s.env.words } }

/-- An encoding put where the next step fetches it: a host word at the head of the host's requests with the host's
turn next, or a command's bytes at the front of CMDQ with Stage P's turn next (log 16). -/
def placeEncoding (e : Encoding) (s : State) : State :=
  match e with
  | .hostWord w => (s.askWord w).scriptTurn .host
  | .command bytes => ({ s with cmdq := bytes ++ s.cmdq } : State).scriptTurn .engine

end Sys2Proof.Machine
end

