-- ==== Sys2Proof/Machine/Dispatch.lean ====
section
/-! DEFINITION. exec: one arm per instruction, each one call of its meaning. -/

namespace Sys2Proof.Machine

def exec (i : Instr) (s : State) : Host.Outcome State Fault Refusal :=
  match i with
  | .start => Sys2Proof.Machine.execStart s
  | .stop => Sys2Proof.Machine.execStop s
  | .sendByte value => Sys2Proof.Machine.execSendByte value s
  | .readByte isLastByte => Sys2Proof.Machine.execReadByte isLastByte s
  | .setClk divisor => Sys2Proof.Machine.execSetClk divisor s
  | .setAddr addr7 readIntent => Sys2Proof.Machine.execSetAddr addr7 readIntent s
  | .pin dir val => Sys2Proof.Machine.execPin dir val s
  | .clkOut8 v => Sys2Proof.Machine.execClkOut8 v s
  | .clkIn1 => Sys2Proof.Machine.execClkIn1 s
  | .clkIn8 => Sys2Proof.Machine.execClkIn8 s
  | .flush => Sys2Proof.Machine.execFlush s
  | .div5Off => Sys2Proof.Machine.execDiv5Off s
  | .adaptOff => Sys2Proof.Machine.execAdaptOff s
  | .ph3On => Sys2Proof.Machine.execPh3On s
  | .setDiv d => Sys2Proof.Machine.execSetDiv d s

end Sys2Proof.Machine
end

