-- ==== Sys2Proof/Machine/Step.lean ====
section
/-! DEFINITION. One step of the machine: the environment's schedule says whose turn it is (41_pin_commands R129, log 5),
and that agent moves. -/

namespace Sys2Proof.Machine

/-- One step. -/
def step (s : State) : Host.Outcome State Fault Refusal := takeStep exec s.drawTurn s.takeTurn

/-- `s` with the instruction of a table word where `step` fetches next (log 12, log 16). -/
def State.withFetchWord (s : State) (nbits w : Nat) : State := placeEncoding (tableEncoding nbits w) s

end Sys2Proof.Machine
end

