-- ==== Sys2Proof/Machine/Lines.lean ====
section
/-! DEFINITION. What happens on the bus, judged on a sequence of level pairs (41_pin_commands R124). No meaning reads
this file: it is the vocabulary of claims about the bus. -/

namespace Sys2Proof.Machine

/-- The events of R124. -/
inductive BusEvent where
  /-- SDA 1 to 0 while SCL is 1. -/
  | startCondition
  /-- SDA 0 to 1 while SCL is 1. -/
  | stopCondition
  /-- SCL 0 to 1: the receiver's sample. -/
  | bitTransfer (sda : Bool)
  deriving DecidableEq, Repr

/-- The event of one change of levels, if it is one (R124). -/
def busEvent (a b : Levels) : Option BusEvent :=
  if a.scl && b.scl && a.sda && !b.sda then some .startCondition
  else if a.scl && b.scl && !a.sda && b.sda then some .stopCondition
  else if !a.scl && b.scl then some (.bitTransfer b.sda)
  else none

/-- The events of a sequence of levels that begins after level `a`, in order. -/
def eventsFrom (a : Levels) : List Levels → List BusEvent
  | [] => []
  | b :: rest => (busEvent a b).toList ++ eventsFrom b rest

/-- The events of a whole sequence of levels. -/
def busEvents : List Levels → List BusEvent
  | [] => []
  | a :: rest => eventsFrom a rest

/-- Do two level pairs differ in exactly one line? -/
def oneLineApart (a b : Levels) : Bool := (a.sda != b.sda) != (a.scl != b.scl)

/-- Does every change of a sequence after `a` change one line only (R124)? -/
def oneAtATimeFrom (a : Levels) : List Levels → Bool
  | [] => true
  | b :: rest => oneLineApart a b && oneAtATimeFrom b rest

/-- Does every change of a sequence change one line only (R124, R130)? -/
def oneAtATime : List Levels → Bool
  | [] => true
  | a :: rest => oneAtATimeFrom a rest

/-- Does one change keep SDA while SCL is high: the clock-low data-change discipline of a bit (R124)? -/
def dataStable (a b : Levels) : Bool := a.sda == b.sda || (!a.scl && !b.scl)

/-- Is the sequence after `a` free of SDA changes with SCL high? -/
def dataStableFrom (a : Levels) : List Levels → Bool
  | [] => true
  | b :: rest => dataStable a b && dataStableFrom b rest

end Sys2Proof.Machine
end

