-- ==== Sys2Proof/Machine/Transactions.lean ====
section
/-! DEFINITION. The composite operations of host software (44_transactions R200 to R203): each issues host operations
and tests their results between them. They are not instructions (30_encoding R92). -/

namespace Sys2Proof.Machine

/-- A Transaction: a host-side value (R202). -/
structure Transaction where
  outgoing : List Byte
  incoming : Nat
  deriving DecidableEq, Repr

/-- What an entry of `errs` is about (R200, R201): the write's address byte, or an index. -/
inductive TransferIndex where
  | address
  | byte (n : Nat)
  deriving DecidableEq, Repr

/-- `{ status, acks, bytes, errs }` (R203); `status = none` is `Ok`. -/
structure TransactionResult where
  status : Option ErrorKind := none
  acks   : List AckResult := []
  bytes  : List Byte := []
  errs   : List (TransferIndex × ErrorKind) := []
  deriving DecidableEq, Repr

/-- A composite's outcome: its result and the machine after it, or the stop of an operation it issued (R233). -/
abbrev CompositeOutcome := Host.Outcome (TransactionResult × State) Fault Refusal

/-- A fatal error ends the composite at once (R203); otherwise go on. -/
def unlessFatal (acc : TransactionResult) (s : State) (k : CompositeOutcome) : CompositeOutcome :=
  if s.fatal then .next ({ acc with status := some .adapterIoFailed }, s) else k

/-- Issue a host operation within a composite (R203). -/
def issue (op : State → Step) (acc : TransactionResult) (s : State) (k : State → CompositeOutcome) : CompositeOutcome :=
  andThen (op s) fun t => unlessFatal acc t (k t)

/-- The composite's last operation is STOP, and then its result stands (R200, R201). -/
def closeWithStop (acc : TransactionResult) (s : State) : CompositeOutcome :=
  issue execStop acc s fun t => .next (acc, t)

/-- Recording a SENDBYTE's flag, and an error if it is a Nack (R200, R201). -/
def recordAck (i : TransferIndex) (e : ErrorKind) (k : AckResult) (acc : TransactionResult) : TransactionResult :=
  { acc with acks := acc.acks ++ [k], errs := acc.errs ++ (if k = .nack then [(i, e)] else []) }

/-- The payload loop of writeTransaction, from index `j` (R200): a Nack is recorded and does not abort. -/
def sendPayload : List Byte → Nat → TransactionResult → State → CompositeOutcome
  | [], _, acc, s => closeWithStop acc s
  | b :: rest, j, acc, s =>
    issue (execSendByte b) acc s fun t => sendPayload rest (j + 1) (recordAck (.byte j) .dataNack (ackOf t) acc) t

/-- `writeTransaction(address7, payload)` (R200). -/
def writeTransaction (a : BitVec 7) (payload : List Byte) (s : State) : CompositeOutcome :=
  issue execStart {} s fun t =>
    issue (execSendByte (addressByte a false)) {} t fun u =>
      let acc := recordAck .address .addressNack (ackOf u) {}
      let acc := { acc with status := if ackOf u = .nack then some .addressNack else none }
      if ackOf u = .nack ∧ u.params.abortOnAddrNack then closeWithStop acc u
      else sendPayload payload 0 acc u

/-- Recording a READBYTE's byte or error (R201). -/
def recordRead (i : Nat) (s : State) (acc : TransactionResult) : TransactionResult :=
  match errorKindOf (resultErr s.result) with
  | none => { acc with bytes := acc.bytes ++ [resultData s.result] }
  | some e => { acc with errs := acc.errs ++ [(.byte i, e)] }

/-- The overall status of readTransaction: the kind of the first recorded error (R201). -/
def firstError (acc : TransactionResult) : TransactionResult :=
  { acc with status := acc.errs.head?.map Prod.snd }

/-- The loop of readTransaction: `left` iterations from index `i` (R201). -/
def readLoop (a : BitVec 7) : Nat → Nat → TransactionResult → State → CompositeOutcome
  | 0, _, acc, s => closeWithStop (firstError acc) s
  | left + 1, i, acc, s =>
    issue execStart acc s fun t =>
      issue (execSendByte (addressByte a true)) acc t fun u =>
        let acc := recordAck (.byte i) .addressNack (ackOf u) acc
        if ackOf u = .ack then
          issue (execReadByte (left == 0)) acc u fun v => readLoop a left (i + 1) (recordRead i v acc) v
        else readLoop a left (i + 1) acc u

/-- `readTransaction(address7, count)` (R201): for `count = 0` no operation is issued. -/
def readTransaction (a : BitVec 7) (count : Nat) (s : State) : CompositeOutcome :=
  match count with
  | 0 => .next ({}, s)
  | n + 1 => readLoop a (n + 1) 0 {} s

end Sys2Proof.Machine
end

