-- ==== Sys2Proof/Safety.lean ====
section
/-! DEFINITION. What counts as a safe run, in the terms claims use: the invariants of 10_state R25 and R34, of the queues
(20_memory R51) and of the lines (41_pin_commands R124), and the readiness of Stage P for everything queued
(42_start_stop R152 (g), 30_encoding R89). -/

namespace Sys2Proof.Machine

/-- Open drain: the value bits of SDA and SCL are 0, so neither line is ever driven high (R34). -/
abbrev OpenDrain (s : State) : Prop := s.pinval.getLsbD 1 = false ∧ s.pinval.getLsbD 0 = false

/-- RESULT mirrors FATAL and BUS, its unassigned bits read 0, its error code is one the block writes, and BUS is not
Stopped (R25, R221, R36). -/
abbrev ResultMirrors (s : State) : Prop :=
  resultFatalf s.result = s.fatal ∧ resultBusf s.result = s.bus.code ∧ resultBit19 s.result = false ∧
  resultTop s.result = 0 ∧ (resultErr s.result = 0 ∨ resultErr s.result = 2 ∨ resultErr s.result = 5) ∧
  s.bus ≠ .stopped

/-- What Stage P has not executed is the end of what was ever written to CMD_OUT (R51, R60). -/
abbrev QueueIsTail (s : State) : Prop := s.cmdq <:+ s.cmdOut

/-- The line history ends in the present levels and changes one line at a time (R124, R130). -/
abbrev WaveCurrent (s : State) : Prop := s.wave.getLast? = some s.levels ∧ oneAtATime s.wave = true

/-- What a shift command tests before it starts (R125 to R127, U27). -/
structure ShiftReady where
  sclLow : Bool
  div5   : Bool
  adapt  : Bool
  ph3    : Bool
  deriving DecidableEq, Repr

/-- The tested facts of a state. -/
def State.shiftReady (s : State) : ShiftReady :=
  { sclLow := s.pindir.getLsbD 0, div5 := s.div5, adapt := s.adapt, ph3 := s.ph3 }

/-- Are the clock modes those of a completed SETCLK (R30)? -/
def ShiftReady.modesSet (r : ShiftReady) : Bool := r.ph3 && !r.div5 && !r.adapt

/-- What executing one command does to the tested facts; none when Stage P would refuse it or it is not one Stage S can
emit (R89, R121). -/
def ShiftReady.after (r : ShiftReady) : Instr → Option ShiftReady
  | .pin dir val =>
    if !val.getLsbD 1 && !val.getLsbD 0 then some { r with sclLow := dir.getLsbD 0 } else none
  | .clkOut8 _ => if r.sclLow && r.modesSet then some r else none
  | .clkIn1 => if r.sclLow && r.modesSet then some r else none
  | .clkIn8 => if r.sclLow && r.modesSet then some r else none
  | .flush => some r
  | .div5Off => some { r with div5 := false }
  | .adaptOff => some { r with adapt := false }
  | .ph3On => some { r with ph3 := true }
  | .setDiv _ => some r
  | .start => none
  | .stop => none
  | .sendByte _ => none
  | .readByte _ => none
  | .setClk _ => none
  | .setAddr _ _ => none

/-- The same for a list of commands, in order. -/
def ShiftReady.afterAll (r : ShiftReady) : List Instr → Option ShiftReady
  | [] => some r
  | i :: rest =>
    match r.after i with
    | some q => q.afterAll rest
    | none => none

/-- Stage P can execute all that is queued, except a cut command at the end after a fatal error (R88); and once it has,
the clock modes are set if CLKCFG says so, and SCL is low if BUS is inside a transfer (R152 (g)). -/
def EngineReady (s : State) : Prop :=
  ∃ (cmds : List Instr) (cut : List Byte) (r : ShiftReady),
    s.cmdq = encodeCommands s.params.opcodes cmds ++ cut ∧
    s.shiftReady.afterAll cmds = some r ∧
    (cut = [] ∨ (s.fatal = true ∧ decodeCommand s.params.opcodes cut = .incomplete)) ∧
    (s.fatal = false →
      (s.clkcfg = true → r.modesSet = true) ∧ (sendBus s.bus = true → r.sclLow = true))

/-- The invariant under which Stage P never meets a command it would refuse. -/
def EngineSafe (s : State) : Prop := s.params.Wf ∧ OpenDrain s ∧ EngineReady s

/-- Is it a refusal of the host's request (R233), and not one of Stage P? -/
def Refusal.ofHost : Refusal → Bool
  | .reservedHostWord _ => true
  | .sessionFatal => true
  | .clockNotConfigured => true
  | .notAdmitted _ => true
  | _ => false

/-- Executing one instruction `n` times in a row. -/
def execTimes : Nat → Instr → State → Step
  | 0, _, s => .next s
  | n + 1, i, s => andThen (exec i s) (execTimes n i)

/-- The level changes since a state's history, given the later history. -/
def State.changesSince (t s : State) : List Levels := t.wave.drop s.wave.length

/-- The target does not drive SDA now, nor at its next `n` reactions. -/
def TargetQuiet (n : Nat) (s : State) : Prop :=
  s.tlow = false ∧ ∀ k, k < n → s.env.reacts.nth Config.freeReact k = false

/-! ## What a composite issues (44_transactions R200, R201) -/

/-- A host operation that completes without a fatal error. -/
def Issues (i : Instr) (s t : State) : Prop := exec i s = .next t ∧ t.fatal = false

/-- SENDBYTEs of a payload, each byte in order, and their flags. -/
def SendsInOrder : List Byte → State → List AckResult → State → Prop
  | [], s, acks, t => acks = [] ∧ t = s
  | b :: rest, s, acks, t =>
    ∃ u more, Issues (.sendByte b) s u ∧ acks = ackOf u :: more ∧ SendsInOrder rest u more t

/-- The errors a write records for its payload, from index `j`: one for each Nack. -/
def dataNacks : Nat → List AckResult → List (TransferIndex × ErrorKind)
  | _, [] => []
  | j, .ack :: rest => dataNacks (j + 1) rest
  | j, .nack :: rest => (.byte j, .dataNack) :: dataNacks (j + 1) rest

/-- What one READBYTE puts in front of a read's later results: its byte, or its error. -/
def withRead (i : Nat) (s : State) (later : TransactionResult) : TransactionResult :=
  match errorKindOf (resultErr s.result) with
  | none => { later with bytes := resultData s.result :: later.bytes }
  | some e => { later with errs := (.byte i, e) :: later.errs }

/-- The START, address and READBYTE cycles of a read, `left` of them from index `i`: READBYTE after an Ack only, and its
isLastByte in the last cycle only. -/
def ReadsInOrder (a : BitVec 7) : Nat → Nat → State → TransactionResult → State → Prop
  | 0, _, s, r, t => r = {} ∧ t = s
  | left + 1, i, s, r, t =>
    ∃ u v, Issues .start s u ∧ Issues (.sendByte (addressByte a true)) u v ∧
      ((ackOf v = .nack ∧ ∃ later, ReadsInOrder a left (i + 1) v later t ∧
          r = { later with acks := .nack :: later.acks, errs := (.byte i, .addressNack) :: later.errs }) ∨
        (ackOf v = .ack ∧ ∃ w later, Issues (.readByte (left == 0)) v w ∧ ReadsInOrder a left (i + 1) w later t ∧
          r = withRead i w { later with acks := .ack :: later.acks }))

end Sys2Proof.Machine
end

