-- ==== Sys2Proof/Laws/Decode.lean ====
section
/-! SUPPORT. What the decoder does on what the encoder writes, one lemma per instruction. -/

namespace Sys2Proof

/-- The pairwise distinctness of R6, as the inequalities the decoder's tests need. -/
theorem Opcodes.distinct_iff (o : Opcodes) : o.Distinct ↔
    (o.setLow ≠ o.clkOut ∧ o.setLow ≠ o.clkInBits ∧ o.setLow ≠ o.flush ∧ o.setLow ≠ o.div5Off ∧
      o.setLow ≠ o.adaptOff ∧ o.setLow ≠ o.ph3On ∧ o.setLow ≠ o.setDiv) ∧
    (o.clkOut ≠ o.clkInBits ∧ o.clkOut ≠ o.flush ∧ o.clkOut ≠ o.div5Off ∧ o.clkOut ≠ o.adaptOff ∧
      o.clkOut ≠ o.ph3On ∧ o.clkOut ≠ o.setDiv) ∧
    (o.clkInBits ≠ o.flush ∧ o.clkInBits ≠ o.div5Off ∧ o.clkInBits ≠ o.adaptOff ∧ o.clkInBits ≠ o.ph3On ∧
      o.clkInBits ≠ o.setDiv) ∧
    (o.flush ≠ o.div5Off ∧ o.flush ≠ o.adaptOff ∧ o.flush ≠ o.ph3On ∧ o.flush ≠ o.setDiv) ∧
    (o.div5Off ≠ o.adaptOff ∧ o.div5Off ≠ o.ph3On ∧ o.div5Off ≠ o.setDiv) ∧
    (o.adaptOff ≠ o.ph3On ∧ o.adaptOff ≠ o.setDiv) ∧ o.ph3On ≠ o.setDiv := by
  simp [Opcodes.Distinct, Opcodes.all, and_assoc]

/-- The default opcodes are pairwise distinct (R6). -/
theorem Opcodes.standard_distinct : Opcodes.standard.Distinct := by decide

section
variable {o : Opcodes} {rest : List Byte}

@[simp] theorem decodeCommand_nil : decodeCommand o [] = .incomplete := rfl

@[simp] theorem decodeCommand_setLow : decodeCommand o (o.setLow :: rest) = decodePin rest := by
  simp [decodeCommand]

theorem decodeCommand_clkOut (h : o.Distinct) : decodeCommand o (o.clkOut :: rest) = decodeClkOut rest := by
  have d := (Opcodes.distinct_iff o).mp h
  simp [decodeCommand, d.1.1.symm]

theorem decodeCommand_clkInBits (h : o.Distinct) : decodeCommand o (o.clkInBits :: rest) = decodeClkIn rest := by
  have d := (Opcodes.distinct_iff o).mp h
  simp [decodeCommand, d.1.2.1.symm, d.2.1.1.symm]

theorem decodeCommand_flush (h : o.Distinct) : decodeCommand o (o.flush :: rest) = .command .flush rest := by
  have d := (Opcodes.distinct_iff o).mp h
  simp [decodeCommand, d.1.2.2.1.symm, d.2.1.2.1.symm, d.2.2.1.1.symm]

theorem decodeCommand_div5Off (h : o.Distinct) : decodeCommand o (o.div5Off :: rest) = .command .div5Off rest := by
  have d := (Opcodes.distinct_iff o).mp h
  simp [decodeCommand, d.1.2.2.2.1.symm, d.2.1.2.2.1.symm, d.2.2.1.2.1.symm, d.2.2.2.1.1.symm]

theorem decodeCommand_adaptOff (h : o.Distinct) : decodeCommand o (o.adaptOff :: rest) = .command .adaptOff rest := by
  have d := (Opcodes.distinct_iff o).mp h
  simp [decodeCommand, d.1.2.2.2.2.1.symm, d.2.1.2.2.2.1.symm, d.2.2.1.2.2.1.symm, d.2.2.2.1.2.1.symm,
    d.2.2.2.2.1.1.symm]

theorem decodeCommand_ph3On (h : o.Distinct) : decodeCommand o (o.ph3On :: rest) = .command .ph3On rest := by
  have d := (Opcodes.distinct_iff o).mp h
  simp [decodeCommand, d.1.2.2.2.2.2.1.symm, d.2.1.2.2.2.2.1.symm, d.2.2.1.2.2.2.1.symm, d.2.2.2.1.2.2.1.symm,
    d.2.2.2.2.1.2.1.symm, d.2.2.2.2.2.1.1.symm]

theorem decodeCommand_setDiv (h : o.Distinct) : decodeCommand o (o.setDiv :: rest) = decodeSetDiv rest := by
  have d := (Opcodes.distinct_iff o).mp h
  simp [decodeCommand, d.1.2.2.2.2.2.2.symm, d.2.1.2.2.2.2.2.symm, d.2.2.1.2.2.2.2.symm, d.2.2.2.1.2.2.2.symm,
    d.2.2.2.2.1.2.2.symm, d.2.2.2.2.2.1.2.symm, d.2.2.2.2.2.2.symm]

end

/-- A divisor is its high byte over its low byte (R87). -/
theorem half_of_bytes (d : Half) : d.extractLsb' 8 8 ++ d.extractLsb' 0 8 = d := by
  ext i hi
  simp only [BitVec.getElem_append, BitVec.getElem_extractLsb']
  split <;> simp [BitVec.getLsbD_eq_getElem, show ¬ i < 8 → 8 + (i - 8) = i by omega, *]

/-- The bytes of a divisor built from two bytes (R87). -/
theorem bytes_of_half (hi lo : Byte) : (hi ++ lo).extractLsb' 0 8 = lo ∧ (hi ++ lo).extractLsb' 8 8 = hi := by
  constructor
  · apply BitVec.eq_of_getLsbD_eq
    intro i h
    simp only [BitVec.getLsbD_extractLsb', BitVec.getLsbD_append]
    simp [h]
  · apply BitVec.eq_of_getLsbD_eq
    intro i h
    simp only [BitVec.getLsbD_extractLsb', BitVec.getLsbD_append]
    simp [h]

/-- The top byte of a word that passes a row's test of R71 is the row's opcode. -/
theorem top_of_masked {w m c : Word} (h : w &&& m = c) (hm : m.extractLsb' 24 8 = 0xFF#8) :
    w.extractLsb' 24 8 = c.extractLsb' 24 8 := by
  have := congrArg (BitVec.extractLsb' 24 8) h
  rw [BitVec.extractLsb'_and, hm] at this
  rw [← this]
  apply BitVec.eq_of_getLsbD_eq
  intro i hi
  have : (0xFF#8).getLsbD i = true := by revert i; decide
  simp only [BitVec.getLsbD_and, this, Bool.and_true]

/-- A word is an `n`-bit operand under a constant iff masking the operand away leaves the constant. -/
theorem eq_append_iff {n k : Nat} (w : BitVec (k + n)) (c : BitVec k) (v : BitVec n) :
    w = c ++ v ↔ w.extractLsb' n k = c ∧ v = w.extractLsb' 0 n := by
  constructor
  · rintro rfl
    constructor
    · apply BitVec.eq_of_getLsbD_eq
      intro i h
      simp only [BitVec.getLsbD_extractLsb', BitVec.getLsbD_append]
      simp [h]
    · apply BitVec.eq_of_getLsbD_eq
      intro i h
      simp only [BitVec.getLsbD_extractLsb', BitVec.getLsbD_append]
      simp [h]
  · rintro ⟨rfl, rfl⟩
    apply BitVec.eq_of_getLsbD_eq
    intro i h
    simp only [BitVec.getLsbD_append, BitVec.getLsbD_extractLsb']
    by_cases hi : i < n
    · simp [hi]
    · simp [hi, show i - n < k by omega, show n + (i - n) = i by omega]

/-- Two rows of R71 with different opcodes are never both matched. -/
theorem rows_disjoint {w m c m' c' : Word} (h : w &&& m = c) (hm : m.extractLsb' 24 8 = 0xFF#8)
    (hm' : m'.extractLsb' 24 8 = 0xFF#8) (hc : c.extractLsb' 24 8 ≠ c'.extractLsb' 24 8) : w &&& m' ≠ c' :=
  fun h' => hc ((top_of_masked h hm).symm.trans (top_of_masked h' hm'))

theorem decodeHost_sendByte {w : Word} (h : w &&& 0xFFFFFF00#32 = 0x03000000#32) :
    decodeHost w = .operation (.sendByte (hostByte w)) := by
  have n1 : w ≠ 0x01000000#32 := by rintro rfl; revert h; decide
  have n2 : w ≠ 0x02000000#32 := by rintro rfl; revert h; decide
  simp only [decodeHost, if_neg n1, if_neg n2, if_pos h]

theorem decodeHost_readByte {w : Word} (h : w &&& 0xFFFFFFFE#32 = 0x04000000#32) :
    decodeHost w = .operation (.readByte (w.getLsbD 0)) := by
  have n1 : w ≠ 0x01000000#32 := by rintro rfl; revert h; decide
  have n2 : w ≠ 0x02000000#32 := by rintro rfl; revert h; decide
  have n3 : w &&& 0xFFFFFF00#32 ≠ 0x03000000#32 := rows_disjoint h (by decide) (by decide) (by decide)
  simp only [decodeHost, if_neg n1, if_neg n2, if_neg n3, if_pos h]

theorem decodeHost_setClk {w : Word} (h : w &&& 0xFFFF0000#32 = 0x05000000#32) :
    decodeHost w = .operation (.setClk (w.extractLsb' 0 16)) := by
  have n1 : w ≠ 0x01000000#32 := by rintro rfl; revert h; decide
  have n2 : w ≠ 0x02000000#32 := by rintro rfl; revert h; decide
  have n3 : w &&& 0xFFFFFF00#32 ≠ 0x03000000#32 := rows_disjoint h (by decide) (by decide) (by decide)
  have n4 : w &&& 0xFFFFFFFE#32 ≠ 0x04000000#32 := rows_disjoint h (by decide) (by decide) (by decide)
  simp only [decodeHost, if_neg n1, if_neg n2, if_neg n3, if_neg n4, if_pos h]

theorem decodeHost_setAddr {w : Word} (h : w &&& 0xFFFFFE80#32 = 0x06000000#32) :
    decodeHost w = .operation (.setAddr (w.extractLsb' 0 7) (w.getLsbD 8)) := by
  have n1 : w ≠ 0x01000000#32 := by rintro rfl; revert h; decide
  have n2 : w ≠ 0x02000000#32 := by rintro rfl; revert h; decide
  have n3 : w &&& 0xFFFFFF00#32 ≠ 0x03000000#32 := rows_disjoint h (by decide) (by decide) (by decide)
  have n4 : w &&& 0xFFFFFFFE#32 ≠ 0x04000000#32 := rows_disjoint h (by decide) (by decide) (by decide)
  have n5 : w &&& 0xFFFF0000#32 ≠ 0x05000000#32 := rows_disjoint h (by decide) (by decide) (by decide)
  simp only [decodeHost, if_neg n1, if_neg n2, if_neg n3, if_neg n4, if_neg n5, if_pos h]

theorem masked_sendByte (v : Byte) : (0x03#8 ++ 0#16 ++ v : Word) &&& 0xFFFFFF00#32 = 0x03000000#32 := by
  revert v; decide

theorem masked_setClk (d : Half) : (0x05#8 ++ 0#8 ++ d : Word) &&& 0xFFFF0000#32 = 0x05000000#32 := by
  apply BitVec.eq_of_getLsbD_eq
  intro i hi
  simp only [BitVec.getLsbD_and, BitVec.getLsbD_append]
  by_cases h : i < 16
  · have : (0xFFFF0000#32).getLsbD i = false ∧ (0x05000000#32).getLsbD i = false := by
      revert i; decide
    simp [this]
  · simp only [h, if_false, Bool.false_eq_true, decide_false]
    revert i; decide

@[simp] theorem encodeCommands_nil (o : Opcodes) : encodeCommands o [] = [] := rfl

@[simp] theorem encodeCommands_cons (o : Opcodes) (i : Instr) (l : List Instr) :
    encodeCommands o (i :: l) = encodeCommand o i ++ encodeCommands o l := rfl

@[simp] theorem encodeCommands_append (o : Opcodes) (l m : List Instr) :
    encodeCommands o (l ++ m) = encodeCommands o l ++ encodeCommands o m := by
  simp [encodeCommands]

end Sys2Proof
end

