-- ==== Sys2Proof/Laws/PerInstr.lean ====
section
/-! SUPPORT. The per-instruction family `Encoding`: decoding the encoding of an instruction gives it back. -/

namespace Sys2Proof.Laws.Encoding

/-- Decoding what the encoder writes for `i` gives `i` and leaves the bytes after it (R71, R81 to R88). -/
def Statement (i : Instr) : Prop :=
  ∀ o : Opcodes, o.Distinct →
    (∀ w, encodeHost i = some w → decodeHost w = .operation i) ∧
    (i.isHost = false → ∀ rest, decodeCommand o (encodeCommand o i ++ rest) = .command i rest)

theorem start : Statement .start := by
  intro o _
  refine ⟨fun w h => ?_, fun h => by cases h⟩
  cases h; decide

theorem stop : Statement .stop := by
  intro o _
  refine ⟨fun w h => ?_, fun h => by cases h⟩
  cases h; decide

theorem sendByte (v : Byte) : Statement (.sendByte v) := by
  intro o _
  refine ⟨fun w h => ?_, fun h => by cases h⟩
  cases h; revert v; decide

theorem readByte (l : Bool) : Statement (.readByte l) := by
  intro o _
  refine ⟨fun w h => ?_, fun h => by cases h⟩
  cases h; cases l <;> decide

theorem setClk (d : Half) : Statement (.setClk d) := by
  intro o _
  refine ⟨fun w h => ?_, fun h => by cases h⟩
  cases h
  rw [decodeHost_setClk (masked_setClk d)]
  simp only [HostDecoded.operation.injEq, Instr.setClk.injEq]
  exact ((eq_append_iff _ _ d).mp rfl).2.symm

theorem setAddr (a : BitVec 7) (r : Bool) : Statement (.setAddr a r) := by
  intro o _
  refine ⟨fun w h => ?_, fun h => by cases h⟩
  cases h; revert a; cases r <;> decide

theorem pin (dir val : Byte) : Statement (.pin dir val) :=
  fun o _ => ⟨nofun, fun _ rest => by simp [encodeCommand, decodePin]⟩

theorem clkOut8 (v : Byte) : Statement (.clkOut8 v) :=
  fun o h => ⟨nofun, fun _ rest => by
    simp [encodeCommand, decodeCommand_clkOut h, decodeClkOut]⟩

theorem clkIn1 : Statement .clkIn1 :=
  fun o h => ⟨nofun, fun _ rest => by
    simp [encodeCommand, decodeCommand_clkInBits h, decodeClkIn]⟩

theorem clkIn8 : Statement .clkIn8 :=
  fun o h => ⟨nofun, fun _ rest => by
    simp [encodeCommand, decodeCommand_clkInBits h, decodeClkIn]⟩

theorem flush : Statement .flush :=
  fun o h => ⟨nofun, fun _ rest => by simp [encodeCommand, decodeCommand_flush h]⟩

theorem div5Off : Statement .div5Off :=
  fun o h => ⟨nofun, fun _ rest => by simp [encodeCommand, decodeCommand_div5Off h]⟩

theorem adaptOff : Statement .adaptOff :=
  fun o h => ⟨nofun, fun _ rest => by simp [encodeCommand, decodeCommand_adaptOff h]⟩

theorem ph3On : Statement .ph3On :=
  fun o h => ⟨nofun, fun _ rest => by simp [encodeCommand, decodeCommand_ph3On h]⟩

theorem setDiv (d : Half) : Statement (.setDiv d) :=
  fun o h => ⟨nofun, fun _ rest => by
    simp [encodeCommand, decodeCommand_setDiv h, decodeSetDiv, half_of_bytes d]⟩

end Sys2Proof.Laws.Encoding
end

