-- ==== Sys2Proof/Certificates/Slice0/Obligations.lean ====
section
/-! DEFINITION. The statements for the provers, each about every state and every parameter of R6 unless it says
otherwise. No statement rests on a value of State.reset that the spec leaves open (log 2, 3, 4). -/

open Sys2Proof Sys2Proof.Machine

/-! ## Vocabulary -/

/-- The bytes of PAT(d) (R81, R121). -/
def patBytes (p : Params) (d : BitVec 2) : List Byte := [p.opcodes.setLow, p.auxVal ++ 0#2, p.auxDir ++ d]

/-- RESULT after a fatal write (R227): ERR 2, FATALF 1, BUSF the old BUS. -/
def fatalResult (b : BusState) : Word := 0x01200000#32 ||| (b.code.setWidth 32 <<< 25)

/-- The seven bytes SENDBYTE emits before its read (R170). -/
def sendBytes (p : Params) (v : Byte) : List Byte :=
  [p.opcodes.clkOut, 0x00, 0x00, v, p.opcodes.clkInBits, 0x00, p.opcodes.flush]

/-- The seven bytes READBYTE emits before its read (R172). -/
def readBytes (p : Params) : List Byte :=
  patBytes p 0b01#2 ++ [p.opcodes.clkInBits, 0x07, p.opcodes.flush, p.opcodes.flush]

/-! ## Encoding -/

/-- V-ENC and V-CMD words, written out from R71 and R81 to R87, decode to what they stand for. -/
def Obligations.SpecWordsDecode : Prop :=
  decodeHost 0x01000000#32 = .operation .start ∧
  decodeHost 0x02000000#32 = .operation .stop ∧
  decodeHost 0x030000A0#32 = .operation (.sendByte 0xA0) ∧
  decodeHost 0x04000001#32 = .operation (.readByte true) ∧
  decodeHost 0x0500012B#32 = .operation (.setClk 0x012B) ∧
  decodeHost 0x0600017F#32 = .operation (.setAddr 0x7F true) ∧
  decodeCommand Opcodes.standard [0x80, 0x00, 0x03] = .command (.pin 0x03 0x00) [] ∧
  decodeCommand Opcodes.standard [0x11, 0x00, 0x00, 0x80] = .command (.clkOut8 0x80) [] ∧
  decodeCommand Opcodes.standard [0x22, 0x07, 0x87] = .command .clkIn8 [0x87] ∧
  decodeCommand Opcodes.standard [0x86, 0x2B, 0x01] = .command (.setDiv 0x012B) []

/-- R71, row by row: a word spells a row's operation iff `W & mask = match`, with the operands at the row's bits; and no
other operation. -/
def Obligations.HostWordDecodesByMatchAndMask : Prop :=
  ∀ w : Word,
    (decodeHost w = .operation .start ↔ w &&& 0xFFFFFFFF#32 = 0x01000000#32) ∧
    (decodeHost w = .operation .stop ↔ w &&& 0xFFFFFFFF#32 = 0x02000000#32) ∧
    (∀ v, decodeHost w = .operation (.sendByte v) ↔ w &&& 0xFFFFFF00#32 = 0x03000000#32 ∧ v = w.extractLsb' 0 8) ∧
    (∀ l, decodeHost w = .operation (.readByte l) ↔ w &&& 0xFFFFFFFE#32 = 0x04000000#32 ∧ l = w.getLsbD 0) ∧
    (∀ d, decodeHost w = .operation (.setClk d) ↔ w &&& 0xFFFF0000#32 = 0x05000000#32 ∧ d = w.extractLsb' 0 16) ∧
    (∀ a r, decodeHost w = .operation (.setAddr a r) ↔
      w &&& 0xFFFFFE80#32 = 0x06000000#32 ∧ a = w.extractLsb' 0 7 ∧ r = w.getLsbD 8) ∧
    (∀ i, decodeHost w = .operation i → i.isHost = true)

/-- Decoding the encoding of a host operation gives it back, at every value of its operands, and a word that decodes to
an operation is that operation's encoding. -/
def Obligations.HostDecodeInvertsEncode : Prop :=
  ∀ (w : Word) (i : Instr), decodeHost w = .operation i ↔ encodeHost i = some w

/-- With pairwise distinct opcodes, Stage P decodes a command from the front of the queue iff the queue begins with that
command's bytes (R81 to R88). -/
def Obligations.CommandDecodeInvertsEncode : Prop :=
  ∀ o : Opcodes, o.Distinct → ∀ (bytes : List Byte) (i : Instr) (rest : List Byte),
    decodeCommand o bytes = .command i rest ↔ i.isHost = false ∧ bytes = encodeCommand o i ++ rest

/-- Decode and encode agree for every instruction (R71, R80 to R88). -/
def Obligations.DecodeInvertsEncode : Prop :=
  ∀ o : Opcodes, o.Distinct → ∀ i : Instr, decode o (encode o i) = some i

/-- A command cut anywhere before its end is incomplete (R88). -/
def Obligations.CutCommandIsIncomplete : Prop :=
  ∀ o : Opcodes, o.Distinct → ∀ (i : Instr) (n : Nat), i.isHost = false → n < (encodeCommand o i).length →
    decodeCommand o ((encodeCommand o i).take n) = .incomplete

/-- The reserved commands: any other first byte, a shift-out length other than 0x0000, a shift-in length other than 0
and 7; and nothing else (R88, R89). -/
def Obligations.ReservedCommandsAreExactly : Prop :=
  ∀ o : Opcodes, o.Distinct → ∀ bytes : List Byte,
    (∃ why, decodeCommand o bytes = .reserved why) ↔
      (∃ b rest, bytes = b :: rest ∧ b ∉ o.all) ∨
      (∃ l0 l1 v rest, bytes = o.clkOut :: l0 :: l1 :: v :: rest ∧ ¬ (l0 = 0 ∧ l1 = 0)) ∨
      (∃ n rest, bytes = o.clkInBits :: n :: rest ∧ n ≠ 0 ∧ n ≠ 7)

/-! ## Steps -/

/-- On the host's turn, a word that decodes runs exactly exec of its operation, the word being taken (the schedule is
the model's, log 5). -/
def Obligations.StepRunsHostOperation : Prop :=
  ∀ (s : State) (w : Word) (ws : List Word) (i : Instr),
    s.drawTurn = .host → s.env.words = w :: ws → decodeHost w = .operation i →
    step s = exec i { s with env := { s.env with turns := s.env.turns.advance, words := ws } }

/-- On Stage P's turn, a command at the front of CMDQ is removed and executed (R129; the schedule is the
model's, log 5). -/
def Obligations.StepRunsCommand : Prop :=
  ∀ (s : State) (i : Instr) (rest : List Byte),
    s.drawTurn = .engine → decodeCommand s.params.opcodes s.cmdq = .command i rest →
    step s = exec i { s with cmdq := rest, env := { s.env with turns := s.env.turns.advance } }

/-- An instruction placed where the next step fetches is what the next step runs (the placing is the model's, log 16). -/
def Obligations.PlacedInstructionRunsNext : Prop :=
  ∀ (s : State) (i : Instr), s.params.opcodes.Distinct →
    step (placeEncoding (encode s.params.opcodes i) s) =
      exec i { s with env := { s.env with turns := { s.env.turns with taken := s.env.turns.taken + 1 } } }

/-- A host word that matches no row of R71 is refused (R78). -/
def Obligations.ReservedHostWordIsRefused : Prop :=
  ∀ (s : State) (w : Word) (ws : List Word), s.drawTurn = .host → s.env.words = w :: ws →
    w ≠ 0x01000000#32 → w ≠ 0x02000000#32 → w &&& 0xFFFFFF00#32 ≠ 0x03000000#32 →
    w &&& 0xFFFFFFFE#32 ≠ 0x04000000#32 → w &&& 0xFFFF0000#32 ≠ 0x05000000#32 →
    w &&& 0xFFFFFE80#32 ≠ 0x06000000#32 →
    ∃ why, step s = .refused (.reservedHostWord why)

/-- Stage P refuses a reserved command, and has no step while the command at the front of CMDQ is not complete: the
machine goes on, nothing but the turn used up (R88, R89; that the turn passes is the model's, log 7). -/
def Obligations.EngineRefusesReservedAndWaitsForBytes : Prop :=
  ∀ s : State, s.drawTurn = .engine →
    (∀ why, decodeCommand s.params.opcodes s.cmdq = .reserved why → step s = .refused (.reservedCommand why)) ∧
    (decodeCommand s.params.opcodes s.cmdq = .incomplete → step s = .next s.takeTurn)

/-! ## Reset -/

/-- The values R35 gives for reset, in State.reset; all lines are released and both bus lines read high (R252). -/
def Obligations.ResetStateIsAsTheSpecSays : Prop :=
  State.reset.bus = .idle ∧ State.reset.clkcfg = false ∧ State.reset.fatal = false ∧ State.reset.result = 0 ∧
  State.reset.pindir = 0 ∧ State.reset.pinval = 0 ∧ State.reset.div = State.reset.params.divReset ∧
  State.reset.cmdq = [] ∧ State.reset.rspq = [] ∧ State.reset.rspa = [] ∧
  State.reset.levels = { sda := true, scl := true } ∧ State.reset.params.Wf

/-- The reset event, whatever the block was doing (R250, R35): between steps, inside a host operation or inside a command,
every register and queue takes its reset value in one step, and the parameters stay. The target's own drive of SDA is not
the block's and stays as the event finds it (log 18); what was written to CMD_OUT and the levels the lines had taken before
the event stay in the histories (log 10). Between steps DIV5, ADAPT, PH3 and RXSH take ANY value, each value under some draw
of the environment. Inside a command the event follows the command's first `k` actions, which are those that make up its
meaning; inside START and SENDBYTE it can follow the Emit (log 26). -/
def Obligations.ResetEventSetsEverything : Prop :=
  ∀ (s : State) (point : ResetPoint), s.drawTurn = .rst point →
    ∃ t, step s = .next t ∧
      t.bus = .idle ∧ t.clkcfg = false ∧ t.fatal = false ∧ t.result = 0 ∧ t.pindir = 0 ∧ t.pinval = 0 ∧
      t.div = s.params.divReset ∧ t.cmdq = [] ∧ t.rspq = [] ∧ t.rspa = [] ∧
      t.levels = { sda := !t.tlow, scl := true } ∧ t.params = s.params ∧ s.wave <+: t.wave ∧ s.cmdOut <+: t.cmdOut ∧
      (point = .between → t.tlow = s.tlow ∧ t.cmdOut = s.cmdOut ∧ t.env.words = s.env.words ∧
        ∀ (b c d : Bool) (x : Byte), ∃ draws u,
          step { s with env := { s.env with draws := draws } } = .next u ∧
          u.div5 = b ∧ u.adapt = c ∧ u.ph3 = d ∧ u.rxsh = x) ∧
      (∀ (k : Nat) (i : Instr) (rest : List Byte) (m : State), point = .inEngine k →
        decodeCommand s.params.opcodes s.cmdq = .command i rest →
        let s₀ : State := { s with cmdq := rest, env := { s.env with turns := s.env.turns.advance } }
        exec i s₀ = .next m → k ≤ (commandActs i).length →
          m = runActs (commandActs i) s₀ ∧ t = rst (runActs ((commandActs i).take k) s₀)) ∧
      (point = .inHost 1 → s.fatal = false → s.drawWrite = .ok →
        (∀ ws, s.env.words = 0x01000000#32 :: ws →
          t.cmdOut = s.cmdOut ++ (List.replicate s.params.repeatCount (patBytes s.params 0b10#2)).flatten ++
            (List.replicate s.params.repeatCount (patBytes s.params 0b11#2)).flatten ++ patBytes s.params 0b11#2) ∧
        (∀ v ws, s.env.words = (0x03#8 ++ 0#16 ++ v) :: ws → s.clkcfg = true → sendBus s.bus = true →
          t.cmdOut = s.cmdOut ++ sendBytes s.params v))

/-! ## Invariants -/

/-- Every step keeps RESULT a mirror of FATAL and BUS, with its unassigned bits 0 (R25, R221). -/
def Obligations.StepKeepsResultMirrors : Prop :=
  ∀ s t : State, ResultMirrors s → step s = .next t → ResultMirrors t

/-- Every step keeps CMDQ the end of CMD_OUT: Stage S appends to both, Stage P removes from the front (R32, R51). -/
def Obligations.StepKeepsQueueTail : Prop :=
  ∀ s t : State, QueueIsTail s → step s = .next t → QueueIsTail t

/-- Every step keeps the line history ending in the present levels and changing one line at a time (R124, R130). -/
def Obligations.StepKeepsWaveCurrent : Prop :=
  ∀ s t : State, WaveCurrent s → step s = .next t → WaveCurrent t

/-- Every step keeps the open-drain rule and Stage P's readiness for all that is queued (R34, R152 (g)). -/
def Obligations.StepKeepsEngineSafe : Prop :=
  ∀ s t : State, EngineSafe s → step s = .next t → EngineSafe t

/-- All four invariants hold at reset. -/
def Obligations.ResetMeetsInvariants : Prop :=
  ResultMirrors State.reset ∧ QueueIsTail State.reset ∧ WaveCurrent State.reset ∧ EngineSafe State.reset

/-- Under Stage S, Stage P never meets a command it refuses: a step that stops is a refusal of the host's own request
(R89, R152 (g), U26, U27). -/
def Obligations.EngineNeverRefuses : Prop :=
  ∀ (s : State) (r : Refusal), EngineSafe s → step s = .refused r → r.ofHost = true

/-- FATAL is sticky: only the reset event clears it, and while it is 1 every host operation but SETADDR is refused
(R24). -/
def Obligations.FatalIsSticky : Prop :=
  (∀ s t : State, s.fatal = true → (∀ p, s.drawTurn ≠ .rst p) → step s = .next t → t.fatal = true) ∧
  (∀ (s : State) (i : Instr), s.fatal = true → i.isHost = true → (∀ a r, i ≠ .setAddr a r) →
    exec i s = .refused .sessionFatal)

/-- CLKCFG is set by SETCLK only and cleared by reset only (R23). -/
def Obligations.ClkcfgOnlySetBySetClk : Prop :=
  ∀ s t : State, (∀ p, s.drawTurn ≠ .rst p) → step s = .next t → t.clkcfg ≠ s.clkcfg →
    t.clkcfg = true ∧ s.drawTurn = .host ∧ ∃ w ws d, s.env.words = w :: ws ∧ decodeHost w = .operation (.setClk d)

/-- The parameters of R6 never change. -/
def Obligations.StepKeepsParameters : Prop :=
  ∀ s t : State, step s = .next t → t.params = s.params

/-- Stage P executes a command without touching Stage S: BUS, CLKCFG, FATAL, RESULT, what was written to CMD_OUT, and the
host's and the link's inputs (R2, R60). -/
def Obligations.CommandsLeaveStageSAlone : Prop :=
  ∀ (s t : State) (i : Instr), i.isHost = false → exec i s = .next t →
    t.bus = s.bus ∧ t.clkcfg = s.clkcfg ∧ t.fatal = s.fatal ∧ t.result = s.result ∧ t.cmdq = s.cmdq ∧
    t.cmdOut = s.cmdOut ∧ t.params = s.params ∧ t.env.words = s.env.words ∧ t.env.turns = s.env.turns ∧
    t.env.writes = s.env.writes ∧ t.env.reads = s.env.reads ∧ t.env.paces = s.env.paces

/-! ## Admission and the BUS machine -/

/-- The transition table of R36, every cell: what BUS is after an operation that completes, whatever its recoverable
error or its Ack; that a fatal error keeps BUS; and every refusal the table and its text give. -/
def Obligations.BusTransitionTable : Prop :=
  ∀ (s t : State),
    (s.fatal = false →
      (∀ i, i.isHost = true → exec i s = .next t → t.fatal = true → t.bus = s.bus) ∧
      (exec .start s = .next t → t.fatal = false → t.bus = .started) ∧
      (exec .stop s = .next t → t.fatal = false → t.bus = .idle) ∧
      (∀ v, exec (.sendByte v) s = .next t → t.fatal = false →
        (s.bus = .started ∧ t.bus = .addressPhase) ∨
        ((s.bus = .addressPhase ∨ s.bus = .dataPhase) ∧ t.bus = .dataPhase)) ∧
      (∀ v, s.bus = .idle ∨ s.bus = .stopped → ∃ r, exec (.sendByte v) s = .refused r) ∧
      (∀ l, exec (.readByte l) s = .next t → t.fatal = false →
        (s.bus = .addressPhase ∨ s.bus = .dataPhase) ∧ t.bus = .dataPhase) ∧
      (∀ l, s.bus = .idle ∨ s.bus = .started ∨ s.bus = .stopped → ∃ r, exec (.readByte l) s = .refused r) ∧
      (∀ d, exec (.setClk d) s = .next t → s.bus = .idle ∧ t.bus = .idle) ∧
      (∀ d, s.bus ≠ .idle → exec (.setClk d) s = .refused (.notAdmitted s.bus)) ∧
      (∃ x y, exec .start s = .next x ∧ exec .stop s = .next y) ∧
      (s.bus = .idle → ∀ d, ∃ x, exec (.setClk d) s = .next x) ∧
      (s.clkcfg = false → ∀ v l, exec (.sendByte v) s = .refused .clockNotConfigured ∧
        exec (.readByte l) s = .refused .clockNotConfigured)) ∧
    (∀ a r, exec (.setAddr a r) s = .next t → t.bus = s.bus) ∧ (∀ a r, ∃ x, exec (.setAddr a r) s = .next x) ∧
    (s.fatal = true → ∀ i, i.isHost = true → (∀ a r, i ≠ .setAddr a r) → exec i s = .refused .sessionFatal)

/-- Exactly when a host operation is refused (R36, R233): START, STOP and SETCLK in every state, SETADDR never; SENDBYTE
and READBYTE always where R233 says so, and, when Stage P is safe, only there. In every other case it goes on. -/
def Obligations.RefusedHostOperationsAreExactly : Prop :=
  ∀ s : State,
    (s.fatal = true → exec .start s = .refused .sessionFatal ∧ exec .stop s = .refused .sessionFatal) ∧
    (s.fatal = false → (∃ t, exec .start s = .next t) ∧ ∃ t, exec .stop s = .next t) ∧
    (∀ d, s.fatal = true ∨ s.bus ≠ .idle → ∃ r, exec (.setClk d) s = .refused r ∧ r.ofHost = true) ∧
    (∀ d, s.fatal = false → s.bus = .idle → ∃ t, exec (.setClk d) s = .next t) ∧
    (∀ a r, ∃ t, exec (.setAddr a r) s = .next t) ∧
    (∀ v, s.fatal = true ∨ s.clkcfg = false ∨ s.bus = .idle ∨ s.bus = .stopped →
      ∃ r, exec (.sendByte v) s = .refused r ∧ r.ofHost = true) ∧
    (∀ l, s.fatal = true ∨ s.clkcfg = false ∨ s.bus = .idle ∨ s.bus = .started ∨ s.bus = .stopped →
      ∃ r, exec (.readByte l) s = .refused r ∧ r.ofHost = true) ∧
    (EngineSafe s →
      (∀ v, ¬ (s.fatal = true ∨ s.clkcfg = false ∨ s.bus = .idle ∨ s.bus = .stopped) →
        ∃ t, exec (.sendByte v) s = .next t) ∧
      (∀ l, ¬ (s.fatal = true ∨ s.clkcfg = false ∨ s.bus = .idle ∨ s.bus = .started ∨ s.bus = .stopped) →
        ∃ t, exec (.readByte l) s = .next t))

/-! ## The link -/

/-- A failed write leaves a proper part of the bytes from the front, and every such part can be left (R55). -/
def Obligations.FailedWriteQueuesAnyProperPart : Prop :=
  ∀ (bytes : List Byte), bytes ≠ [] →
    (∀ k, ∃ rest, rest ≠ [] ∧ bytes = cutWrite bytes k ++ rest) ∧
    (∀ part rest, rest ≠ [] → bytes = part ++ rest → ∃ k, cutWrite bytes k = part)

/-- A read returns `IoError` and removes nothing, or at most `n` bytes off the front of RSPA, which it removes; every
such number of bytes can be returned (R56). -/
def Obligations.LinkReadTakesFromTheFront : Prop :=
  ∀ (s : State) (n : Nat),
    (s.drawRead = .ioError → (linkRead n s).1 = none ∧ (linkRead n s).2.rspa = s.rspa) ∧
    (∀ k, s.drawRead = .bytes k → ∃ got, (linkRead n s).1 = some got ∧ got.length ≤ n ∧
      s.rspa = got ++ (linkRead n s).2.rspa) ∧
    (∀ k, k ≤ n → k ≤ s.rspa.length → s.drawRead = .bytes k → (linkRead n s).1 = some (s.rspa.take k))

/-! ## START, STOP, SETCLK, SETADDR -/

/-- START (R150), in every BUS state and without a clock configuration: its bytes, its whole next state, its fatal error
and its word; refused after a fatal error. -/
def Obligations.StartEmitsAndMovesToStarted : Prop :=
  (∀ s : State, s.fatal = true → exec .start s = .refused .sessionFatal) ∧
  ∀ s : State, s.fatal = false →
    let p := s.params
    let bytes := (List.replicate p.repeatCount (patBytes p 0b10#2)).flatten ++
      (List.replicate p.repeatCount (patBytes p 0b11#2)).flatten ++ patBytes p 0b11#2
    bytes.length = 3 * (2 * p.repeatCount + 1) ∧
    (s.drawWrite = .ok → exec .start s = .next { s.takeWrite with
      cmdq := s.cmdq ++ bytes, cmdOut := s.cmdOut ++ bytes, bus := .started, result := 0x02000000#32 }) ∧
    (∀ k, s.drawWrite = .fail k → exec .start s = .next { s.takeWrite with
      cmdq := s.cmdq ++ cutWrite bytes k, cmdOut := s.cmdOut ++ cutWrite bytes k, fatal := true,
      result := fatalResult s.bus }) ∧
    decodeHost 0x01000000#32 = .operation .start

/-- STOP (R151), in every BUS state and without a clock configuration: its bytes, its whole next state, its fatal error
and its word; refused after a fatal error. -/
def Obligations.StopEmitsAndReturnsToIdle : Prop :=
  (∀ s : State, s.fatal = true → exec .stop s = .refused .sessionFatal) ∧
  ∀ s : State, s.fatal = false →
    let p := s.params
    let bytes := (List.replicate p.repeatCount (patBytes p 0b11#2)).flatten ++
      (List.replicate p.repeatCount (patBytes p 0b00#2)).flatten ++ patBytes p 0b00#2
    bytes.length = 3 * (2 * p.repeatCount + 1) ∧
    (s.drawWrite = .ok → exec .stop s = .next { s.takeWrite with
      cmdq := s.cmdq ++ bytes, cmdOut := s.cmdOut ++ bytes, bus := .idle, result := 0x00000000#32 }) ∧
    (∀ k, s.drawWrite = .fail k → exec .stop s = .next { s.takeWrite with
      cmdq := s.cmdq ++ cutWrite bytes k, cmdOut := s.cmdOut ++ cutWrite bytes k, fatal := true,
      result := fatalResult s.bus }) ∧
    decodeHost 0x02000000#32 = .operation .stop

/-- SETCLK (R102): its six bytes, its whole next state, its fatal error and its word; refused after a fatal error and
outside Idle. -/
def Obligations.SetClkEmitsClockConfiguration : Prop :=
  (∀ (s : State) (d : Half), s.fatal = true → exec (.setClk d) s = .refused .sessionFatal) ∧
  (∀ (s : State) (d : Half), s.fatal = false → s.bus ≠ .idle → exec (.setClk d) s = .refused (.notAdmitted s.bus)) ∧
  (∀ d : Half, decodeHost (0x05#8 ++ 0x00#8 ++ d) = .operation (.setClk d)) ∧
  ∀ (s : State) (d : Half), s.fatal = false → s.bus = .idle →
    let o := s.params.opcodes
    let bytes := [o.div5Off, o.adaptOff, o.ph3On, o.setDiv, d.extractLsb' 0 8, d.extractLsb' 8 8]
    (s.drawWrite = .ok → exec (.setClk d) s = .next { s.takeWrite with
      cmdq := s.cmdq ++ bytes, cmdOut := s.cmdOut ++ bytes, clkcfg := true, result := 0x00000000#32 }) ∧
    (∀ k, s.drawWrite = .fail k → exec (.setClk d) s = .next { s.takeWrite with
      cmdq := s.cmdq ++ cutWrite bytes k, cmdOut := s.cmdOut ++ cutWrite bytes k, fatal := true,
      result := 0x01200000#32 })

/-- SETADDR (R174): admitted in every state; RESULT gets the address byte with NACK and ERR 0, and copies of FATAL and
BUS; nothing else changes; and its word. -/
def Obligations.SetAddrGivesTheAddressByte : Prop :=
  ∀ (s : State) (a : BitVec 7) (r : Bool),
    ∃ res, exec (.setAddr a r) s = .next { s with result := res } ∧
      (resultData res).toNat = 2 * a.toNat + r.toNat ∧ resultRaw1 res = 0 ∧ resultRspn res = 0 ∧
      resultNack res = false ∧ resultErr res = 0 ∧ resultFatalf res = s.fatal ∧ resultBusf res = s.bus.code ∧
      resultBit19 res = false ∧ resultTop res = 0 ∧
      decodeHost (0x06#8 ++ 0#15 ++ BitVec.ofBool r ++ 0#1 ++ a) = .operation (.setAddr a r)

/-- The fields of RESULT lie where R25 and R79 put them. -/
def Obligations.ResultFieldsLieWhereTheSpecPutsThem : Prop :=
  ∀ (f : ResultFields) (fatalf : Bool) (busf : BitVec 3),
    resultData (packResult f fatalf busf) = f.data ∧ resultRaw1 (packResult f fatalf busf) = f.raw1 ∧
    resultRspn (packResult f fatalf busf) = f.rspn ∧ resultNack (packResult f fatalf busf) = f.nack ∧
    resultBit19 (packResult f fatalf busf) = false ∧ resultErr (packResult f fatalf busf) = f.err ∧
    resultFatalf (packResult f fatalf busf) = fatalf ∧ resultBusf (packResult f fatalf busf) = busf ∧
    resultTop (packResult f fatalf busf) = 0

/-! ## SENDBYTE and READBYTE -/

/-- SENDBYTE whose writes succeed (R170, R171): the state at its first Emit, its reads from there, and its whole next
state. A byte gives the flag its bit 0; no byte gives the Nack-equivalent failure, not fatal. -/
def Obligations.SendByteDecodesItsResponse : Prop :=
  ∀ (s u : State) (v : Byte) (got : Option Byte),
    s.fatal = false → s.clkcfg = true → sendBus s.bus = true → s.drawWrite = .ok →
    readAttempts s.params.rdAttempts { s.takeWrite with
      cmdq := s.cmdq ++ sendBytes s.params v, cmdOut := s.cmdOut ++ sendBytes s.params v } = .next (got, u) →
    u.drawWrite = .ok →
    ∃ res, exec (.sendByte v) s = .next { u.takeWrite with
        cmdq := u.cmdq ++ patBytes s.params 0b01#2, cmdOut := u.cmdOut ++ patBytes s.params 0b01#2,
        bus := if s.bus = .started then .addressPhase else .dataPhase, result := res } ∧
      resultRaw1 res = 0 ∧ resultFatalf res = false ∧ resultBit19 res = false ∧ resultTop res = 0 ∧
      resultBusf res = (if s.bus = .started then 2 else 3) ∧
      (∀ b, got = some b → resultData res = b ∧ resultRspn res = 1 ∧ resultNack res = b.getLsbD 0 ∧ resultErr res = 0) ∧
      (got = none → resultData res = 0 ∧ resultRspn res = 0 ∧ resultNack res = true ∧ resultErr res = 2)

/-- SENDBYTE's reads (R170): Stage P may run before each (log 6); a byte or an `IoError` ends them; an empty read is followed by
another while attempts remain. -/
def Obligations.SendByteRetriesEmptyReadsOnly : Prop :=
  ∀ s : State,
    readAttempts 0 s = .next (none, s) ∧
    (∀ (n : Nat) (t : State), engineRuns s = .next t →
      (t.drawRead = .ioError → readAttempts (n + 1) s = .next (none, t.takeRead)) ∧
      (∀ k b rest, t.drawRead = .bytes (k + 1) → t.rspa = b :: rest →
        readAttempts (n + 1) s = .next (some b, { t.takeRead with rspa := rest })) ∧
      (∀ k, t.drawRead = .bytes k → (k = 0 ∨ t.rspa = []) → readAttempts (n + 1) s = readAttempts n t.takeRead))

/-- SENDBYTE's and READBYTE's fatal errors (R170, R172, R227, R228): a first write that fails makes no read; a second
write that fails replaces the result; BUS is kept in both. -/
def Obligations.ByteOperationsFailFatallyOnWrites : Prop :=
  ∀ (s : State), s.fatal = false → s.clkcfg = true →
    (∀ v k, sendBus s.bus = true → s.drawWrite = .fail k → exec (.sendByte v) s = .next { s.takeWrite with
      cmdq := s.cmdq ++ cutWrite (sendBytes s.params v) k, cmdOut := s.cmdOut ++ cutWrite (sendBytes s.params v) k,
      fatal := true, result := fatalResult s.bus }) ∧
    (∀ l k, readBus s.bus = true → s.drawWrite = .fail k → exec (.readByte l) s = .next { s.takeWrite with
      cmdq := s.cmdq ++ cutWrite (readBytes s.params) k, cmdOut := s.cmdOut ++ cutWrite (readBytes s.params) k,
      fatal := true, result := fatalResult s.bus }) ∧
    (∀ v k u got, sendBus s.bus = true → s.drawWrite = .ok →
      readAttempts s.params.rdAttempts { s.takeWrite with
        cmdq := s.cmdq ++ sendBytes s.params v, cmdOut := s.cmdOut ++ sendBytes s.params v } = .next (got, u) →
      u.drawWrite = .fail k → exec (.sendByte v) s = .next { u.takeWrite with
        cmdq := u.cmdq ++ cutWrite (patBytes s.params 0b01#2) k,
        cmdOut := u.cmdOut ++ cutWrite (patBytes s.params 0b01#2) k, fatal := true, result := fatalResult s.bus }) ∧
    (∀ l k u m d st rest, readBus s.bus = true → s.drawWrite = .ok →
      engineRuns { s.takeWrite with
        cmdq := s.cmdq ++ readBytes s.params, cmdOut := s.cmdOut ++ readBytes s.params } = .next u →
      u.drawRead = .bytes (m + 2) → u.rspa = d :: st :: rest → st &&& s.params.statusErrMask = 0 →
      u.drawWrite = .fail k → exec (.readByte l) s = .next { u.takeRead.takeWrite with
        rspa := rest, cmdq := u.cmdq ++ cutWrite (patBytes s.params (if l then 0b01#2 else 0b11#2)) k,
        cmdOut := u.cmdOut ++ cutWrite (patBytes s.params (if l then 0b01#2 else 0b11#2)) k,
        fatal := true, result := fatalResult s.bus })

/-- READBYTE whose first write succeeds (R172): by what the read gives, the kind of the error and the fields of RESULT,
or the byte and the master's ACK or NACK level; its whole next state in each case. -/
def Obligations.ReadByteReturnsByteOrError : Prop :=
  ∀ (s u : State) (last : Bool),
    s.fatal = false → s.clkcfg = true → readBus s.bus = true → s.drawWrite = .ok →
    engineRuns { s.takeWrite with
      cmdq := s.cmdq ++ readBytes s.params, cmdOut := s.cmdOut ++ readBytes s.params } = .next u →
    (u.drawRead = .ioError →
      exec (.readByte last) s = .next { u.takeRead with bus := .dataPhase, result := 0x06200000#32 }) ∧
    (∀ k, u.drawRead = .bytes k → (k = 0 ∨ u.rspa = []) →
      exec (.readByte last) s = .next { u.takeRead with bus := .dataPhase, result := 0x06500000#32 }) ∧
    (∀ k d rest, u.drawRead = .bytes k → u.rspa = d :: rest → (k = 1 ∨ 1 ≤ k ∧ rest = []) →
      exec (.readByte last) s = .next { u.takeRead with
        rspa := rest, bus := .dataPhase, result := 0x06510000#32 ||| d.setWidth 32 }) ∧
    (∀ k d st rest, u.drawRead = .bytes (k + 2) → u.rspa = d :: st :: rest →
      (st &&& s.params.statusErrMask ≠ 0 →
        exec (.readByte last) s = .next { u.takeRead with
          rspa := rest, bus := .dataPhase,
          result := 0x06520000#32 ||| (st.setWidth 32 <<< 8) ||| d.setWidth 32 }) ∧
      (st &&& s.params.statusErrMask = 0 →
        (u.drawWrite = .ok → exec (.readByte last) s = .next { u.takeRead.takeWrite with
          rspa := rest, bus := .dataPhase,
          cmdq := u.cmdq ++ patBytes s.params (if last then 0b01#2 else 0b11#2),
          cmdOut := u.cmdOut ++ patBytes s.params (if last then 0b01#2 else 0b11#2),
          result := 0x06020000#32 ||| (st.setWidth 32 <<< 8) ||| d.setWidth 32 }) ∧
        (∀ j, u.drawWrite = .fail j → exec (.readByte last) s = .next { u.takeRead.takeWrite with
          rspa := rest, fatal := true,
          cmdq := u.cmdq ++ cutWrite (patBytes s.params (if last then 0b01#2 else 0b11#2)) j,
          cmdOut := u.cmdOut ++ cutWrite (patBytes s.params (if last then 0b01#2 else 0b11#2)) j,
          result := fatalResult s.bus })))

/-- With Stage P safe, an admitted SENDBYTE or READBYTE always completes, whatever the environment does: it is never
refused and never stops (R9, R152 (g)). -/
def Obligations.AdmittedByteOperationsComplete : Prop :=
  ∀ s : State, EngineSafe s → s.fatal = false → s.clkcfg = true →
    (∀ v, sendBus s.bus = true → ∃ t, exec (.sendByte v) s = .next t ∧
      (t.fatal = true ∨ t.bus = if s.bus = .started then .addressPhase else .dataPhase)) ∧
    (∀ l, readBus s.bus = true → ∃ t, exec (.readByte l) s = .next t ∧ (t.fatal = true ∨ t.bus = .dataPhase))

/-- What the byte operations emit when neither write fails, whatever the reads give (R170, R172, §8): exactly one
CLKOUT8, carrying the literal value. -/
def Obligations.ByteOperationsEmitLiteralBytes : Prop :=
  ∀ s t : State,
    (∀ v, exec (.sendByte v) s = .next t → t.fatal = false →
      t.cmdOut = s.cmdOut ++ sendBytes s.params v ++ patBytes s.params 0b01#2) ∧
    (∀ l, exec (.readByte l) s = .next t → t.fatal = false → resultErr t.result = 0 →
      t.cmdOut = s.cmdOut ++ readBytes s.params ++ patBytes s.params (if l then 0b01#2 else 0b11#2)) ∧
    (∀ l, exec (.readByte l) s = .next t → t.fatal = false → resultErr t.result ≠ 0 →
      t.cmdOut = s.cmdOut ++ readBytes s.params)

/-- The frame of SENDBYTE and READBYTE: CLKCFG, the parameters, the host's words and the schedule are kept and CMD_OUT
only grows; and while Stage P does not run, they change nothing of Stage P but CMDQ's end and RSPA's front (R2, R60). -/
def Obligations.ByteOperationsFrame : Prop :=
  ∀ (s t : State) (i : Instr), (∃ v, i = .sendByte v) ∨ (∃ l, i = .readByte l) → exec i s = .next t →
    (t.clkcfg = s.clkcfg ∧ t.params = s.params ∧ t.env.words = s.env.words ∧ t.env.turns = s.env.turns ∧
      s.cmdOut <+: t.cmdOut) ∧
    ((∀ k, k ≤ s.params.rdAttempts → s.env.paces.nth Config.freePace k = 0) →
      t.pindir = s.pindir ∧ t.pinval = s.pinval ∧ t.div = s.div ∧ t.div5 = s.div5 ∧ t.adapt = s.adapt ∧
      t.ph3 = s.ph3 ∧ t.rxsh = s.rxsh ∧ t.rspq = s.rspq ∧ t.tlow = s.tlow ∧ t.wave = s.wave ∧
      s.cmdq <+: t.cmdq ∧ t.rspa <:+ s.rspa)

/-! ## The clock family -/

/-- DIV5OFF, ADAPTOFF, PH3ON and SETDIV (R103 to R106): each completes in every state, changing its one register and
nothing else; and the bytes Stage P reads as each. -/
def Obligations.ClockCommandsSetTheirRegister : Prop :=
  ∀ s : State,
    (exec .div5Off s = .next { s with div5 := false } ∧ exec .adaptOff s = .next { s with adapt := false } ∧
      exec .ph3On s = .next { s with ph3 := true } ∧
      ∀ lo hi : Byte, exec (.setDiv (hi ++ lo)) s = .next { s with div := hi ++ lo }) ∧
    (s.params.opcodes.Distinct → ∀ rest : List Byte,
      decodeCommand s.params.opcodes (s.params.opcodes.div5Off :: rest) = .command .div5Off rest ∧
      decodeCommand s.params.opcodes (s.params.opcodes.adaptOff :: rest) = .command .adaptOff rest ∧
      decodeCommand s.params.opcodes (s.params.opcodes.ph3On :: rest) = .command .ph3On rest ∧
      ∀ lo hi : Byte,
        decodeCommand s.params.opcodes (s.params.opcodes.setDiv :: lo :: hi :: rest) = .command (.setDiv (hi ++ lo)) rest)

/-- `DivisorOf` (R100): refused (`none`, log 22) for `Fs = 0`, otherwise `(Fm div (2 * Fs) - 1) mod 65536` in the integers. -/
def Obligations.DivisorOfIsFloorLessOneTruncated : Prop :=
  (∀ fm, divisorOf fm 0 = none) ∧
  (∀ fm fs : Nat, 0 < fs → ∃ d, divisorOf fm fs = some d ∧
    (d.toNat : Int) = (((fm / (2 * fs) : Nat) : Int) - 1) % 65536)

/-- `FsclOf` and the round-trip bound of R101, and the fixed point of conflict C5, in the supported range. -/
def Obligations.DivisorRoundTripIsBounded : Prop :=
  ∀ (fm fs : Nat) (d : Half), 0 < fs → 1 ≤ fm / (2 * fs) → fm / (2 * fs) ≤ 65536 → divisorOf fm fs = some d →
    fsclOf fm d = fm / (2 * (d.toNat + 1)) ∧ fs ≤ fsclOf fm d ∧ (2 * fs ∣ fm → fsclOf fm d = fs) ∧
    (2 * fs < fm → (fsclOf fm d - fs) * (fm - 2 * fs) < 2 * fs * fs) ∧
    divisorOf fm (fsclOf fm d) = some d

/-! ## The pin engine -/

/-- PIN (R122): both masks are written whole; only the drivers, the lines they and the target's reaction move, and the
environment's inputs for them change; a PIN that would drive SDA or SCL high is refused; and its bytes (that the
target reacts exactly once after it is the model's, log 8). -/
def Obligations.PinSetsTheDrivers : Prop :=
  ∀ (s : State) (dir val : Byte),
    ((dir.getLsbD 1 && val.getLsbD 1) = false → (dir.getLsbD 0 && val.getLsbD 0) = false →
      ∃ t, exec (.pin dir val) s = .next t ∧
        t = { s with pindir := dir, pinval := val, tlow := t.tlow, wave := t.wave,
                     env := { s.env with reacts := s.env.reacts.advance, orders := t.env.orders } } ∧
        t.tlow = s.env.reacts.nth Config.freeReact 0) ∧
    ((dir.getLsbD 1 && val.getLsbD 1) = true ∨ (dir.getLsbD 0 && val.getLsbD 0) = true →
      exec (.pin dir val) s = .refused .busLineDrivenHigh) ∧
    (∀ rest, decodeCommand s.params.opcodes (s.params.opcodes.setLow :: val :: dir :: rest) =
      .command (.pin dir val) rest)

/-- The level of every line of the group (R33, R123): SDA is 0 if the master or the target drives it low, else 1; SCL is 0
if the master drives it low, else 1; a line 7 to 2 has its driven value, or what the environment gives. -/
def Obligations.LineLevelsAreWiredAnd : Prop :=
  ∀ (s : State) (aux : Byte),
    (s.line aux 1 = false ↔ (s.pindir.getLsbD 1 = true ∧ s.pinval.getLsbD 1 = false) ∨ s.tlow = true) ∧
    (s.line aux 0 = false ↔ s.pindir.getLsbD 0 = true ∧ s.pinval.getLsbD 0 = false) ∧
    (∀ i, 2 ≤ i → s.line aux i = if s.pindir.getLsbD i then s.pinval.getLsbD i else aux.getLsbD i)

/-- The same PIN `n + 1` times leaves what it leaves once, and moves the lines the first time only, when the target does
not change its drive (R131; the target reacts once after each PIN, log 8). -/
def Obligations.PinRepetitionIsIdempotent : Prop :=
  ∀ (s : State) (dir val : Byte) (n : Nat), openDrainMasks dir val = true →
    (∀ k, k < n + 1 → s.env.reacts.nth Config.freeReact k = s.tlow) →
    ∃ t u, exec (.pin dir val) s = .next t ∧ execTimes (n + 1) (.pin dir val) s = .next u ∧
      u.pindir = t.pindir ∧ u.pinval = t.pinval ∧ u.levels = t.levels ∧ u.wave = t.wave

/-- A PIN that changes both bus lines (R130): the four changes, each in both orders, and the START or STOP condition
that each makes or does not make; and an accepted PIN moves the lines so, in the order drawn, when the target's one
reaction after it (log 8) keeps its drive. -/
def Obligations.BothLinesChangeInEitherOrder : Prop :=
  let ev (order : LineOrder) (a b : Levels) : List BusEvent := eventsFrom a (settingChanges order a b)
  let st (e : List BusEvent) : List BusEvent := e.filter fun x => x = .startCondition ∨ x = .stopCondition
  st (ev .sdaFirst ⟨true, true⟩ ⟨false, false⟩) = [.startCondition] ∧ st (ev .sclFirst ⟨true, true⟩ ⟨false, false⟩) = [] ∧
  st (ev .sclFirst ⟨false, false⟩ ⟨true, true⟩) = [.stopCondition] ∧ st (ev .sdaFirst ⟨false, false⟩ ⟨true, true⟩) = [] ∧
  st (ev .sclFirst ⟨true, false⟩ ⟨false, true⟩) = [.startCondition] ∧ st (ev .sdaFirst ⟨true, false⟩ ⟨false, true⟩) = [] ∧
  st (ev .sdaFirst ⟨false, true⟩ ⟨true, false⟩) = [.stopCondition] ∧ st (ev .sclFirst ⟨false, true⟩ ⟨true, false⟩) = [] ∧
  (∀ (s : State) (dir val : Byte), openDrainMasks dir val = true → s.env.reacts.nth Config.freeReact 0 = s.tlow →
    ∃ t, exec (.pin dir val) s = .next t ∧ t.wave = s.wave ++ settingChanges s.drawOrder s.levels t.levels)

/-- CLKOUT8 (R125): completes when SCL is driven low and the modes are set; SCL ends low, SDA as bit 0 left it; the upper
direction bits, PINVAL and everything outside the lines are untouched; with other modes it is refused (log 11). It holds
whatever PINVAL is, though R125 speaks of `PINVAL[1:0]` = 0b00 only (log 27). -/
def Obligations.ClkOut8LeavesTheLastBitOnSda : Prop :=
  ∀ (s : State) (v : Byte),
    (s.pindir.getLsbD 0 = true → s.shiftReady.modesSet = true →
      ∃ t, exec (.clkOut8 v) s = .next t ∧
      t = { s with pindir := t.pindir, tlow := t.tlow, wave := t.wave,
                   env := { s.env with reacts := t.env.reacts, orders := t.env.orders } } ∧
      t.pindir.getLsbD 0 = true ∧ t.pindir.getLsbD 1 = !v.getLsbD 0 ∧
      (∀ i, 2 ≤ i → t.pindir.getLsbD i = s.pindir.getLsbD i)) ∧
    (s.pindir.getLsbD 0 = true → s.shiftReady.modesSet = false →
      exec (.clkOut8 v) s = .refused .clockModesNotSet)

/-- CLKOUT8 on the wire (R125, R57): with open-drain drivers and no other driver of SDA, the lines carry exactly eight
bit transfers, the bits of `v` most significant first, and SDA changes only while SCL is low (the target's one reaction
after each change is the model's, log 8). -/
def Obligations.ClkOut8ShiftsOutMsbFirst : Prop :=
  ∀ (s : State) (v : Byte), s.pindir.getLsbD 0 = true → s.shiftReady.modesSet = true → OpenDrain s →
    TargetQuiet 24 s →
    ∃ t, exec (.clkOut8 v) s = .next t ∧ s.wave <+: t.wave ∧
      eventsFrom s.levels (t.changesSince s) = (bitsMsbFirst v).map BusEvent.bitTransfer ∧
      dataStableFrom s.levels (t.changesSince s) = true

/-- CLKIN1 (R126, R90): SDA is released and SCL ends low; the sample is what the target leaves on SDA when SCL rises; it
enters RXSH at bit 0 and is bit 0 of the one response byte, whose other bits are any value.
With open-drain drivers and a target that holds SDA while SCL is high, the lines carry exactly that one bit transfer (the
numbering of the target's reactions is the model's, log 8). -/
def Obligations.ClkIn1SamplesSda : Prop :=
  ∀ (s : State), s.pindir.getLsbD 0 = true → s.shiftReady.modesSet = true →
    let sample : Bool := !s.env.reacts.nth Config.freeReact 0
    ∃ t b, exec .clkIn1 s = .next t ∧
      t = { s with pindir := t.pindir, rxsh := t.rxsh, rspq := s.rspq ++ [b], tlow := t.tlow, wave := t.wave,
                   env := { s.env with reacts := t.env.reacts, orders := t.env.orders,
                                       draws := s.env.draws.advance } } ∧
      t.pindir.getLsbD 0 = true ∧ t.pindir.getLsbD 1 = false ∧
      (∀ i, 2 ≤ i → t.pindir.getLsbD i = s.pindir.getLsbD i) ∧
      t.rxsh = s.rxsh <<< 1 ||| (BitVec.ofBool sample).setWidth 8 ∧ b.getLsbD 0 = sample ∧
      (∀ i, 1 ≤ i → i < 8 → b.getLsbD i = (s.env.draws.nth Config.freeByte 0).getLsbD i) ∧
      (OpenDrain s → s.env.reacts.nth Config.freeReact 1 = s.env.reacts.nth Config.freeReact 0 →
        s.wave <+: t.wave ∧ eventsFrom s.levels (t.changesSince s) = [.bitTransfer sample] ∧
        dataStableFrom s.levels (t.changesSince s) = true)

/-- CLKIN8 (R127): eight samples, the first ending in bit 7; two response bytes, the data byte and a status byte that is
any value; SDA is released and SCL ends low. With open-drain drivers and a target that holds SDA while SCL is high, the
lines carry exactly eight bit transfers, the bits of the data byte, most significant first (the numbering of the target's reactions is the model's, log 8). -/
def Obligations.ClkIn8ShiftsInMsbFirst : Prop :=
  ∀ (s : State), s.pindir.getLsbD 0 = true → s.shiftReady.modesSet = true →
    ∃ t, exec .clkIn8 s = .next t ∧
      t = { s with pindir := t.pindir, rxsh := t.rxsh,
                   rspq := s.rspq ++ [t.rxsh, s.env.draws.nth Config.freeByte 0], tlow := t.tlow, wave := t.wave,
                   env := { s.env with reacts := t.env.reacts, orders := t.env.orders,
                                       draws := s.env.draws.advance } } ∧
      t.pindir.getLsbD 0 = true ∧ t.pindir.getLsbD 1 = false ∧
      (∀ i, 2 ≤ i → t.pindir.getLsbD i = s.pindir.getLsbD i) ∧
      (∀ k, k < 8 → t.rxsh.getLsbD (7 - k) = !s.env.reacts.nth Config.freeReact (2 * k)) ∧
      (OpenDrain s →
        (∀ k, k < 8 → s.env.reacts.nth Config.freeReact (2 * k + 1) = s.env.reacts.nth Config.freeReact (2 * k)) →
        s.wave <+: t.wave ∧ eventsFrom s.levels (t.changesSince s) = (bitsMsbFirst t.rxsh).map BusEvent.bitTransfer ∧
        dataStableFrom s.levels (t.changesSince s) = true)

/-- FLUSH (R128): completes in every state; the pending responses become readable, in order; nothing else changes; a
second one changes nothing; and its byte. -/
def Obligations.FlushReleasesResponses : Prop :=
  ∀ s : State,
    exec .flush s = .next { s with rspa := s.rspa ++ s.rspq, rspq := [] } ∧
    (s.rspq = [] → exec .flush s = .next s) ∧
    (s.params.opcodes.Distinct → ∀ rest,
      decodeCommand s.params.opcodes (s.params.opcodes.flush :: rest) = .command .flush rest)

/-- Only FLUSH makes a response readable: every other command leaves RSPA alone (R61, R128). -/
def Obligations.OnlyFlushMakesResponsesReadable : Prop :=
  ∀ (s t : State) (i : Instr), i.isHost = false → i ≠ .flush → exec i s = .next t →
    t.rspa = s.rspa ∧ s.rspq <+: t.rspq

/-- When the shift commands are refused: SCL not driven low (R125 to R127), or clock modes not set (U27, log 11). -/
def Obligations.ShiftCommandsRefusedWhenNotReady : Prop :=
  ∀ (s : State) (v : Byte),
    (s.pindir.getLsbD 0 = false →
      exec (.clkOut8 v) s = .refused .sclNotLow ∧ exec .clkIn1 s = .refused .sclNotLow ∧
      exec .clkIn8 s = .refused .sclNotLow) ∧
    (s.pindir.getLsbD 0 = true → s.ph3 = false ∨ s.div5 = true ∨ s.adapt = true →
      exec (.clkOut8 v) s = .refused .clockModesNotSet ∧ exec .clkIn1 s = .refused .clockModesNotSet ∧
      exec .clkIn8 s = .refused .clockModesNotSet)

/-! ## Both stages together -/

/-- START on the lines (R152 (a) to (d), R252): once Stage P has executed all that START emitted, both lines are driven low.
From the idle bus, and from there alone, the lines make one START condition in every order; from SDA high and SCL low only
when SCL rises first, else a bit transfer of 0; from both low a bit transfer of 0 and no START condition; from SDA low and
SCL high no event. The premise TargetQuiet says that the target does not drive SDA, now or at any of its reactions, which
are one after each PIN (log 8). -/
def Obligations.StartFromIdleBusMakesStartCondition : Prop :=
  ∀ (s : State), s.params.Wf → s.fatal = false → s.cmdq = [] → s.drawWrite = .ok →
    TargetQuiet (2 * s.params.repeatCount + 1) s →
    ∃ t u, exec .start s = .next t ∧ runEngine (2 * s.params.repeatCount + 1) t = .next u ∧ u.cmdq = [] ∧
      u.pindir.getLsbD 1 = true ∧ u.pindir.getLsbD 0 = true ∧ u.levels = { sda := false, scl := false } ∧
      s.wave <+: u.wave ∧
      eventsFrom s.levels (u.changesSince s) =
        (match s.levels.sda, s.levels.scl, s.drawOrder with
        | true, true, _ => [.startCondition]
        | true, false, .sclFirst => [.bitTransfer true, .startCondition]
        | true, false, .sdaFirst => [.bitTransfer false]
        | false, false, _ => [.bitTransfer false]
        | false, true, _ => [])

/-- STOP on the lines (R151, R152 (a), (e), (f), R266): once Stage P has executed all that STOP emitted, both lines are
released. On the idle bus the first PIN makes a START condition iff SDA falls first; from every state the release makes a
STOP condition iff SCL rises first, else a bit transfer of 1. Both orders are the environment's. The premise TargetQuiet
says that the target does not drive SDA, now or at any of its reactions, which are one after each PIN (log 8). -/
def Obligations.StopConditionNeedsSclToRiseFirst : Prop :=
  ∀ (s : State), s.params.Wf → s.fatal = false → s.cmdq = [] → s.drawWrite = .ok →
    TargetQuiet (2 * s.params.repeatCount + 1) s →
    let idleBus : Bool := s.levels.sda && s.levels.scl
    let falls : LineOrder := s.drawOrder
    let rises : LineOrder := s.env.orders.nth Config.freeOrder (if idleBus then 1 else 0)
    ∃ t u, exec .stop s = .next t ∧ runEngine (2 * s.params.repeatCount + 1) t = .next u ∧ u.cmdq = [] ∧
      u.pindir.getLsbD 1 = false ∧ u.pindir.getLsbD 0 = false ∧ u.levels = { sda := true, scl := true } ∧
      s.wave <+: u.wave ∧
      eventsFrom s.levels (u.changesSince s) =
        (if idleBus ∧ falls = .sdaFirst then [.startCondition] else []) ++
        (match rises with
        | .sclFirst => [.bitTransfer false, .stopCondition]
        | .sdaFirst => [.bitTransfer true])

/-- SENDBYTE through both stages (R170, R125, R126, R128): from an idle Stage P with SCL low, when Stage P executes all
three commands before the read and the read gives a byte, the eight bits of `v` and then the target's answer cross the
bus, and the flag is Ack iff the target drives SDA low at the ninth rise of SCL (logs 6 and 8 say how the environment's
choices are numbered). -/
def Obligations.SendByteTransmitsAndSamplesAck : Prop :=
  ∀ (s : State) (v : Byte) (k m : Nat),
    s.params.Wf → s.fatal = false → s.clkcfg = true → sendBus s.bus = true → OpenDrain s → s.pindir.getLsbD 0 = true →
    s.shiftReady.modesSet = true → s.cmdq = [] → s.rspq = [] → s.rspa = [] →
    s.env.writes.nth Config.freeWrite 0 = .ok → s.env.writes.nth Config.freeWrite 1 = .ok →
    s.drawPace = k + 3 → s.drawRead = .bytes (m + 1) → TargetQuiet 23 s →
    s.env.reacts.nth Config.freeReact 25 = s.env.reacts.nth Config.freeReact 24 →
    ∃ t, exec (.sendByte v) s = .next t ∧
      resultErr t.result = 0 ∧ resultNack t.result = !s.env.reacts.nth Config.freeReact 24 ∧
      eventsFrom s.levels (t.changesSince s) =
        (bitsMsbFirst v).map BusEvent.bitTransfer ++ [.bitTransfer (!s.env.reacts.nth Config.freeReact 24)]

/-- READBYTE through both stages (R172, R127, R128): from an empty Stage P, when Stage P executes all four commands
before the read and the read gives both bytes, the data byte is what the target leaves on SDA at the eight rises of SCL,
first in bit 7; it is an error only if the status byte, which is any value, has a masked bit set (logs 6 and 8). -/
def Obligations.ReadByteReceivesTheTargetsByte : Prop :=
  ∀ (s : State) (last : Bool) (k m : Nat),
    s.params.Wf → s.fatal = false → s.clkcfg = true → readBus s.bus = true → s.shiftReady.modesSet = true →
    s.cmdq = [] → s.rspq = [] → s.rspa = [] →
    s.env.writes.nth Config.freeWrite 0 = .ok → s.env.writes.nth Config.freeWrite 1 = .ok →
    s.drawPace = k + 4 → s.drawRead = .bytes (m + 2) →
    let status : Byte := s.env.draws.nth Config.freeByte 0
    ∃ t, exec (.readByte last) s = .next t ∧ t.bus = .dataPhase ∧ t.fatal = false ∧
      (∀ j, j < 8 → (resultData t.result).getLsbD (7 - j) = !s.env.reacts.nth Config.freeReact (2 * j + 1)) ∧
      resultRaw1 t.result = status ∧ resultRspn t.result = 2 ∧ resultNack t.result = false ∧
      resultErr t.result = (if status &&& s.params.statusErrMask = 0 then 0 else 5) ∧
      t.cmdq = (if status &&& s.params.statusErrMask = 0
        then patBytes s.params (if last then 0b01#2 else 0b11#2) else [])

/-! ## Composites -/

/-- An address Nack ends a write (R200, §8): with the default policy, START, the address byte and STOP are all that is
emitted, whatever the payload, and the status is AddressNack. -/
def Obligations.AddressNackSendsNoPayload : Prop :=
  ∀ (a : BitVec 7) (payload : List Byte) (s t u v : State),
    s.params.abortOnAddrNack = true →
    exec .start s = .next t → t.fatal = false →
    exec (.sendByte (addressByte a false)) t = .next u → u.fatal = false → resultNack u.result = true →
    exec .stop u = .next v → v.fatal = false →
    writeTransaction a payload s =
      .next ({ status := some .addressNack, acks := [.nack], bytes := [], errs := [(.address, .addressNack)] }, v)

/-- A composite that is not stopped by a refusal and meets no fatal error ends with BUS Idle, unless it issued nothing
(R200, R201); `readTransaction` with count 0 issues nothing and returns no byte (conflict C7). What a composite issues
without a fatal error: a write one START, the address byte, then, unless its Nack aborts, every payload byte in order, a
Nack recorded and not aborting, and one STOP; a read, for each byte, one START, the address byte and, after an Ack, one
READBYTE, isLastByte on the last only, and one STOP at the end. -/
def Obligations.CompositesReturnToIdle : Prop :=
  ∀ (s t : State) (a : BitVec 7) (res : TransactionResult),
    (∀ payload, writeTransaction a payload s = .next (res, t) → t.fatal = false → t.bus = .idle) ∧
    (∀ n, readTransaction a (n + 1) s = .next (res, t) → t.fatal = false → t.bus = .idle) ∧
    (∀ payload, writeTransaction a payload s = .next (res, t) → t.fatal = true →
      res.status = some .adapterIoFailed) ∧
    (∀ n, readTransaction a (n + 1) s = .next (res, t) → t.fatal = true → res.status = some .adapterIoFailed) ∧
    readTransaction a 0 s = .next ({ status := none, acks := [], bytes := [], errs := [] }, s) ∧
    (∀ payload, (writeTransaction a payload s = .next (res, t) ∧ t.fatal = false) ↔
      ∃ u v, Issues .start s u ∧ Issues (.sendByte (addressByte a false)) u v ∧
        ((ackOf v = .nack ∧ s.params.abortOnAddrNack = true ∧ Issues .stop v t ∧
            res = { status := some .addressNack, acks := [.nack], bytes := [], errs := [(.address, .addressNack)] }) ∨
          (¬ (ackOf v = .nack ∧ s.params.abortOnAddrNack = true) ∧
            ∃ w acks, SendsInOrder payload v acks w ∧ Issues .stop w t ∧
              res = {
                status := if ackOf v = .nack then some .addressNack else none
                acks := ackOf v :: acks
                bytes := []
                errs := (if ackOf v = .nack then [(.address, .addressNack)] else []) ++ dataNacks 0 acks }))) ∧
    (∀ n, (readTransaction a (n + 1) s = .next (res, t) ∧ t.fatal = false) ↔
      ∃ w r, ReadsInOrder a (n + 1) 0 s r w ∧ Issues .stop w t ∧
        res = { r with status := r.errs.head?.map Prod.snd })
end

