-- ==== Sys2Proof/Laws/State.lean ====
section
/-! SUPPORT. One lemma per field per named update of State, each true by rfl: later proofs never unfold a record update. -/

namespace Sys2Proof.Machine

@[simp] theorem takeTurn_bus (s : State) : (s.takeTurn).bus = s.bus := rfl
@[simp] theorem takeTurn_clkcfg (s : State) : (s.takeTurn).clkcfg = s.clkcfg := rfl
@[simp] theorem takeTurn_fatal (s : State) : (s.takeTurn).fatal = s.fatal := rfl
@[simp] theorem takeTurn_result (s : State) : (s.takeTurn).result = s.result := rfl
@[simp] theorem takeTurn_pindir (s : State) : (s.takeTurn).pindir = s.pindir := rfl
@[simp] theorem takeTurn_pinval (s : State) : (s.takeTurn).pinval = s.pinval := rfl
@[simp] theorem takeTurn_div (s : State) : (s.takeTurn).div = s.div := rfl
@[simp] theorem takeTurn_div5 (s : State) : (s.takeTurn).div5 = s.div5 := rfl
@[simp] theorem takeTurn_adapt (s : State) : (s.takeTurn).adapt = s.adapt := rfl
@[simp] theorem takeTurn_ph3 (s : State) : (s.takeTurn).ph3 = s.ph3 := rfl
@[simp] theorem takeTurn_rxsh (s : State) : (s.takeTurn).rxsh = s.rxsh := rfl
@[simp] theorem takeTurn_cmdq (s : State) : (s.takeTurn).cmdq = s.cmdq := rfl
@[simp] theorem takeTurn_rspq (s : State) : (s.takeTurn).rspq = s.rspq := rfl
@[simp] theorem takeTurn_rspa (s : State) : (s.takeTurn).rspa = s.rspa := rfl
@[simp] theorem takeTurn_tlow (s : State) : (s.takeTurn).tlow = s.tlow := rfl
@[simp] theorem takeTurn_params (s : State) : (s.takeTurn).params = s.params := rfl
@[simp] theorem takeTurn_cmdOut (s : State) : (s.takeTurn).cmdOut = s.cmdOut := rfl
@[simp] theorem takeTurn_wave (s : State) : (s.takeTurn).wave = s.wave := rfl
@[simp] theorem takeTurn_env_words (s : State) : (s.takeTurn).env.words = s.env.words := rfl
@[simp] theorem takeTurn_env_turns (s : State) : (s.takeTurn).env.turns = s.env.turns.advance := rfl
@[simp] theorem takeTurn_env_writes (s : State) : (s.takeTurn).env.writes = s.env.writes := rfl
@[simp] theorem takeTurn_env_reads (s : State) : (s.takeTurn).env.reads = s.env.reads := rfl
@[simp] theorem takeTurn_env_paces (s : State) : (s.takeTurn).env.paces = s.env.paces := rfl
@[simp] theorem takeTurn_env_reacts (s : State) : (s.takeTurn).env.reacts = s.env.reacts := rfl
@[simp] theorem takeTurn_env_draws (s : State) : (s.takeTurn).env.draws = s.env.draws := rfl
@[simp] theorem takeTurn_env_orders (s : State) : (s.takeTurn).env.orders = s.env.orders := rfl

@[simp] theorem takeWrite_bus (s : State) : (s.takeWrite).bus = s.bus := rfl
@[simp] theorem takeWrite_clkcfg (s : State) : (s.takeWrite).clkcfg = s.clkcfg := rfl
@[simp] theorem takeWrite_fatal (s : State) : (s.takeWrite).fatal = s.fatal := rfl
@[simp] theorem takeWrite_result (s : State) : (s.takeWrite).result = s.result := rfl
@[simp] theorem takeWrite_pindir (s : State) : (s.takeWrite).pindir = s.pindir := rfl
@[simp] theorem takeWrite_pinval (s : State) : (s.takeWrite).pinval = s.pinval := rfl
@[simp] theorem takeWrite_div (s : State) : (s.takeWrite).div = s.div := rfl
@[simp] theorem takeWrite_div5 (s : State) : (s.takeWrite).div5 = s.div5 := rfl
@[simp] theorem takeWrite_adapt (s : State) : (s.takeWrite).adapt = s.adapt := rfl
@[simp] theorem takeWrite_ph3 (s : State) : (s.takeWrite).ph3 = s.ph3 := rfl
@[simp] theorem takeWrite_rxsh (s : State) : (s.takeWrite).rxsh = s.rxsh := rfl
@[simp] theorem takeWrite_cmdq (s : State) : (s.takeWrite).cmdq = s.cmdq := rfl
@[simp] theorem takeWrite_rspq (s : State) : (s.takeWrite).rspq = s.rspq := rfl
@[simp] theorem takeWrite_rspa (s : State) : (s.takeWrite).rspa = s.rspa := rfl
@[simp] theorem takeWrite_tlow (s : State) : (s.takeWrite).tlow = s.tlow := rfl
@[simp] theorem takeWrite_params (s : State) : (s.takeWrite).params = s.params := rfl
@[simp] theorem takeWrite_cmdOut (s : State) : (s.takeWrite).cmdOut = s.cmdOut := rfl
@[simp] theorem takeWrite_wave (s : State) : (s.takeWrite).wave = s.wave := rfl
@[simp] theorem takeWrite_env_words (s : State) : (s.takeWrite).env.words = s.env.words := rfl
@[simp] theorem takeWrite_env_turns (s : State) : (s.takeWrite).env.turns = s.env.turns := rfl
@[simp] theorem takeWrite_env_writes (s : State) : (s.takeWrite).env.writes = s.env.writes.advance := rfl
@[simp] theorem takeWrite_env_reads (s : State) : (s.takeWrite).env.reads = s.env.reads := rfl
@[simp] theorem takeWrite_env_paces (s : State) : (s.takeWrite).env.paces = s.env.paces := rfl
@[simp] theorem takeWrite_env_reacts (s : State) : (s.takeWrite).env.reacts = s.env.reacts := rfl
@[simp] theorem takeWrite_env_draws (s : State) : (s.takeWrite).env.draws = s.env.draws := rfl
@[simp] theorem takeWrite_env_orders (s : State) : (s.takeWrite).env.orders = s.env.orders := rfl

@[simp] theorem takeRead_bus (s : State) : (s.takeRead).bus = s.bus := rfl
@[simp] theorem takeRead_clkcfg (s : State) : (s.takeRead).clkcfg = s.clkcfg := rfl
@[simp] theorem takeRead_fatal (s : State) : (s.takeRead).fatal = s.fatal := rfl
@[simp] theorem takeRead_result (s : State) : (s.takeRead).result = s.result := rfl
@[simp] theorem takeRead_pindir (s : State) : (s.takeRead).pindir = s.pindir := rfl
@[simp] theorem takeRead_pinval (s : State) : (s.takeRead).pinval = s.pinval := rfl
@[simp] theorem takeRead_div (s : State) : (s.takeRead).div = s.div := rfl
@[simp] theorem takeRead_div5 (s : State) : (s.takeRead).div5 = s.div5 := rfl
@[simp] theorem takeRead_adapt (s : State) : (s.takeRead).adapt = s.adapt := rfl
@[simp] theorem takeRead_ph3 (s : State) : (s.takeRead).ph3 = s.ph3 := rfl
@[simp] theorem takeRead_rxsh (s : State) : (s.takeRead).rxsh = s.rxsh := rfl
@[simp] theorem takeRead_cmdq (s : State) : (s.takeRead).cmdq = s.cmdq := rfl
@[simp] theorem takeRead_rspq (s : State) : (s.takeRead).rspq = s.rspq := rfl
@[simp] theorem takeRead_rspa (s : State) : (s.takeRead).rspa = s.rspa := rfl
@[simp] theorem takeRead_tlow (s : State) : (s.takeRead).tlow = s.tlow := rfl
@[simp] theorem takeRead_params (s : State) : (s.takeRead).params = s.params := rfl
@[simp] theorem takeRead_cmdOut (s : State) : (s.takeRead).cmdOut = s.cmdOut := rfl
@[simp] theorem takeRead_wave (s : State) : (s.takeRead).wave = s.wave := rfl
@[simp] theorem takeRead_env_words (s : State) : (s.takeRead).env.words = s.env.words := rfl
@[simp] theorem takeRead_env_turns (s : State) : (s.takeRead).env.turns = s.env.turns := rfl
@[simp] theorem takeRead_env_writes (s : State) : (s.takeRead).env.writes = s.env.writes := rfl
@[simp] theorem takeRead_env_reads (s : State) : (s.takeRead).env.reads = s.env.reads.advance := rfl
@[simp] theorem takeRead_env_paces (s : State) : (s.takeRead).env.paces = s.env.paces := rfl
@[simp] theorem takeRead_env_reacts (s : State) : (s.takeRead).env.reacts = s.env.reacts := rfl
@[simp] theorem takeRead_env_draws (s : State) : (s.takeRead).env.draws = s.env.draws := rfl
@[simp] theorem takeRead_env_orders (s : State) : (s.takeRead).env.orders = s.env.orders := rfl

@[simp] theorem takePace_bus (s : State) : (s.takePace).bus = s.bus := rfl
@[simp] theorem takePace_clkcfg (s : State) : (s.takePace).clkcfg = s.clkcfg := rfl
@[simp] theorem takePace_fatal (s : State) : (s.takePace).fatal = s.fatal := rfl
@[simp] theorem takePace_result (s : State) : (s.takePace).result = s.result := rfl
@[simp] theorem takePace_pindir (s : State) : (s.takePace).pindir = s.pindir := rfl
@[simp] theorem takePace_pinval (s : State) : (s.takePace).pinval = s.pinval := rfl
@[simp] theorem takePace_div (s : State) : (s.takePace).div = s.div := rfl
@[simp] theorem takePace_div5 (s : State) : (s.takePace).div5 = s.div5 := rfl
@[simp] theorem takePace_adapt (s : State) : (s.takePace).adapt = s.adapt := rfl
@[simp] theorem takePace_ph3 (s : State) : (s.takePace).ph3 = s.ph3 := rfl
@[simp] theorem takePace_rxsh (s : State) : (s.takePace).rxsh = s.rxsh := rfl
@[simp] theorem takePace_cmdq (s : State) : (s.takePace).cmdq = s.cmdq := rfl
@[simp] theorem takePace_rspq (s : State) : (s.takePace).rspq = s.rspq := rfl
@[simp] theorem takePace_rspa (s : State) : (s.takePace).rspa = s.rspa := rfl
@[simp] theorem takePace_tlow (s : State) : (s.takePace).tlow = s.tlow := rfl
@[simp] theorem takePace_params (s : State) : (s.takePace).params = s.params := rfl
@[simp] theorem takePace_cmdOut (s : State) : (s.takePace).cmdOut = s.cmdOut := rfl
@[simp] theorem takePace_wave (s : State) : (s.takePace).wave = s.wave := rfl
@[simp] theorem takePace_env_words (s : State) : (s.takePace).env.words = s.env.words := rfl
@[simp] theorem takePace_env_turns (s : State) : (s.takePace).env.turns = s.env.turns := rfl
@[simp] theorem takePace_env_writes (s : State) : (s.takePace).env.writes = s.env.writes := rfl
@[simp] theorem takePace_env_reads (s : State) : (s.takePace).env.reads = s.env.reads := rfl
@[simp] theorem takePace_env_paces (s : State) : (s.takePace).env.paces = s.env.paces.advance := rfl
@[simp] theorem takePace_env_reacts (s : State) : (s.takePace).env.reacts = s.env.reacts := rfl
@[simp] theorem takePace_env_draws (s : State) : (s.takePace).env.draws = s.env.draws := rfl
@[simp] theorem takePace_env_orders (s : State) : (s.takePace).env.orders = s.env.orders := rfl

@[simp] theorem takeReact_bus (s : State) : (s.takeReact).bus = s.bus := rfl
@[simp] theorem takeReact_clkcfg (s : State) : (s.takeReact).clkcfg = s.clkcfg := rfl
@[simp] theorem takeReact_fatal (s : State) : (s.takeReact).fatal = s.fatal := rfl
@[simp] theorem takeReact_result (s : State) : (s.takeReact).result = s.result := rfl
@[simp] theorem takeReact_pindir (s : State) : (s.takeReact).pindir = s.pindir := rfl
@[simp] theorem takeReact_pinval (s : State) : (s.takeReact).pinval = s.pinval := rfl
@[simp] theorem takeReact_div (s : State) : (s.takeReact).div = s.div := rfl
@[simp] theorem takeReact_div5 (s : State) : (s.takeReact).div5 = s.div5 := rfl
@[simp] theorem takeReact_adapt (s : State) : (s.takeReact).adapt = s.adapt := rfl
@[simp] theorem takeReact_ph3 (s : State) : (s.takeReact).ph3 = s.ph3 := rfl
@[simp] theorem takeReact_rxsh (s : State) : (s.takeReact).rxsh = s.rxsh := rfl
@[simp] theorem takeReact_cmdq (s : State) : (s.takeReact).cmdq = s.cmdq := rfl
@[simp] theorem takeReact_rspq (s : State) : (s.takeReact).rspq = s.rspq := rfl
@[simp] theorem takeReact_rspa (s : State) : (s.takeReact).rspa = s.rspa := rfl
@[simp] theorem takeReact_tlow (s : State) : (s.takeReact).tlow = s.tlow := rfl
@[simp] theorem takeReact_params (s : State) : (s.takeReact).params = s.params := rfl
@[simp] theorem takeReact_cmdOut (s : State) : (s.takeReact).cmdOut = s.cmdOut := rfl
@[simp] theorem takeReact_wave (s : State) : (s.takeReact).wave = s.wave := rfl
@[simp] theorem takeReact_env_words (s : State) : (s.takeReact).env.words = s.env.words := rfl
@[simp] theorem takeReact_env_turns (s : State) : (s.takeReact).env.turns = s.env.turns := rfl
@[simp] theorem takeReact_env_writes (s : State) : (s.takeReact).env.writes = s.env.writes := rfl
@[simp] theorem takeReact_env_reads (s : State) : (s.takeReact).env.reads = s.env.reads := rfl
@[simp] theorem takeReact_env_paces (s : State) : (s.takeReact).env.paces = s.env.paces := rfl
@[simp] theorem takeReact_env_reacts (s : State) : (s.takeReact).env.reacts = s.env.reacts.advance := rfl
@[simp] theorem takeReact_env_draws (s : State) : (s.takeReact).env.draws = s.env.draws := rfl
@[simp] theorem takeReact_env_orders (s : State) : (s.takeReact).env.orders = s.env.orders := rfl

@[simp] theorem takeByte_bus (s : State) : (s.takeByte).bus = s.bus := rfl
@[simp] theorem takeByte_clkcfg (s : State) : (s.takeByte).clkcfg = s.clkcfg := rfl
@[simp] theorem takeByte_fatal (s : State) : (s.takeByte).fatal = s.fatal := rfl
@[simp] theorem takeByte_result (s : State) : (s.takeByte).result = s.result := rfl
@[simp] theorem takeByte_pindir (s : State) : (s.takeByte).pindir = s.pindir := rfl
@[simp] theorem takeByte_pinval (s : State) : (s.takeByte).pinval = s.pinval := rfl
@[simp] theorem takeByte_div (s : State) : (s.takeByte).div = s.div := rfl
@[simp] theorem takeByte_div5 (s : State) : (s.takeByte).div5 = s.div5 := rfl
@[simp] theorem takeByte_adapt (s : State) : (s.takeByte).adapt = s.adapt := rfl
@[simp] theorem takeByte_ph3 (s : State) : (s.takeByte).ph3 = s.ph3 := rfl
@[simp] theorem takeByte_rxsh (s : State) : (s.takeByte).rxsh = s.rxsh := rfl
@[simp] theorem takeByte_cmdq (s : State) : (s.takeByte).cmdq = s.cmdq := rfl
@[simp] theorem takeByte_rspq (s : State) : (s.takeByte).rspq = s.rspq := rfl
@[simp] theorem takeByte_rspa (s : State) : (s.takeByte).rspa = s.rspa := rfl
@[simp] theorem takeByte_tlow (s : State) : (s.takeByte).tlow = s.tlow := rfl
@[simp] theorem takeByte_params (s : State) : (s.takeByte).params = s.params := rfl
@[simp] theorem takeByte_cmdOut (s : State) : (s.takeByte).cmdOut = s.cmdOut := rfl
@[simp] theorem takeByte_wave (s : State) : (s.takeByte).wave = s.wave := rfl
@[simp] theorem takeByte_env_words (s : State) : (s.takeByte).env.words = s.env.words := rfl
@[simp] theorem takeByte_env_turns (s : State) : (s.takeByte).env.turns = s.env.turns := rfl
@[simp] theorem takeByte_env_writes (s : State) : (s.takeByte).env.writes = s.env.writes := rfl
@[simp] theorem takeByte_env_reads (s : State) : (s.takeByte).env.reads = s.env.reads := rfl
@[simp] theorem takeByte_env_paces (s : State) : (s.takeByte).env.paces = s.env.paces := rfl
@[simp] theorem takeByte_env_reacts (s : State) : (s.takeByte).env.reacts = s.env.reacts := rfl
@[simp] theorem takeByte_env_draws (s : State) : (s.takeByte).env.draws = s.env.draws.advance := rfl
@[simp] theorem takeByte_env_orders (s : State) : (s.takeByte).env.orders = s.env.orders := rfl

@[simp] theorem takeOrder_bus (s : State) : (s.takeOrder).bus = s.bus := rfl
@[simp] theorem takeOrder_clkcfg (s : State) : (s.takeOrder).clkcfg = s.clkcfg := rfl
@[simp] theorem takeOrder_fatal (s : State) : (s.takeOrder).fatal = s.fatal := rfl
@[simp] theorem takeOrder_result (s : State) : (s.takeOrder).result = s.result := rfl
@[simp] theorem takeOrder_pindir (s : State) : (s.takeOrder).pindir = s.pindir := rfl
@[simp] theorem takeOrder_pinval (s : State) : (s.takeOrder).pinval = s.pinval := rfl
@[simp] theorem takeOrder_div (s : State) : (s.takeOrder).div = s.div := rfl
@[simp] theorem takeOrder_div5 (s : State) : (s.takeOrder).div5 = s.div5 := rfl
@[simp] theorem takeOrder_adapt (s : State) : (s.takeOrder).adapt = s.adapt := rfl
@[simp] theorem takeOrder_ph3 (s : State) : (s.takeOrder).ph3 = s.ph3 := rfl
@[simp] theorem takeOrder_rxsh (s : State) : (s.takeOrder).rxsh = s.rxsh := rfl
@[simp] theorem takeOrder_cmdq (s : State) : (s.takeOrder).cmdq = s.cmdq := rfl
@[simp] theorem takeOrder_rspq (s : State) : (s.takeOrder).rspq = s.rspq := rfl
@[simp] theorem takeOrder_rspa (s : State) : (s.takeOrder).rspa = s.rspa := rfl
@[simp] theorem takeOrder_tlow (s : State) : (s.takeOrder).tlow = s.tlow := rfl
@[simp] theorem takeOrder_params (s : State) : (s.takeOrder).params = s.params := rfl
@[simp] theorem takeOrder_cmdOut (s : State) : (s.takeOrder).cmdOut = s.cmdOut := rfl
@[simp] theorem takeOrder_wave (s : State) : (s.takeOrder).wave = s.wave := rfl
@[simp] theorem takeOrder_env_words (s : State) : (s.takeOrder).env.words = s.env.words := rfl
@[simp] theorem takeOrder_env_turns (s : State) : (s.takeOrder).env.turns = s.env.turns := rfl
@[simp] theorem takeOrder_env_writes (s : State) : (s.takeOrder).env.writes = s.env.writes := rfl
@[simp] theorem takeOrder_env_reads (s : State) : (s.takeOrder).env.reads = s.env.reads := rfl
@[simp] theorem takeOrder_env_paces (s : State) : (s.takeOrder).env.paces = s.env.paces := rfl
@[simp] theorem takeOrder_env_reacts (s : State) : (s.takeOrder).env.reacts = s.env.reacts := rfl
@[simp] theorem takeOrder_env_draws (s : State) : (s.takeOrder).env.draws = s.env.draws := rfl
@[simp] theorem takeOrder_env_orders (s : State) : (s.takeOrder).env.orders = s.env.orders.advance := rfl

@[simp] theorem queue_bus (b : List Byte) (s : State) : (s.queue b).bus = s.bus := rfl
@[simp] theorem queue_clkcfg (b : List Byte) (s : State) : (s.queue b).clkcfg = s.clkcfg := rfl
@[simp] theorem queue_fatal (b : List Byte) (s : State) : (s.queue b).fatal = s.fatal := rfl
@[simp] theorem queue_result (b : List Byte) (s : State) : (s.queue b).result = s.result := rfl
@[simp] theorem queue_pindir (b : List Byte) (s : State) : (s.queue b).pindir = s.pindir := rfl
@[simp] theorem queue_pinval (b : List Byte) (s : State) : (s.queue b).pinval = s.pinval := rfl
@[simp] theorem queue_div (b : List Byte) (s : State) : (s.queue b).div = s.div := rfl
@[simp] theorem queue_div5 (b : List Byte) (s : State) : (s.queue b).div5 = s.div5 := rfl
@[simp] theorem queue_adapt (b : List Byte) (s : State) : (s.queue b).adapt = s.adapt := rfl
@[simp] theorem queue_ph3 (b : List Byte) (s : State) : (s.queue b).ph3 = s.ph3 := rfl
@[simp] theorem queue_rxsh (b : List Byte) (s : State) : (s.queue b).rxsh = s.rxsh := rfl
@[simp] theorem queue_cmdq (b : List Byte) (s : State) : (s.queue b).cmdq = s.cmdq ++ b := rfl
@[simp] theorem queue_rspq (b : List Byte) (s : State) : (s.queue b).rspq = s.rspq := rfl
@[simp] theorem queue_rspa (b : List Byte) (s : State) : (s.queue b).rspa = s.rspa := rfl
@[simp] theorem queue_tlow (b : List Byte) (s : State) : (s.queue b).tlow = s.tlow := rfl
@[simp] theorem queue_params (b : List Byte) (s : State) : (s.queue b).params = s.params := rfl
@[simp] theorem queue_cmdOut (b : List Byte) (s : State) : (s.queue b).cmdOut = s.cmdOut ++ b := rfl
@[simp] theorem queue_wave (b : List Byte) (s : State) : (s.queue b).wave = s.wave := rfl
@[simp] theorem queue_env (b : List Byte) (s : State) : (s.queue b).env = s.env := rfl

@[simp] theorem writeResult_bus (f : ResultFields) (s : State) : (writeResult f s).bus = s.bus := rfl
@[simp] theorem writeResult_clkcfg (f : ResultFields) (s : State) : (writeResult f s).clkcfg = s.clkcfg := rfl
@[simp] theorem writeResult_fatal (f : ResultFields) (s : State) : (writeResult f s).fatal = s.fatal := rfl
@[simp] theorem writeResult_result (f : ResultFields) (s : State) : (writeResult f s).result = packResult f s.fatal s.bus.code := rfl
@[simp] theorem writeResult_pindir (f : ResultFields) (s : State) : (writeResult f s).pindir = s.pindir := rfl
@[simp] theorem writeResult_pinval (f : ResultFields) (s : State) : (writeResult f s).pinval = s.pinval := rfl
@[simp] theorem writeResult_div (f : ResultFields) (s : State) : (writeResult f s).div = s.div := rfl
@[simp] theorem writeResult_div5 (f : ResultFields) (s : State) : (writeResult f s).div5 = s.div5 := rfl
@[simp] theorem writeResult_adapt (f : ResultFields) (s : State) : (writeResult f s).adapt = s.adapt := rfl
@[simp] theorem writeResult_ph3 (f : ResultFields) (s : State) : (writeResult f s).ph3 = s.ph3 := rfl
@[simp] theorem writeResult_rxsh (f : ResultFields) (s : State) : (writeResult f s).rxsh = s.rxsh := rfl
@[simp] theorem writeResult_cmdq (f : ResultFields) (s : State) : (writeResult f s).cmdq = s.cmdq := rfl
@[simp] theorem writeResult_rspq (f : ResultFields) (s : State) : (writeResult f s).rspq = s.rspq := rfl
@[simp] theorem writeResult_rspa (f : ResultFields) (s : State) : (writeResult f s).rspa = s.rspa := rfl
@[simp] theorem writeResult_tlow (f : ResultFields) (s : State) : (writeResult f s).tlow = s.tlow := rfl
@[simp] theorem writeResult_params (f : ResultFields) (s : State) : (writeResult f s).params = s.params := rfl
@[simp] theorem writeResult_cmdOut (f : ResultFields) (s : State) : (writeResult f s).cmdOut = s.cmdOut := rfl
@[simp] theorem writeResult_wave (f : ResultFields) (s : State) : (writeResult f s).wave = s.wave := rfl
@[simp] theorem writeResult_env (f : ResultFields) (s : State) : (writeResult f s).env = s.env := rfl

@[simp] theorem raiseError_bus (e : ErrorKind) (f : ResultFields) (s : State) : (raiseError e f s).bus = s.bus := rfl
@[simp] theorem raiseError_clkcfg (e : ErrorKind) (f : ResultFields) (s : State) : (raiseError e f s).clkcfg = s.clkcfg := rfl
@[simp] theorem raiseError_fatal (e : ErrorKind) (f : ResultFields) (s : State) : (raiseError e f s).fatal = s.fatal := rfl
@[simp] theorem raiseError_result (e : ErrorKind) (f : ResultFields) (s : State) : (raiseError e f s).result = packResult { f with err := e.code } s.fatal s.bus.code := rfl
@[simp] theorem raiseError_pindir (e : ErrorKind) (f : ResultFields) (s : State) : (raiseError e f s).pindir = s.pindir := rfl
@[simp] theorem raiseError_pinval (e : ErrorKind) (f : ResultFields) (s : State) : (raiseError e f s).pinval = s.pinval := rfl
@[simp] theorem raiseError_div (e : ErrorKind) (f : ResultFields) (s : State) : (raiseError e f s).div = s.div := rfl
@[simp] theorem raiseError_div5 (e : ErrorKind) (f : ResultFields) (s : State) : (raiseError e f s).div5 = s.div5 := rfl
@[simp] theorem raiseError_adapt (e : ErrorKind) (f : ResultFields) (s : State) : (raiseError e f s).adapt = s.adapt := rfl
@[simp] theorem raiseError_ph3 (e : ErrorKind) (f : ResultFields) (s : State) : (raiseError e f s).ph3 = s.ph3 := rfl
@[simp] theorem raiseError_rxsh (e : ErrorKind) (f : ResultFields) (s : State) : (raiseError e f s).rxsh = s.rxsh := rfl
@[simp] theorem raiseError_cmdq (e : ErrorKind) (f : ResultFields) (s : State) : (raiseError e f s).cmdq = s.cmdq := rfl
@[simp] theorem raiseError_rspq (e : ErrorKind) (f : ResultFields) (s : State) : (raiseError e f s).rspq = s.rspq := rfl
@[simp] theorem raiseError_rspa (e : ErrorKind) (f : ResultFields) (s : State) : (raiseError e f s).rspa = s.rspa := rfl
@[simp] theorem raiseError_tlow (e : ErrorKind) (f : ResultFields) (s : State) : (raiseError e f s).tlow = s.tlow := rfl
@[simp] theorem raiseError_params (e : ErrorKind) (f : ResultFields) (s : State) : (raiseError e f s).params = s.params := rfl
@[simp] theorem raiseError_cmdOut (e : ErrorKind) (f : ResultFields) (s : State) : (raiseError e f s).cmdOut = s.cmdOut := rfl
@[simp] theorem raiseError_wave (e : ErrorKind) (f : ResultFields) (s : State) : (raiseError e f s).wave = s.wave := rfl
@[simp] theorem raiseError_env (e : ErrorKind) (f : ResultFields) (s : State) : (raiseError e f s).env = s.env := rfl

@[simp] theorem raiseFatal_bus (s : State) : (raiseFatal s).bus = s.bus := rfl
@[simp] theorem raiseFatal_clkcfg (s : State) : (raiseFatal s).clkcfg = s.clkcfg := rfl
@[simp] theorem raiseFatal_fatal (s : State) : (raiseFatal s).fatal = true := rfl
@[simp] theorem raiseFatal_result (s : State) : (raiseFatal s).result = packResult { err := ErrorKind.adapterIoFailed.code } true s.bus.code := rfl
@[simp] theorem raiseFatal_pindir (s : State) : (raiseFatal s).pindir = s.pindir := rfl
@[simp] theorem raiseFatal_pinval (s : State) : (raiseFatal s).pinval = s.pinval := rfl
@[simp] theorem raiseFatal_div (s : State) : (raiseFatal s).div = s.div := rfl
@[simp] theorem raiseFatal_div5 (s : State) : (raiseFatal s).div5 = s.div5 := rfl
@[simp] theorem raiseFatal_adapt (s : State) : (raiseFatal s).adapt = s.adapt := rfl
@[simp] theorem raiseFatal_ph3 (s : State) : (raiseFatal s).ph3 = s.ph3 := rfl
@[simp] theorem raiseFatal_rxsh (s : State) : (raiseFatal s).rxsh = s.rxsh := rfl
@[simp] theorem raiseFatal_cmdq (s : State) : (raiseFatal s).cmdq = s.cmdq := rfl
@[simp] theorem raiseFatal_rspq (s : State) : (raiseFatal s).rspq = s.rspq := rfl
@[simp] theorem raiseFatal_rspa (s : State) : (raiseFatal s).rspa = s.rspa := rfl
@[simp] theorem raiseFatal_tlow (s : State) : (raiseFatal s).tlow = s.tlow := rfl
@[simp] theorem raiseFatal_params (s : State) : (raiseFatal s).params = s.params := rfl
@[simp] theorem raiseFatal_cmdOut (s : State) : (raiseFatal s).cmdOut = s.cmdOut := rfl
@[simp] theorem raiseFatal_wave (s : State) : (raiseFatal s).wave = s.wave := rfl
@[simp] theorem raiseFatal_env (s : State) : (raiseFatal s).env = s.env := rfl

@[simp] theorem respond_bus (b : List Byte) (s : State) : (s.respond b).bus = s.bus := rfl
@[simp] theorem respond_clkcfg (b : List Byte) (s : State) : (s.respond b).clkcfg = s.clkcfg := rfl
@[simp] theorem respond_fatal (b : List Byte) (s : State) : (s.respond b).fatal = s.fatal := rfl
@[simp] theorem respond_result (b : List Byte) (s : State) : (s.respond b).result = s.result := rfl
@[simp] theorem respond_pindir (b : List Byte) (s : State) : (s.respond b).pindir = s.pindir := rfl
@[simp] theorem respond_pinval (b : List Byte) (s : State) : (s.respond b).pinval = s.pinval := rfl
@[simp] theorem respond_div (b : List Byte) (s : State) : (s.respond b).div = s.div := rfl
@[simp] theorem respond_div5 (b : List Byte) (s : State) : (s.respond b).div5 = s.div5 := rfl
@[simp] theorem respond_adapt (b : List Byte) (s : State) : (s.respond b).adapt = s.adapt := rfl
@[simp] theorem respond_ph3 (b : List Byte) (s : State) : (s.respond b).ph3 = s.ph3 := rfl
@[simp] theorem respond_rxsh (b : List Byte) (s : State) : (s.respond b).rxsh = s.rxsh := rfl
@[simp] theorem respond_cmdq (b : List Byte) (s : State) : (s.respond b).cmdq = s.cmdq := rfl
@[simp] theorem respond_rspq (b : List Byte) (s : State) : (s.respond b).rspq = s.rspq ++ b := rfl
@[simp] theorem respond_rspa (b : List Byte) (s : State) : (s.respond b).rspa = s.rspa := rfl
@[simp] theorem respond_tlow (b : List Byte) (s : State) : (s.respond b).tlow = s.tlow := rfl
@[simp] theorem respond_params (b : List Byte) (s : State) : (s.respond b).params = s.params := rfl
@[simp] theorem respond_cmdOut (b : List Byte) (s : State) : (s.respond b).cmdOut = s.cmdOut := rfl
@[simp] theorem respond_wave (b : List Byte) (s : State) : (s.respond b).wave = s.wave := rfl
@[simp] theorem respond_env (b : List Byte) (s : State) : (s.respond b).env = s.env := rfl

@[simp] theorem sampleSda_bus (s : State) : (sampleSda s).bus = s.bus := rfl
@[simp] theorem sampleSda_clkcfg (s : State) : (sampleSda s).clkcfg = s.clkcfg := rfl
@[simp] theorem sampleSda_fatal (s : State) : (sampleSda s).fatal = s.fatal := rfl
@[simp] theorem sampleSda_result (s : State) : (sampleSda s).result = s.result := rfl
@[simp] theorem sampleSda_pindir (s : State) : (sampleSda s).pindir = s.pindir := rfl
@[simp] theorem sampleSda_pinval (s : State) : (sampleSda s).pinval = s.pinval := rfl
@[simp] theorem sampleSda_div (s : State) : (sampleSda s).div = s.div := rfl
@[simp] theorem sampleSda_div5 (s : State) : (sampleSda s).div5 = s.div5 := rfl
@[simp] theorem sampleSda_adapt (s : State) : (sampleSda s).adapt = s.adapt := rfl
@[simp] theorem sampleSda_ph3 (s : State) : (sampleSda s).ph3 = s.ph3 := rfl
@[simp] theorem sampleSda_rxsh (s : State) : (sampleSda s).rxsh = shiftIn s.rxsh s.levels.sda := rfl
@[simp] theorem sampleSda_cmdq (s : State) : (sampleSda s).cmdq = s.cmdq := rfl
@[simp] theorem sampleSda_rspq (s : State) : (sampleSda s).rspq = s.rspq := rfl
@[simp] theorem sampleSda_rspa (s : State) : (sampleSda s).rspa = s.rspa := rfl
@[simp] theorem sampleSda_tlow (s : State) : (sampleSda s).tlow = s.tlow := rfl
@[simp] theorem sampleSda_params (s : State) : (sampleSda s).params = s.params := rfl
@[simp] theorem sampleSda_cmdOut (s : State) : (sampleSda s).cmdOut = s.cmdOut := rfl
@[simp] theorem sampleSda_wave (s : State) : (sampleSda s).wave = s.wave := rfl
@[simp] theorem sampleSda_env (s : State) : (sampleSda s).env = s.env := rfl

@[simp] theorem scriptTurn_bus (t : Turn) (s : State) : (s.scriptTurn t).bus = s.bus := rfl
@[simp] theorem scriptTurn_clkcfg (t : Turn) (s : State) : (s.scriptTurn t).clkcfg = s.clkcfg := rfl
@[simp] theorem scriptTurn_fatal (t : Turn) (s : State) : (s.scriptTurn t).fatal = s.fatal := rfl
@[simp] theorem scriptTurn_result (t : Turn) (s : State) : (s.scriptTurn t).result = s.result := rfl
@[simp] theorem scriptTurn_pindir (t : Turn) (s : State) : (s.scriptTurn t).pindir = s.pindir := rfl
@[simp] theorem scriptTurn_pinval (t : Turn) (s : State) : (s.scriptTurn t).pinval = s.pinval := rfl
@[simp] theorem scriptTurn_div (t : Turn) (s : State) : (s.scriptTurn t).div = s.div := rfl
@[simp] theorem scriptTurn_div5 (t : Turn) (s : State) : (s.scriptTurn t).div5 = s.div5 := rfl
@[simp] theorem scriptTurn_adapt (t : Turn) (s : State) : (s.scriptTurn t).adapt = s.adapt := rfl
@[simp] theorem scriptTurn_ph3 (t : Turn) (s : State) : (s.scriptTurn t).ph3 = s.ph3 := rfl
@[simp] theorem scriptTurn_rxsh (t : Turn) (s : State) : (s.scriptTurn t).rxsh = s.rxsh := rfl
@[simp] theorem scriptTurn_cmdq (t : Turn) (s : State) : (s.scriptTurn t).cmdq = s.cmdq := rfl
@[simp] theorem scriptTurn_rspq (t : Turn) (s : State) : (s.scriptTurn t).rspq = s.rspq := rfl
@[simp] theorem scriptTurn_rspa (t : Turn) (s : State) : (s.scriptTurn t).rspa = s.rspa := rfl
@[simp] theorem scriptTurn_tlow (t : Turn) (s : State) : (s.scriptTurn t).tlow = s.tlow := rfl
@[simp] theorem scriptTurn_params (t : Turn) (s : State) : (s.scriptTurn t).params = s.params := rfl
@[simp] theorem scriptTurn_cmdOut (t : Turn) (s : State) : (s.scriptTurn t).cmdOut = s.cmdOut := rfl
@[simp] theorem scriptTurn_wave (t : Turn) (s : State) : (s.scriptTurn t).wave = s.wave := rfl
@[simp] theorem scriptTurn_env_words (t : Turn) (s : State) : (s.scriptTurn t).env.words = s.env.words := rfl
@[simp] theorem scriptTurn_env_turns (t : Turn) (s : State) : (s.scriptTurn t).env.turns = { s.env.turns with script := t :: s.env.turns.script } := rfl
@[simp] theorem scriptTurn_env_writes (t : Turn) (s : State) : (s.scriptTurn t).env.writes = s.env.writes := rfl
@[simp] theorem scriptTurn_env_reads (t : Turn) (s : State) : (s.scriptTurn t).env.reads = s.env.reads := rfl
@[simp] theorem scriptTurn_env_paces (t : Turn) (s : State) : (s.scriptTurn t).env.paces = s.env.paces := rfl
@[simp] theorem scriptTurn_env_reacts (t : Turn) (s : State) : (s.scriptTurn t).env.reacts = s.env.reacts := rfl
@[simp] theorem scriptTurn_env_draws (t : Turn) (s : State) : (s.scriptTurn t).env.draws = s.env.draws := rfl
@[simp] theorem scriptTurn_env_orders (t : Turn) (s : State) : (s.scriptTurn t).env.orders = s.env.orders := rfl

@[simp] theorem askWord_bus (w : Word) (s : State) : (s.askWord w).bus = s.bus := rfl
@[simp] theorem askWord_clkcfg (w : Word) (s : State) : (s.askWord w).clkcfg = s.clkcfg := rfl
@[simp] theorem askWord_fatal (w : Word) (s : State) : (s.askWord w).fatal = s.fatal := rfl
@[simp] theorem askWord_result (w : Word) (s : State) : (s.askWord w).result = s.result := rfl
@[simp] theorem askWord_pindir (w : Word) (s : State) : (s.askWord w).pindir = s.pindir := rfl
@[simp] theorem askWord_pinval (w : Word) (s : State) : (s.askWord w).pinval = s.pinval := rfl
@[simp] theorem askWord_div (w : Word) (s : State) : (s.askWord w).div = s.div := rfl
@[simp] theorem askWord_div5 (w : Word) (s : State) : (s.askWord w).div5 = s.div5 := rfl
@[simp] theorem askWord_adapt (w : Word) (s : State) : (s.askWord w).adapt = s.adapt := rfl
@[simp] theorem askWord_ph3 (w : Word) (s : State) : (s.askWord w).ph3 = s.ph3 := rfl
@[simp] theorem askWord_rxsh (w : Word) (s : State) : (s.askWord w).rxsh = s.rxsh := rfl
@[simp] theorem askWord_cmdq (w : Word) (s : State) : (s.askWord w).cmdq = s.cmdq := rfl
@[simp] theorem askWord_rspq (w : Word) (s : State) : (s.askWord w).rspq = s.rspq := rfl
@[simp] theorem askWord_rspa (w : Word) (s : State) : (s.askWord w).rspa = s.rspa := rfl
@[simp] theorem askWord_tlow (w : Word) (s : State) : (s.askWord w).tlow = s.tlow := rfl
@[simp] theorem askWord_params (w : Word) (s : State) : (s.askWord w).params = s.params := rfl
@[simp] theorem askWord_cmdOut (w : Word) (s : State) : (s.askWord w).cmdOut = s.cmdOut := rfl
@[simp] theorem askWord_wave (w : Word) (s : State) : (s.askWord w).wave = s.wave := rfl
@[simp] theorem askWord_env_words (w : Word) (s : State) : (s.askWord w).env.words = w :: s.env.words := rfl
@[simp] theorem askWord_env_turns (w : Word) (s : State) : (s.askWord w).env.turns = s.env.turns := rfl
@[simp] theorem askWord_env_writes (w : Word) (s : State) : (s.askWord w).env.writes = s.env.writes := rfl
@[simp] theorem askWord_env_reads (w : Word) (s : State) : (s.askWord w).env.reads = s.env.reads := rfl
@[simp] theorem askWord_env_paces (w : Word) (s : State) : (s.askWord w).env.paces = s.env.paces := rfl
@[simp] theorem askWord_env_reacts (w : Word) (s : State) : (s.askWord w).env.reacts = s.env.reacts := rfl
@[simp] theorem askWord_env_draws (w : Word) (s : State) : (s.askWord w).env.draws = s.env.draws := rfl
@[simp] theorem askWord_env_orders (w : Word) (s : State) : (s.askWord w).env.orders = s.env.orders := rfl

end Sys2Proof.Machine
end

