-- ==== Sys2Proof/Laws/Ops.lean ====
section
/-! SUPPORT. What each shared operation does: draws, Emit, LinkRead, admission, raise. -/

namespace Sys2Proof.Machine

/-! ## Streams -/

theorem Stream.nth_zero {α : Type} (free : Nat → α) (st : Stream α) : st.nth free 0 = st.peek free := by
  cases st with | mk script taken => cases script <;> rfl

theorem Stream.nth_advance {α : Type} (free : Nat → α) (st : Stream α) (n : Nat) :
    st.advance.nth free n = st.nth free (n + 1) := by
  cases st with
  | mk script taken =>
    cases script <;> simp [Stream.nth, Stream.advance, Nat.add_comm, Nat.add_left_comm]

theorem drawReact_eq (s : State) : s.drawReact = s.env.reacts.nth Config.freeReact 0 := (Stream.nth_zero _ _).symm
theorem drawByte_eq (s : State) : s.drawByte = s.env.draws.nth Config.freeByte 0 := (Stream.nth_zero _ _).symm
theorem drawWrite_eq (s : State) : s.drawWrite = s.env.writes.nth Config.freeWrite 0 := (Stream.nth_zero _ _).symm

/-! ## Sequencing -/

@[simp] theorem andThen_next {α β : Type} (a : α) (k : α → Host.Outcome β Fault Refusal) :
    andThen (.next a) k = k a := rfl

@[simp] theorem andThen_refused {α β : Type} (r : Refusal) (k : α → Host.Outcome β Fault Refusal) :
    andThen (.refused r) k = .refused r := rfl

theorem andThen_eq_next {α β : Type} {x : Host.Outcome α Fault Refusal} {k : α → Host.Outcome β Fault Refusal} {b : β} :
    andThen x k = .next b ↔ ∃ a, x = .next a ∧ k a = .next b := by
  cases x with
  | next a => simp [andThen]
  | fault r => cases r
  | refused r => simp [andThen]

theorem andThen_eq_refused {α β : Type} {x : Host.Outcome α Fault Refusal} {k : α → Host.Outcome β Fault Refusal}
    {r : Refusal} :
    andThen x k = .refused r ↔ x = .refused r ∨ ∃ a, x = .next a ∧ k a = .refused r := by
  cases x with
  | next a => simp [andThen]
  | fault r => cases r
  | refused r => simp [andThen]

@[simp] theorem unlessRefused_none (k : Step) : unlessRefused none k = k := rfl
@[simp] theorem unlessRefused_some (r : Refusal) (k : Step) : unlessRefused (some r) k = .refused r := rfl

theorem unlessRefused_eq_next {why : Option Refusal} {k : Step} {t : State} :
    unlessRefused why k = .next t ↔ why = none ∧ k = .next t := by
  cases why <;> simp

theorem unlessRefused_eq_refused {why : Option Refusal} {k : Step} {r : Refusal} :
    unlessRefused why k = .refused r ↔ why = some r ∨ (why = none ∧ k = .refused r) := by
  cases why <;> simp

/-! ## Admission -/

theorem admission_eq_none {c : Bool} {adm : BusState → Bool} {s : State} :
    admission c adm s = none ↔ s.fatal = false ∧ (c = true → s.clkcfg = true) ∧ adm s.bus = true := by
  cases hf : s.fatal <;> cases hc : s.clkcfg <;> cases c <;> cases ha : adm s.bus <;> simp [admission, hf, hc, ha]

theorem admission_fatal {c : Bool} {adm : BusState → Bool} {s : State} (h : s.fatal = true) :
    admission c adm s = some .sessionFatal := by
  simp [admission, h]

theorem admission_clock {adm : BusState → Bool} {s : State} (h : s.fatal = false) (hc : s.clkcfg = false) :
    admission true adm s = some .clockNotConfigured := by
  simp [admission, h, hc]

theorem admission_bus {c : Bool} {adm : BusState → Bool} {s : State} (h : s.fatal = false)
    (hc : c = true → s.clkcfg = true) (hb : adm s.bus = false) : admission c adm s = some (.notAdmitted s.bus) := by
  cases c <;> simp_all [admission]

/-- Whatever admission refuses with is a refusal of the host's request. -/
theorem admission_ofHost {c : Bool} {adm : BusState → Bool} {s : State} {r : Refusal} (h : admission c adm s = some r) :
    r.ofHost = true := by
  unfold admission at h
  split at h
  · cases h; rfl
  · split at h
    · cases h; rfl
    · split at h <;> cases h
      rfl

/-! ## Emit -/

theorem emit_ok {s : State} (cmds : List Instr) (h : s.drawWrite = .ok) :
    emit cmds s = (true, s.takeWrite.queue (encodeCommands s.params.opcodes cmds)) := by
  simp [emit, h]

theorem emit_fail {s : State} (cmds : List Instr) {k : Nat} (h : s.drawWrite = .fail k) :
    emit cmds s = (false, s.takeWrite.queue (cutWrite (encodeCommands s.params.opcodes cmds) k)) := by
  simp [emit, h]

/-- Emit queues some bytes and takes one write outcome: nothing else changes (R55). -/
theorem emit_state (cmds : List Instr) (s : State) : ∃ bytes, (emit cmds s).2 = s.takeWrite.queue bytes := by
  cases h : s.drawWrite with
  | ok => exact ⟨_, by rw [emit_ok cmds h]⟩
  | fail k => exact ⟨_, by rw [emit_fail cmds h]⟩

theorem emitThen_ok {s : State} (cmds : List Instr) (k : State → State) (h : s.drawWrite = .ok) :
    emitThen cmds k s = k (s.takeWrite.queue (encodeCommands s.params.opcodes cmds)) := by
  simp [emitThen, emit_ok cmds h]

theorem emitThen_fail {s : State} (cmds : List Instr) (k : State → State) {n : Nat} (h : s.drawWrite = .fail n) :
    emitThen cmds k s = raiseFatal (s.takeWrite.queue (cutWrite (encodeCommands s.params.opcodes cmds) n)) := by
  simp [emitThen, emit_fail cmds h]

theorem emitOr_ok {s : State} (cmds : List Instr) (k : State → Step) (h : s.drawWrite = .ok) :
    emitOr cmds k s = k (s.takeWrite.queue (encodeCommands s.params.opcodes cmds)) := by
  simp [emitOr, emit_ok cmds h]

theorem emitOr_fail {s : State} (cmds : List Instr) (k : State → Step) {n : Nat} (h : s.drawWrite = .fail n) :
    emitOr cmds k s = .next (raiseFatal (s.takeWrite.queue (cutWrite (encodeCommands s.params.opcodes cmds) n))) := by
  simp [emitOr, emit_fail cmds h]

/-- What an Emit that ends an operation can do: go on with every byte queued, or raise the fatal error with a proper
part of them queued. -/
theorem emitThen_cases (cmds : List Instr) (k : State → State) (s : State) :
    (s.drawWrite = .ok ∧ emitThen cmds k s = k (s.takeWrite.queue (encodeCommands s.params.opcodes cmds))) ∨
    ∃ n, s.drawWrite = .fail n ∧
      emitThen cmds k s = raiseFatal (s.takeWrite.queue (cutWrite (encodeCommands s.params.opcodes cmds) n)) := by
  cases h : s.drawWrite with
  | ok => exact .inl ⟨rfl, emitThen_ok cmds k h⟩
  | fail n => exact .inr ⟨n, rfl, emitThen_fail cmds k h⟩

/-- The same for an Emit with more to do after it. -/
theorem emitOr_cases (cmds : List Instr) (k : State → Step) (s : State) :
    (s.drawWrite = .ok ∧ emitOr cmds k s = k (s.takeWrite.queue (encodeCommands s.params.opcodes cmds))) ∨
    ∃ n, s.drawWrite = .fail n ∧
      emitOr cmds k s = .next (raiseFatal (s.takeWrite.queue (cutWrite (encodeCommands s.params.opcodes cmds) n))) := by
  cases h : s.drawWrite with
  | ok => exact .inl ⟨rfl, emitOr_ok cmds k h⟩
  | fail n => exact .inr ⟨n, rfl, emitOr_fail cmds k h⟩

/-! ## LinkRead -/

/-- What LinkRead can do (R56): take one read outcome, and take at most `n` bytes off the front of RSPA. -/
theorem linkRead_cases (n : Nat) (s : State) :
    (s.drawRead = .ioError ∧ linkRead n s = (none, s.takeRead)) ∨
    ∃ k, s.drawRead = .bytes k ∧
      linkRead n s = (some (s.rspa.take (min k n)), { s.takeRead with rspa := s.rspa.drop (min k n) }) := by
  cases h : s.drawRead with
  | ioError => exact .inl ⟨rfl, by simp [linkRead, h]⟩
  | bytes k => exact .inr ⟨k, rfl, by simp [linkRead, h]⟩

/-- A read changes RSPA and the read inputs only. -/
theorem linkRead_state (n : Nat) (s : State) : ∃ l, (linkRead n s).2 = { s.takeRead with rspa := l } := by
  rcases linkRead_cases n s with ⟨_, h⟩ | ⟨k, _, h⟩
  · exact ⟨s.rspa, by rw [h]; rfl⟩
  · exact ⟨_, by rw [h]⟩

/-! ## RESULT -/

section
variable (f : ResultFields) (b : Bool) (c : BitVec 3)

@[simp] theorem resultData_pack : resultData (packResult f b c) = f.data := by
  apply BitVec.eq_of_getLsbD_eq; intro i h
  simp only [resultData, packResult, BitVec.getLsbD_extractLsb', BitVec.getLsbD_append]
  simp [h]

@[simp] theorem resultRaw1_pack : resultRaw1 (packResult f b c) = f.raw1 := by
  apply BitVec.eq_of_getLsbD_eq; intro i h
  simp only [resultRaw1, packResult, BitVec.getLsbD_extractLsb', BitVec.getLsbD_append]
  simp [h]

@[simp] theorem resultRspn_pack : resultRspn (packResult f b c) = f.rspn := by
  apply BitVec.eq_of_getLsbD_eq; intro i h
  simp only [resultRspn, packResult, BitVec.getLsbD_extractLsb', BitVec.getLsbD_append]
  have h1 : ¬ 16 + i < 8 := by omega
  have h2 : ¬ 16 + i - 8 < 8 := by omega
  have h3 : 16 + i - 8 - 8 = i := by omega
  simp [h, h1, h2, h3]

@[simp] theorem resultNack_pack : resultNack (packResult f b c) = f.nack := by
  simp only [resultNack, packResult, BitVec.getLsbD_append]
  simp

@[simp] theorem resultBit19_pack : resultBit19 (packResult f b c) = false := by
  simp only [resultBit19, packResult, BitVec.getLsbD_append]
  simp

@[simp] theorem resultErr_pack : resultErr (packResult f b c) = f.err := by
  apply BitVec.eq_of_getLsbD_eq; intro i h
  simp only [resultErr, packResult, BitVec.getLsbD_extractLsb', BitVec.getLsbD_append]
  have h1 : ¬ 20 + i < 8 := by omega
  have h2 : ¬ 20 + i - 8 < 8 := by omega
  have h3 : ¬ 20 + i - 8 - 8 < 2 := by omega
  have h4 : ¬ 20 + i - 8 - 8 - 2 < 1 := by omega
  have h5 : ¬ 20 + i - 8 - 8 - 2 - 1 < 1 := by omega
  have h6 : 20 + i - 8 - 8 - 2 - 1 - 1 = i := by omega
  simp [h, h1, h2, h3, h4, h5, h6]

@[simp] theorem resultFatalf_pack : resultFatalf (packResult f b c) = b := by
  simp only [resultFatalf, packResult, BitVec.getLsbD_append]
  simp

@[simp] theorem resultBusf_pack : resultBusf (packResult f b c) = c := by
  apply BitVec.eq_of_getLsbD_eq; intro i h
  simp only [resultBusf, packResult, BitVec.getLsbD_extractLsb', BitVec.getLsbD_append]
  have h1 : ¬ 25 + i < 8 := by omega
  have h2 : ¬ 25 + i - 8 < 8 := by omega
  have h3 : ¬ 25 + i - 8 - 8 < 2 := by omega
  have h4 : ¬ 25 + i - 8 - 8 - 2 < 1 := by omega
  have h5 : ¬ 25 + i - 8 - 8 - 2 - 1 < 1 := by omega
  have h6 : ¬ 25 + i - 8 - 8 - 2 - 1 - 1 < 4 := by omega
  have h7 : ¬ 25 + i - 8 - 8 - 2 - 1 - 1 - 4 < 1 := by omega
  have h8 : 25 + i - 8 - 8 - 2 - 1 - 1 - 4 - 1 = i := by omega
  simp [h, h1, h2, h3, h4, h5, h6, h7, h8]

@[simp] theorem resultTop_pack : resultTop (packResult f b c) = 0 := by
  apply BitVec.eq_of_getLsbD_eq; intro i h
  simp only [resultTop, packResult, BitVec.getLsbD_extractLsb', BitVec.getLsbD_append]
  have h1 : ¬ 28 + i < 8 := by omega
  have h2 : ¬ 28 + i - 8 < 8 := by omega
  have h3 : ¬ 28 + i - 8 - 8 < 2 := by omega
  have h4 : ¬ 28 + i - 8 - 8 - 2 < 1 := by omega
  have h5 : ¬ 28 + i - 8 - 8 - 2 - 1 < 1 := by omega
  have h6 : ¬ 28 + i - 8 - 8 - 2 - 1 - 1 < 4 := by omega
  have h7 : ¬ 28 + i - 8 - 8 - 2 - 1 - 1 - 4 < 1 := by omega
  have h8 : ¬ 28 + i - 8 - 8 - 2 - 1 - 1 - 4 - 1 < 3 := by omega
  simp [h1, h2, h3, h4, h5, h6, h7, h8]

end

/-! ## Queue contents -/

theorem cutWrite_append (bytes : List Byte) (k : Nat) (h : bytes ≠ []) :
    ∃ rest, rest ≠ [] ∧ cutWrite bytes k ++ rest = bytes := by
  refine ⟨bytes.drop (min k (bytes.length - 1)), ?_, List.take_append_drop _ _⟩
  have : 0 < bytes.length := List.length_pos_iff.mpr h
  intro e
  have := congrArg List.length e
  simp at this
  omega

end Sys2Proof.Machine
end

