-- ==== Sys2Proof/Laws/Lines.lean ====
section
/-! SUPPORT. The drivers and the line history: what recordChange, setDrivers, react and assign change, and how the
history grows (41_pin_commands R123, R124, R130). -/

namespace Sys2Proof.Machine

theorem recordChange_cases (a : Levels) (s : State) :
    recordChange a s = { s with wave := s.wave ++ settingChanges s.drawOrder a s.levels } ∨
    recordChange a s = ({ s with wave := s.wave ++ settingChanges s.drawOrder a s.levels } : State).takeOrder := by
  unfold recordChange
  split
  · exact .inr rfl
  · exact .inl rfl

@[simp] theorem recordChange_bus (a : Levels) (s : State) : (recordChange a s).bus = s.bus := by rcases recordChange_cases a s with h | h <;> rw [h] <;> rfl
@[simp] theorem recordChange_clkcfg (a : Levels) (s : State) : (recordChange a s).clkcfg = s.clkcfg := by rcases recordChange_cases a s with h | h <;> rw [h] <;> rfl
@[simp] theorem recordChange_fatal (a : Levels) (s : State) : (recordChange a s).fatal = s.fatal := by rcases recordChange_cases a s with h | h <;> rw [h] <;> rfl
@[simp] theorem recordChange_result (a : Levels) (s : State) : (recordChange a s).result = s.result := by rcases recordChange_cases a s with h | h <;> rw [h] <;> rfl
@[simp] theorem recordChange_pindir (a : Levels) (s : State) : (recordChange a s).pindir = s.pindir := by rcases recordChange_cases a s with h | h <;> rw [h] <;> rfl
@[simp] theorem recordChange_pinval (a : Levels) (s : State) : (recordChange a s).pinval = s.pinval := by rcases recordChange_cases a s with h | h <;> rw [h] <;> rfl
@[simp] theorem recordChange_div (a : Levels) (s : State) : (recordChange a s).div = s.div := by rcases recordChange_cases a s with h | h <;> rw [h] <;> rfl
@[simp] theorem recordChange_div5 (a : Levels) (s : State) : (recordChange a s).div5 = s.div5 := by rcases recordChange_cases a s with h | h <;> rw [h] <;> rfl
@[simp] theorem recordChange_adapt (a : Levels) (s : State) : (recordChange a s).adapt = s.adapt := by rcases recordChange_cases a s with h | h <;> rw [h] <;> rfl
@[simp] theorem recordChange_ph3 (a : Levels) (s : State) : (recordChange a s).ph3 = s.ph3 := by rcases recordChange_cases a s with h | h <;> rw [h] <;> rfl
@[simp] theorem recordChange_rxsh (a : Levels) (s : State) : (recordChange a s).rxsh = s.rxsh := by rcases recordChange_cases a s with h | h <;> rw [h] <;> rfl
@[simp] theorem recordChange_cmdq (a : Levels) (s : State) : (recordChange a s).cmdq = s.cmdq := by rcases recordChange_cases a s with h | h <;> rw [h] <;> rfl
@[simp] theorem recordChange_rspq (a : Levels) (s : State) : (recordChange a s).rspq = s.rspq := by rcases recordChange_cases a s with h | h <;> rw [h] <;> rfl
@[simp] theorem recordChange_rspa (a : Levels) (s : State) : (recordChange a s).rspa = s.rspa := by rcases recordChange_cases a s with h | h <;> rw [h] <;> rfl
@[simp] theorem recordChange_tlow (a : Levels) (s : State) : (recordChange a s).tlow = s.tlow := by rcases recordChange_cases a s with h | h <;> rw [h] <;> rfl
@[simp] theorem recordChange_params (a : Levels) (s : State) : (recordChange a s).params = s.params := by rcases recordChange_cases a s with h | h <;> rw [h] <;> rfl
@[simp] theorem recordChange_cmdOut (a : Levels) (s : State) : (recordChange a s).cmdOut = s.cmdOut := by rcases recordChange_cases a s with h | h <;> rw [h] <;> rfl
@[simp] theorem recordChange_env_words (a : Levels) (s : State) : (recordChange a s).env.words = s.env.words := by rcases recordChange_cases a s with h | h <;> rw [h] <;> rfl
@[simp] theorem recordChange_env_turns (a : Levels) (s : State) : (recordChange a s).env.turns = s.env.turns := by rcases recordChange_cases a s with h | h <;> rw [h] <;> rfl
@[simp] theorem recordChange_env_writes (a : Levels) (s : State) : (recordChange a s).env.writes = s.env.writes := by rcases recordChange_cases a s with h | h <;> rw [h] <;> rfl
@[simp] theorem recordChange_env_reads (a : Levels) (s : State) : (recordChange a s).env.reads = s.env.reads := by rcases recordChange_cases a s with h | h <;> rw [h] <;> rfl
@[simp] theorem recordChange_env_paces (a : Levels) (s : State) : (recordChange a s).env.paces = s.env.paces := by rcases recordChange_cases a s with h | h <;> rw [h] <;> rfl
@[simp] theorem recordChange_env_reacts (a : Levels) (s : State) : (recordChange a s).env.reacts = s.env.reacts := by rcases recordChange_cases a s with h | h <;> rw [h] <;> rfl
@[simp] theorem recordChange_env_draws (a : Levels) (s : State) : (recordChange a s).env.draws = s.env.draws := by rcases recordChange_cases a s with h | h <;> rw [h] <;> rfl

@[simp] theorem setDrivers_bus (dir val : Byte) (s : State) : (setDrivers dir val s).bus = s.bus := by simp [setDrivers]
@[simp] theorem setDrivers_clkcfg (dir val : Byte) (s : State) : (setDrivers dir val s).clkcfg = s.clkcfg := by simp [setDrivers]
@[simp] theorem setDrivers_fatal (dir val : Byte) (s : State) : (setDrivers dir val s).fatal = s.fatal := by simp [setDrivers]
@[simp] theorem setDrivers_result (dir val : Byte) (s : State) : (setDrivers dir val s).result = s.result := by simp [setDrivers]
@[simp] theorem setDrivers_pindir (dir val : Byte) (s : State) : (setDrivers dir val s).pindir = dir := by simp [setDrivers]
@[simp] theorem setDrivers_pinval (dir val : Byte) (s : State) : (setDrivers dir val s).pinval = val := by simp [setDrivers]
@[simp] theorem setDrivers_div (dir val : Byte) (s : State) : (setDrivers dir val s).div = s.div := by simp [setDrivers]
@[simp] theorem setDrivers_div5 (dir val : Byte) (s : State) : (setDrivers dir val s).div5 = s.div5 := by simp [setDrivers]
@[simp] theorem setDrivers_adapt (dir val : Byte) (s : State) : (setDrivers dir val s).adapt = s.adapt := by simp [setDrivers]
@[simp] theorem setDrivers_ph3 (dir val : Byte) (s : State) : (setDrivers dir val s).ph3 = s.ph3 := by simp [setDrivers]
@[simp] theorem setDrivers_rxsh (dir val : Byte) (s : State) : (setDrivers dir val s).rxsh = s.rxsh := by simp [setDrivers]
@[simp] theorem setDrivers_cmdq (dir val : Byte) (s : State) : (setDrivers dir val s).cmdq = s.cmdq := by simp [setDrivers]
@[simp] theorem setDrivers_rspq (dir val : Byte) (s : State) : (setDrivers dir val s).rspq = s.rspq := by simp [setDrivers]
@[simp] theorem setDrivers_rspa (dir val : Byte) (s : State) : (setDrivers dir val s).rspa = s.rspa := by simp [setDrivers]
@[simp] theorem setDrivers_tlow (dir val : Byte) (s : State) : (setDrivers dir val s).tlow = s.tlow := by simp [setDrivers]
@[simp] theorem setDrivers_params (dir val : Byte) (s : State) : (setDrivers dir val s).params = s.params := by simp [setDrivers]
@[simp] theorem setDrivers_cmdOut (dir val : Byte) (s : State) : (setDrivers dir val s).cmdOut = s.cmdOut := by simp [setDrivers]
@[simp] theorem setDrivers_env_words (dir val : Byte) (s : State) : (setDrivers dir val s).env.words = s.env.words := by simp [setDrivers]
@[simp] theorem setDrivers_env_turns (dir val : Byte) (s : State) : (setDrivers dir val s).env.turns = s.env.turns := by simp [setDrivers]
@[simp] theorem setDrivers_env_writes (dir val : Byte) (s : State) : (setDrivers dir val s).env.writes = s.env.writes := by simp [setDrivers]
@[simp] theorem setDrivers_env_reads (dir val : Byte) (s : State) : (setDrivers dir val s).env.reads = s.env.reads := by simp [setDrivers]
@[simp] theorem setDrivers_env_paces (dir val : Byte) (s : State) : (setDrivers dir val s).env.paces = s.env.paces := by simp [setDrivers]
@[simp] theorem setDrivers_env_reacts (dir val : Byte) (s : State) : (setDrivers dir val s).env.reacts = s.env.reacts := by simp [setDrivers]
@[simp] theorem setDrivers_env_draws (dir val : Byte) (s : State) : (setDrivers dir val s).env.draws = s.env.draws := by simp [setDrivers]

@[simp] theorem targetDrives_bus (b : Bool) (s : State) : (targetDrives b s).bus = s.bus := by simp [targetDrives]
@[simp] theorem targetDrives_clkcfg (b : Bool) (s : State) : (targetDrives b s).clkcfg = s.clkcfg := by simp [targetDrives]
@[simp] theorem targetDrives_fatal (b : Bool) (s : State) : (targetDrives b s).fatal = s.fatal := by simp [targetDrives]
@[simp] theorem targetDrives_result (b : Bool) (s : State) : (targetDrives b s).result = s.result := by simp [targetDrives]
@[simp] theorem targetDrives_pindir (b : Bool) (s : State) : (targetDrives b s).pindir = s.pindir := by simp [targetDrives]
@[simp] theorem targetDrives_pinval (b : Bool) (s : State) : (targetDrives b s).pinval = s.pinval := by simp [targetDrives]
@[simp] theorem targetDrives_div (b : Bool) (s : State) : (targetDrives b s).div = s.div := by simp [targetDrives]
@[simp] theorem targetDrives_div5 (b : Bool) (s : State) : (targetDrives b s).div5 = s.div5 := by simp [targetDrives]
@[simp] theorem targetDrives_adapt (b : Bool) (s : State) : (targetDrives b s).adapt = s.adapt := by simp [targetDrives]
@[simp] theorem targetDrives_ph3 (b : Bool) (s : State) : (targetDrives b s).ph3 = s.ph3 := by simp [targetDrives]
@[simp] theorem targetDrives_rxsh (b : Bool) (s : State) : (targetDrives b s).rxsh = s.rxsh := by simp [targetDrives]
@[simp] theorem targetDrives_cmdq (b : Bool) (s : State) : (targetDrives b s).cmdq = s.cmdq := by simp [targetDrives]
@[simp] theorem targetDrives_rspq (b : Bool) (s : State) : (targetDrives b s).rspq = s.rspq := by simp [targetDrives]
@[simp] theorem targetDrives_rspa (b : Bool) (s : State) : (targetDrives b s).rspa = s.rspa := by simp [targetDrives]
@[simp] theorem targetDrives_tlow (b : Bool) (s : State) : (targetDrives b s).tlow = b := by simp [targetDrives]
@[simp] theorem targetDrives_params (b : Bool) (s : State) : (targetDrives b s).params = s.params := by simp [targetDrives]
@[simp] theorem targetDrives_cmdOut (b : Bool) (s : State) : (targetDrives b s).cmdOut = s.cmdOut := by simp [targetDrives]
@[simp] theorem targetDrives_env_words (b : Bool) (s : State) : (targetDrives b s).env.words = s.env.words := by simp [targetDrives]
@[simp] theorem targetDrives_env_turns (b : Bool) (s : State) : (targetDrives b s).env.turns = s.env.turns := by simp [targetDrives]
@[simp] theorem targetDrives_env_writes (b : Bool) (s : State) : (targetDrives b s).env.writes = s.env.writes := by simp [targetDrives]
@[simp] theorem targetDrives_env_reads (b : Bool) (s : State) : (targetDrives b s).env.reads = s.env.reads := by simp [targetDrives]
@[simp] theorem targetDrives_env_paces (b : Bool) (s : State) : (targetDrives b s).env.paces = s.env.paces := by simp [targetDrives]
@[simp] theorem targetDrives_env_reacts (b : Bool) (s : State) : (targetDrives b s).env.reacts = s.env.reacts := by simp [targetDrives]
@[simp] theorem targetDrives_env_draws (b : Bool) (s : State) : (targetDrives b s).env.draws = s.env.draws := by simp [targetDrives]

@[simp] theorem react_bus (s : State) : (react s).bus = s.bus := by simp [react]
@[simp] theorem react_clkcfg (s : State) : (react s).clkcfg = s.clkcfg := by simp [react]
@[simp] theorem react_fatal (s : State) : (react s).fatal = s.fatal := by simp [react]
@[simp] theorem react_result (s : State) : (react s).result = s.result := by simp [react]
@[simp] theorem react_pindir (s : State) : (react s).pindir = s.pindir := by simp [react]
@[simp] theorem react_pinval (s : State) : (react s).pinval = s.pinval := by simp [react]
@[simp] theorem react_div (s : State) : (react s).div = s.div := by simp [react]
@[simp] theorem react_div5 (s : State) : (react s).div5 = s.div5 := by simp [react]
@[simp] theorem react_adapt (s : State) : (react s).adapt = s.adapt := by simp [react]
@[simp] theorem react_ph3 (s : State) : (react s).ph3 = s.ph3 := by simp [react]
@[simp] theorem react_rxsh (s : State) : (react s).rxsh = s.rxsh := by simp [react]
@[simp] theorem react_cmdq (s : State) : (react s).cmdq = s.cmdq := by simp [react]
@[simp] theorem react_rspq (s : State) : (react s).rspq = s.rspq := by simp [react]
@[simp] theorem react_rspa (s : State) : (react s).rspa = s.rspa := by simp [react]
@[simp] theorem react_tlow (s : State) : (react s).tlow = s.drawReact := by simp [react]
@[simp] theorem react_params (s : State) : (react s).params = s.params := by simp [react]
@[simp] theorem react_cmdOut (s : State) : (react s).cmdOut = s.cmdOut := by simp [react]
@[simp] theorem react_env_words (s : State) : (react s).env.words = s.env.words := by simp [react]
@[simp] theorem react_env_turns (s : State) : (react s).env.turns = s.env.turns := by simp [react]
@[simp] theorem react_env_writes (s : State) : (react s).env.writes = s.env.writes := by simp [react]
@[simp] theorem react_env_reads (s : State) : (react s).env.reads = s.env.reads := by simp [react]
@[simp] theorem react_env_paces (s : State) : (react s).env.paces = s.env.paces := by simp [react]
@[simp] theorem react_env_reacts (s : State) : (react s).env.reacts = s.env.reacts.advance := by simp [react]
@[simp] theorem react_env_draws (s : State) : (react s).env.draws = s.env.draws := by simp [react]

@[simp] theorem assignDir_bus (i : Nat) (b : Bool) (s : State) : (assignDir i b s).bus = s.bus := by simp [assignDir]
@[simp] theorem assignDir_clkcfg (i : Nat) (b : Bool) (s : State) : (assignDir i b s).clkcfg = s.clkcfg := by simp [assignDir]
@[simp] theorem assignDir_fatal (i : Nat) (b : Bool) (s : State) : (assignDir i b s).fatal = s.fatal := by simp [assignDir]
@[simp] theorem assignDir_result (i : Nat) (b : Bool) (s : State) : (assignDir i b s).result = s.result := by simp [assignDir]
@[simp] theorem assignDir_pindir (i : Nat) (b : Bool) (s : State) : (assignDir i b s).pindir = withBit s.pindir i b := by simp [assignDir]
@[simp] theorem assignDir_pinval (i : Nat) (b : Bool) (s : State) : (assignDir i b s).pinval = s.pinval := by simp [assignDir]
@[simp] theorem assignDir_div (i : Nat) (b : Bool) (s : State) : (assignDir i b s).div = s.div := by simp [assignDir]
@[simp] theorem assignDir_div5 (i : Nat) (b : Bool) (s : State) : (assignDir i b s).div5 = s.div5 := by simp [assignDir]
@[simp] theorem assignDir_adapt (i : Nat) (b : Bool) (s : State) : (assignDir i b s).adapt = s.adapt := by simp [assignDir]
@[simp] theorem assignDir_ph3 (i : Nat) (b : Bool) (s : State) : (assignDir i b s).ph3 = s.ph3 := by simp [assignDir]
@[simp] theorem assignDir_rxsh (i : Nat) (b : Bool) (s : State) : (assignDir i b s).rxsh = s.rxsh := by simp [assignDir]
@[simp] theorem assignDir_cmdq (i : Nat) (b : Bool) (s : State) : (assignDir i b s).cmdq = s.cmdq := by simp [assignDir]
@[simp] theorem assignDir_rspq (i : Nat) (b : Bool) (s : State) : (assignDir i b s).rspq = s.rspq := by simp [assignDir]
@[simp] theorem assignDir_rspa (i : Nat) (b : Bool) (s : State) : (assignDir i b s).rspa = s.rspa := by simp [assignDir]
@[simp] theorem assignDir_tlow (i : Nat) (b : Bool) (s : State) : (assignDir i b s).tlow = s.tlow := by simp [assignDir]
@[simp] theorem assignDir_params (i : Nat) (b : Bool) (s : State) : (assignDir i b s).params = s.params := by simp [assignDir]
@[simp] theorem assignDir_cmdOut (i : Nat) (b : Bool) (s : State) : (assignDir i b s).cmdOut = s.cmdOut := by simp [assignDir]
@[simp] theorem assignDir_env_words (i : Nat) (b : Bool) (s : State) : (assignDir i b s).env.words = s.env.words := by simp [assignDir]
@[simp] theorem assignDir_env_turns (i : Nat) (b : Bool) (s : State) : (assignDir i b s).env.turns = s.env.turns := by simp [assignDir]
@[simp] theorem assignDir_env_writes (i : Nat) (b : Bool) (s : State) : (assignDir i b s).env.writes = s.env.writes := by simp [assignDir]
@[simp] theorem assignDir_env_reads (i : Nat) (b : Bool) (s : State) : (assignDir i b s).env.reads = s.env.reads := by simp [assignDir]
@[simp] theorem assignDir_env_paces (i : Nat) (b : Bool) (s : State) : (assignDir i b s).env.paces = s.env.paces := by simp [assignDir]
@[simp] theorem assignDir_env_reacts (i : Nat) (b : Bool) (s : State) : (assignDir i b s).env.reacts = s.env.reacts := by simp [assignDir]
@[simp] theorem assignDir_env_draws (i : Nat) (b : Bool) (s : State) : (assignDir i b s).env.draws = s.env.draws := by simp [assignDir]

@[simp] theorem assign_tlow (i : Nat) (b : Bool) (s : State) : (assign i b s).tlow = s.drawReact := by
  simp [assign, State.drawReact]
@[simp] theorem assign_bus (i : Nat) (b : Bool) (s : State) : (assign i b s).bus = s.bus := by simp [assign]
@[simp] theorem assign_clkcfg (i : Nat) (b : Bool) (s : State) : (assign i b s).clkcfg = s.clkcfg := by simp [assign]
@[simp] theorem assign_fatal (i : Nat) (b : Bool) (s : State) : (assign i b s).fatal = s.fatal := by simp [assign]
@[simp] theorem assign_result (i : Nat) (b : Bool) (s : State) : (assign i b s).result = s.result := by simp [assign]
@[simp] theorem assign_pindir (i : Nat) (b : Bool) (s : State) : (assign i b s).pindir = withBit s.pindir i b := by simp [assign]
@[simp] theorem assign_pinval (i : Nat) (b : Bool) (s : State) : (assign i b s).pinval = s.pinval := by simp [assign]
@[simp] theorem assign_div (i : Nat) (b : Bool) (s : State) : (assign i b s).div = s.div := by simp [assign]
@[simp] theorem assign_div5 (i : Nat) (b : Bool) (s : State) : (assign i b s).div5 = s.div5 := by simp [assign]
@[simp] theorem assign_adapt (i : Nat) (b : Bool) (s : State) : (assign i b s).adapt = s.adapt := by simp [assign]
@[simp] theorem assign_ph3 (i : Nat) (b : Bool) (s : State) : (assign i b s).ph3 = s.ph3 := by simp [assign]
@[simp] theorem assign_rxsh (i : Nat) (b : Bool) (s : State) : (assign i b s).rxsh = s.rxsh := by simp [assign]
@[simp] theorem assign_cmdq (i : Nat) (b : Bool) (s : State) : (assign i b s).cmdq = s.cmdq := by simp [assign]
@[simp] theorem assign_rspq (i : Nat) (b : Bool) (s : State) : (assign i b s).rspq = s.rspq := by simp [assign]
@[simp] theorem assign_rspa (i : Nat) (b : Bool) (s : State) : (assign i b s).rspa = s.rspa := by simp [assign]
@[simp] theorem assign_params (i : Nat) (b : Bool) (s : State) : (assign i b s).params = s.params := by simp [assign]
@[simp] theorem assign_cmdOut (i : Nat) (b : Bool) (s : State) : (assign i b s).cmdOut = s.cmdOut := by simp [assign]
@[simp] theorem assign_env_words (i : Nat) (b : Bool) (s : State) : (assign i b s).env.words = s.env.words := by simp [assign]
@[simp] theorem assign_env_turns (i : Nat) (b : Bool) (s : State) : (assign i b s).env.turns = s.env.turns := by simp [assign]
@[simp] theorem assign_env_writes (i : Nat) (b : Bool) (s : State) : (assign i b s).env.writes = s.env.writes := by simp [assign]
@[simp] theorem assign_env_reads (i : Nat) (b : Bool) (s : State) : (assign i b s).env.reads = s.env.reads := by simp [assign]
@[simp] theorem assign_env_paces (i : Nat) (b : Bool) (s : State) : (assign i b s).env.paces = s.env.paces := by simp [assign]
@[simp] theorem assign_env_reacts (i : Nat) (b : Bool) (s : State) : (assign i b s).env.reacts = s.env.reacts.advance := by simp [assign]
@[simp] theorem assign_env_draws (i : Nat) (b : Bool) (s : State) : (assign i b s).env.draws = s.env.draws := by simp [assign]

/-! ## Levels -/

theorem levels_eq {s t : State} (h1 : t.pindir = s.pindir) (h2 : t.pinval = s.pinval) (h3 : t.tlow = s.tlow) :
    t.levels = s.levels := by
  simp [State.levels, State.masterLow, h1, h2, h3]

@[simp] theorem recordChange_levels (a : Levels) (s : State) : (recordChange a s).levels = s.levels :=
  levels_eq (by simp) (by simp) (by simp)

/-- The levels with open-drain drivers (R34): SDA is released unless its direction bit or the target says low. -/
theorem levels_openDrain {s : State} (h : OpenDrain s) :
    s.levels = { sda := !(s.pindir.getLsbD 1 || s.tlow), scl := !s.pindir.getLsbD 0 } := by
  simp only [State.levels, State.masterLow, h.1, h.2]
  simp

@[simp] theorem withBit_zero_at_zero (v : Byte) (b : Bool) : (withBit v 0 b)[0] = b := by
  cases b <;> simp [withBit, byteBit]

theorem withBit_zero_zero (v : Byte) (b : Bool) : (withBit v 0 b).getLsbD 0 = b := by simp

@[simp] theorem withBit_zero_at_one (v : Byte) (b : Bool) : (withBit v 0 b)[1] = v[1] := by
  cases b <;> simp [withBit, byteBit]

theorem withBit_zero_one (v : Byte) (b : Bool) : (withBit v 0 b).getLsbD 1 = v.getLsbD 1 := by simp

@[simp] theorem withBit_one_at_zero (v : Byte) (b : Bool) : (withBit v 1 b)[0] = v[0] := by
  cases b <;> simp [withBit, byteBit]

theorem withBit_one_zero (v : Byte) (b : Bool) : (withBit v 1 b).getLsbD 0 = v.getLsbD 0 := by simp

@[simp] theorem withBit_one_at_one (v : Byte) (b : Bool) : (withBit v 1 b)[1] = b := by
  cases b <;> simp [withBit, byteBit]

theorem withBit_one_one (v : Byte) (b : Bool) : (withBit v 1 b).getLsbD 1 = b := by simp

theorem withBit_zero_high (v : Byte) (b : Bool) (i : Nat) (h : 2 ≤ i) : (withBit v 0 b).getLsbD i = v.getLsbD i := by
  by_cases hi : i < 8
  · cases b <;> interval_cases i <;> simp [withBit, byteBit]
  · simp [BitVec.getLsbD_of_ge _ _ (Nat.le_of_not_lt hi)]

theorem withBit_one_high (v : Byte) (b : Bool) (i : Nat) (h : 2 ≤ i) : (withBit v 1 b).getLsbD i = v.getLsbD i := by
  by_cases hi : i < 8
  · cases b <;> interval_cases i <;> simp [withBit, byteBit]
  · simp [BitVec.getLsbD_of_ge _ _ (Nat.le_of_not_lt hi)]

/-! ## The history -/

/-- The lines went from `s` to `t` through the level changes `ch`. -/
structure Path (s t : State) (ch : List Levels) : Prop where
  wave : t.wave = s.wave ++ ch
  last : ch.getLastD s.levels = t.levels

theorem Path.refl (s : State) : Path s s [] := ⟨by simp, rfl⟩

theorem Path.trans {s t u : State} {c d : List Levels} (h : Path s t c) (g : Path t u d) : Path s u (c ++ d) := by
  refine ⟨by rw [g.wave, h.wave, List.append_assoc], ?_⟩
  rw [← g.last, ← h.last]
  cases d with
  | nil => simp
  | cons x d => simp [List.getLastD_eq_getLast?, List.getLast?_append]

/-- A change of state that moves neither line nor history. -/
theorem Path.still {s t : State} (hw : t.wave = s.wave) (h1 : t.pindir = s.pindir) (h2 : t.pinval = s.pinval)
    (h3 : t.tlow = s.tlow) : Path s t [] :=
  ⟨by simp [hw], (levels_eq h1 h2 h3).symm⟩

theorem settingChanges_last (o : LineOrder) (a b : Levels) : (settingChanges o a b).getLastD a = b := by
  unfold settingChanges
  split
  · simpa
  · split <;> rfl

theorem recordChange_wave (a : Levels) (s : State) :
    (recordChange a s).wave = s.wave ++ settingChanges s.drawOrder a s.levels := by
  rcases recordChange_cases a s with h | h <;> rw [h] <;> rfl

theorem Path.recordChange {s t : State} (hw : t.wave = s.wave) :
    Path s (recordChange s.levels t) (settingChanges t.drawOrder s.levels t.levels) :=
  ⟨by rw [recordChange_wave, hw], by rw [settingChanges_last, recordChange_levels]⟩

theorem Path.setDrivers (dir val : Byte) (s : State) :
    Path s (setDrivers dir val s) (settingChanges s.drawOrder s.levels (setDrivers dir val s).levels) := by
  have h := Path.recordChange (s := s) (t := { s with pindir := dir, pinval := val }) rfl
  rwa [show (Machine.setDrivers dir val s).levels = ({ s with pindir := dir, pinval := val } : State).levels from
    levels_eq (by simp) (by simp) (by simp)]

theorem Path.targetDrives (b : Bool) (s : State) :
    Path s (targetDrives b s) (settingChanges s.drawOrder s.levels (targetDrives b s).levels) := by
  have h := Path.recordChange (s := s) (t := { s with tlow := b }) rfl
  rwa [show (Machine.targetDrives b s).levels = ({ s with tlow := b } : State).levels from
    levels_eq (by simp) (by simp) (by simp)]

theorem Path.react (s : State) : Path s (react s) (settingChanges s.drawOrder s.levels (react s).levels) :=
  (Path.still (s := s) (t := s.takeReact) rfl rfl rfl rfl).trans (Path.targetDrives s.drawReact s.takeReact)

theorem eventsFrom_append (a : Levels) (l m : List Levels) :
    eventsFrom a (l ++ m) = eventsFrom a l ++ eventsFrom (l.getLastD a) m := by
  induction l generalizing a with
  | nil => rfl
  | cons b l ih =>
    simp only [List.cons_append, eventsFrom, ih, List.append_assoc, List.getLastD_cons]

theorem dataStableFrom_append (a : Levels) (l m : List Levels) :
    dataStableFrom a (l ++ m) = (dataStableFrom a l && dataStableFrom (l.getLastD a) m) := by
  induction l generalizing a with
  | nil => simp [dataStableFrom]
  | cons b l ih =>
    simp only [List.cons_append, dataStableFrom, ih, Bool.and_assoc, List.getLastD_cons]

theorem oneAtATimeFrom_append (a : Levels) (l m : List Levels) :
    oneAtATimeFrom a (l ++ m) = (oneAtATimeFrom a l && oneAtATimeFrom (l.getLastD a) m) := by
  induction l generalizing a with
  | nil => simp [oneAtATimeFrom]
  | cons b l ih =>
    simp only [List.cons_append, oneAtATimeFrom, ih, Bool.and_assoc, List.getLastD_cons]

theorem settingChanges_oneAtATime (o : LineOrder) (a b : Levels) : oneAtATimeFrom a (settingChanges o a b) = true := by
  rcases a with ⟨a1, a2⟩; rcases b with ⟨b1, b2⟩
  cases o <;> cases a1 <;> cases a2 <;> cases b1 <;> cases b2 <;> decide

/-- The lines went from `s` to `t` one change at a time. -/
def Moves (s t : State) : Prop := ∃ ch, Path s t ch ∧ oneAtATimeFrom s.levels ch = true

theorem Moves.refl (s : State) : Moves s s := ⟨[], Path.refl s, rfl⟩

theorem Moves.trans {s t u : State} (h : Moves s t) (g : Moves t u) : Moves s u := by
  obtain ⟨c, hp, hc⟩ := h
  obtain ⟨d, gp, gc⟩ := g
  exact ⟨c ++ d, hp.trans gp, by rw [oneAtATimeFrom_append, hc, hp.last, gc]; rfl⟩

theorem Moves.still {s t : State} (hw : t.wave = s.wave) (h1 : t.pindir = s.pindir) (h2 : t.pinval = s.pinval)
    (h3 : t.tlow = s.tlow) : Moves s t :=
  ⟨[], Path.still hw h1 h2 h3, rfl⟩

theorem Moves.recordChange {s t : State} (hw : t.wave = s.wave) : Moves s (recordChange s.levels t) :=
  ⟨_, Path.recordChange hw, settingChanges_oneAtATime _ _ _⟩

theorem Moves.setDrivers (dir val : Byte) (s : State) : Moves s (setDrivers dir val s) := Moves.recordChange rfl
theorem Moves.targetDrives (b : Bool) (s : State) : Moves s (targetDrives b s) := Moves.recordChange rfl

theorem Moves.react (s : State) : Moves s (react s) :=
  (Moves.still (s := s) (t := s.takeReact) rfl rfl rfl rfl).trans (Moves.targetDrives _ _)

theorem Moves.assign (i : Nat) (b : Bool) (s : State) : Moves s (assign i b s) :=
  (Moves.setDrivers _ _ s).trans (Moves.react _)

/-- A history that was current stays current along moves of the lines (R124). -/
theorem Moves.waveCurrent {s t : State} (h : Moves s t) (hs : WaveCurrent s) : WaveCurrent t := by
  obtain ⟨ch, hp, hc⟩ := h
  obtain ⟨hl, ho⟩ := hs
  cases hw : s.wave with
  | nil => rw [hw] at hl; cases hl
  | cons a rest =>
    have hlast : rest.getLastD a = s.levels := by
      rw [hw] at hl
      cases rest with
      | nil => simpa using hl
      | cons b r =>
        rw [List.getLast?_cons_cons] at hl
        rw [List.getLastD_eq_getLast?, hl]; rfl
    refine ⟨?_, ?_⟩
    · rw [hp.wave, ← hp.last]
      cases ch with
      | nil => simpa using hl
      | cons b r =>
        obtain ⟨x, hx⟩ : ∃ x, (b :: r).getLast? = some x := ⟨_, List.getLast?_eq_some_getLast (by simp)⟩
        rw [List.getLast?_append, List.getLastD_eq_getLast?, hx]; rfl
    · rw [hp.wave, hw]
      rw [hw] at ho
      simp only [List.cons_append, oneAtATime, oneAtATimeFrom_append, hlast, hc, Bool.and_true] at ho ⊢
      exact ho

end Sys2Proof.Machine
end

