-- ==== Sys2Proof/Laws/Engine.lean ====
section
/-! SUPPORT. What each primitive command can do, and what several in a row can do (41_pin_commands R122 to R129). -/

namespace Sys2Proof.Machine

/-! ## Frames of the shift operations -/

@[simp] theorem clockOutBit_bus (b : Bool) (s : State) : (clockOutBit b s).bus = s.bus := by simp [clockOutBit]
@[simp] theorem clockOutBit_clkcfg (b : Bool) (s : State) : (clockOutBit b s).clkcfg = s.clkcfg := by simp [clockOutBit]
@[simp] theorem clockOutBit_fatal (b : Bool) (s : State) : (clockOutBit b s).fatal = s.fatal := by simp [clockOutBit]
@[simp] theorem clockOutBit_result (b : Bool) (s : State) : (clockOutBit b s).result = s.result := by simp [clockOutBit]
@[simp] theorem clockOutBit_pinval (b : Bool) (s : State) : (clockOutBit b s).pinval = s.pinval := by simp [clockOutBit]
@[simp] theorem clockOutBit_div (b : Bool) (s : State) : (clockOutBit b s).div = s.div := by simp [clockOutBit]
@[simp] theorem clockOutBit_div5 (b : Bool) (s : State) : (clockOutBit b s).div5 = s.div5 := by simp [clockOutBit]
@[simp] theorem clockOutBit_adapt (b : Bool) (s : State) : (clockOutBit b s).adapt = s.adapt := by simp [clockOutBit]
@[simp] theorem clockOutBit_ph3 (b : Bool) (s : State) : (clockOutBit b s).ph3 = s.ph3 := by simp [clockOutBit]
@[simp] theorem clockOutBit_rxsh (b : Bool) (s : State) : (clockOutBit b s).rxsh = s.rxsh := by simp [clockOutBit]
@[simp] theorem clockOutBit_cmdq (b : Bool) (s : State) : (clockOutBit b s).cmdq = s.cmdq := by simp [clockOutBit]
@[simp] theorem clockOutBit_rspq (b : Bool) (s : State) : (clockOutBit b s).rspq = s.rspq := by simp [clockOutBit]
@[simp] theorem clockOutBit_rspa (b : Bool) (s : State) : (clockOutBit b s).rspa = s.rspa := by simp [clockOutBit]
@[simp] theorem clockOutBit_params (b : Bool) (s : State) : (clockOutBit b s).params = s.params := by simp [clockOutBit]
@[simp] theorem clockOutBit_cmdOut (b : Bool) (s : State) : (clockOutBit b s).cmdOut = s.cmdOut := by simp [clockOutBit]
@[simp] theorem clockOutBit_env_words (b : Bool) (s : State) : (clockOutBit b s).env.words = s.env.words := by simp [clockOutBit]
@[simp] theorem clockOutBit_env_turns (b : Bool) (s : State) : (clockOutBit b s).env.turns = s.env.turns := by simp [clockOutBit]
@[simp] theorem clockOutBit_env_writes (b : Bool) (s : State) : (clockOutBit b s).env.writes = s.env.writes := by simp [clockOutBit]
@[simp] theorem clockOutBit_env_reads (b : Bool) (s : State) : (clockOutBit b s).env.reads = s.env.reads := by simp [clockOutBit]
@[simp] theorem clockOutBit_env_paces (b : Bool) (s : State) : (clockOutBit b s).env.paces = s.env.paces := by simp [clockOutBit]
@[simp] theorem clockOutBit_env_draws (b : Bool) (s : State) : (clockOutBit b s).env.draws = s.env.draws := by simp [clockOutBit]

@[simp] theorem clockOut_bus (l : List Bool) (s : State) : (clockOut l s).bus = s.bus := by
  induction l generalizing s with
  | nil => rfl
  | cons b l ih => simp [clockOut, ih]
@[simp] theorem clockOut_clkcfg (l : List Bool) (s : State) : (clockOut l s).clkcfg = s.clkcfg := by
  induction l generalizing s with
  | nil => rfl
  | cons b l ih => simp [clockOut, ih]
@[simp] theorem clockOut_fatal (l : List Bool) (s : State) : (clockOut l s).fatal = s.fatal := by
  induction l generalizing s with
  | nil => rfl
  | cons b l ih => simp [clockOut, ih]
@[simp] theorem clockOut_result (l : List Bool) (s : State) : (clockOut l s).result = s.result := by
  induction l generalizing s with
  | nil => rfl
  | cons b l ih => simp [clockOut, ih]
@[simp] theorem clockOut_pinval (l : List Bool) (s : State) : (clockOut l s).pinval = s.pinval := by
  induction l generalizing s with
  | nil => rfl
  | cons b l ih => simp [clockOut, ih]
@[simp] theorem clockOut_div (l : List Bool) (s : State) : (clockOut l s).div = s.div := by
  induction l generalizing s with
  | nil => rfl
  | cons b l ih => simp [clockOut, ih]
@[simp] theorem clockOut_div5 (l : List Bool) (s : State) : (clockOut l s).div5 = s.div5 := by
  induction l generalizing s with
  | nil => rfl
  | cons b l ih => simp [clockOut, ih]
@[simp] theorem clockOut_adapt (l : List Bool) (s : State) : (clockOut l s).adapt = s.adapt := by
  induction l generalizing s with
  | nil => rfl
  | cons b l ih => simp [clockOut, ih]
@[simp] theorem clockOut_ph3 (l : List Bool) (s : State) : (clockOut l s).ph3 = s.ph3 := by
  induction l generalizing s with
  | nil => rfl
  | cons b l ih => simp [clockOut, ih]
@[simp] theorem clockOut_rxsh (l : List Bool) (s : State) : (clockOut l s).rxsh = s.rxsh := by
  induction l generalizing s with
  | nil => rfl
  | cons b l ih => simp [clockOut, ih]
@[simp] theorem clockOut_cmdq (l : List Bool) (s : State) : (clockOut l s).cmdq = s.cmdq := by
  induction l generalizing s with
  | nil => rfl
  | cons b l ih => simp [clockOut, ih]
@[simp] theorem clockOut_rspq (l : List Bool) (s : State) : (clockOut l s).rspq = s.rspq := by
  induction l generalizing s with
  | nil => rfl
  | cons b l ih => simp [clockOut, ih]
@[simp] theorem clockOut_rspa (l : List Bool) (s : State) : (clockOut l s).rspa = s.rspa := by
  induction l generalizing s with
  | nil => rfl
  | cons b l ih => simp [clockOut, ih]
@[simp] theorem clockOut_params (l : List Bool) (s : State) : (clockOut l s).params = s.params := by
  induction l generalizing s with
  | nil => rfl
  | cons b l ih => simp [clockOut, ih]
@[simp] theorem clockOut_cmdOut (l : List Bool) (s : State) : (clockOut l s).cmdOut = s.cmdOut := by
  induction l generalizing s with
  | nil => rfl
  | cons b l ih => simp [clockOut, ih]
@[simp] theorem clockOut_env_words (l : List Bool) (s : State) : (clockOut l s).env.words = s.env.words := by
  induction l generalizing s with
  | nil => rfl
  | cons b l ih => simp [clockOut, ih]
@[simp] theorem clockOut_env_turns (l : List Bool) (s : State) : (clockOut l s).env.turns = s.env.turns := by
  induction l generalizing s with
  | nil => rfl
  | cons b l ih => simp [clockOut, ih]
@[simp] theorem clockOut_env_writes (l : List Bool) (s : State) : (clockOut l s).env.writes = s.env.writes := by
  induction l generalizing s with
  | nil => rfl
  | cons b l ih => simp [clockOut, ih]
@[simp] theorem clockOut_env_reads (l : List Bool) (s : State) : (clockOut l s).env.reads = s.env.reads := by
  induction l generalizing s with
  | nil => rfl
  | cons b l ih => simp [clockOut, ih]
@[simp] theorem clockOut_env_paces (l : List Bool) (s : State) : (clockOut l s).env.paces = s.env.paces := by
  induction l generalizing s with
  | nil => rfl
  | cons b l ih => simp [clockOut, ih]
@[simp] theorem clockOut_env_draws (l : List Bool) (s : State) : (clockOut l s).env.draws = s.env.draws := by
  induction l generalizing s with
  | nil => rfl
  | cons b l ih => simp [clockOut, ih]

@[simp] theorem clockInBit_bus (s : State) : (clockInBit s).bus = s.bus := by simp [clockInBit]
@[simp] theorem clockInBit_clkcfg (s : State) : (clockInBit s).clkcfg = s.clkcfg := by simp [clockInBit]
@[simp] theorem clockInBit_fatal (s : State) : (clockInBit s).fatal = s.fatal := by simp [clockInBit]
@[simp] theorem clockInBit_result (s : State) : (clockInBit s).result = s.result := by simp [clockInBit]
@[simp] theorem clockInBit_pinval (s : State) : (clockInBit s).pinval = s.pinval := by simp [clockInBit]
@[simp] theorem clockInBit_div (s : State) : (clockInBit s).div = s.div := by simp [clockInBit]
@[simp] theorem clockInBit_div5 (s : State) : (clockInBit s).div5 = s.div5 := by simp [clockInBit]
@[simp] theorem clockInBit_adapt (s : State) : (clockInBit s).adapt = s.adapt := by simp [clockInBit]
@[simp] theorem clockInBit_ph3 (s : State) : (clockInBit s).ph3 = s.ph3 := by simp [clockInBit]
@[simp] theorem clockInBit_cmdq (s : State) : (clockInBit s).cmdq = s.cmdq := by simp [clockInBit]
@[simp] theorem clockInBit_rspq (s : State) : (clockInBit s).rspq = s.rspq := by simp [clockInBit]
@[simp] theorem clockInBit_rspa (s : State) : (clockInBit s).rspa = s.rspa := by simp [clockInBit]
@[simp] theorem clockInBit_params (s : State) : (clockInBit s).params = s.params := by simp [clockInBit]
@[simp] theorem clockInBit_cmdOut (s : State) : (clockInBit s).cmdOut = s.cmdOut := by simp [clockInBit]
@[simp] theorem clockInBit_env_words (s : State) : (clockInBit s).env.words = s.env.words := by simp [clockInBit]
@[simp] theorem clockInBit_env_turns (s : State) : (clockInBit s).env.turns = s.env.turns := by simp [clockInBit]
@[simp] theorem clockInBit_env_writes (s : State) : (clockInBit s).env.writes = s.env.writes := by simp [clockInBit]
@[simp] theorem clockInBit_env_reads (s : State) : (clockInBit s).env.reads = s.env.reads := by simp [clockInBit]
@[simp] theorem clockInBit_env_paces (s : State) : (clockInBit s).env.paces = s.env.paces := by simp [clockInBit]
@[simp] theorem clockInBit_env_draws (s : State) : (clockInBit s).env.draws = s.env.draws := by simp [clockInBit]

@[simp] theorem timesClockInBit_bus (n : Nat) (s : State) : (times n clockInBit s).bus = s.bus := by
  induction n generalizing s with
  | zero => rfl
  | succ n ih => simp [times, ih]
@[simp] theorem timesClockInBit_clkcfg (n : Nat) (s : State) : (times n clockInBit s).clkcfg = s.clkcfg := by
  induction n generalizing s with
  | zero => rfl
  | succ n ih => simp [times, ih]
@[simp] theorem timesClockInBit_fatal (n : Nat) (s : State) : (times n clockInBit s).fatal = s.fatal := by
  induction n generalizing s with
  | zero => rfl
  | succ n ih => simp [times, ih]
@[simp] theorem timesClockInBit_result (n : Nat) (s : State) : (times n clockInBit s).result = s.result := by
  induction n generalizing s with
  | zero => rfl
  | succ n ih => simp [times, ih]
@[simp] theorem timesClockInBit_pinval (n : Nat) (s : State) : (times n clockInBit s).pinval = s.pinval := by
  induction n generalizing s with
  | zero => rfl
  | succ n ih => simp [times, ih]
@[simp] theorem timesClockInBit_div (n : Nat) (s : State) : (times n clockInBit s).div = s.div := by
  induction n generalizing s with
  | zero => rfl
  | succ n ih => simp [times, ih]
@[simp] theorem timesClockInBit_div5 (n : Nat) (s : State) : (times n clockInBit s).div5 = s.div5 := by
  induction n generalizing s with
  | zero => rfl
  | succ n ih => simp [times, ih]
@[simp] theorem timesClockInBit_adapt (n : Nat) (s : State) : (times n clockInBit s).adapt = s.adapt := by
  induction n generalizing s with
  | zero => rfl
  | succ n ih => simp [times, ih]
@[simp] theorem timesClockInBit_ph3 (n : Nat) (s : State) : (times n clockInBit s).ph3 = s.ph3 := by
  induction n generalizing s with
  | zero => rfl
  | succ n ih => simp [times, ih]
@[simp] theorem timesClockInBit_cmdq (n : Nat) (s : State) : (times n clockInBit s).cmdq = s.cmdq := by
  induction n generalizing s with
  | zero => rfl
  | succ n ih => simp [times, ih]
@[simp] theorem timesClockInBit_rspq (n : Nat) (s : State) : (times n clockInBit s).rspq = s.rspq := by
  induction n generalizing s with
  | zero => rfl
  | succ n ih => simp [times, ih]
@[simp] theorem timesClockInBit_rspa (n : Nat) (s : State) : (times n clockInBit s).rspa = s.rspa := by
  induction n generalizing s with
  | zero => rfl
  | succ n ih => simp [times, ih]
@[simp] theorem timesClockInBit_params (n : Nat) (s : State) : (times n clockInBit s).params = s.params := by
  induction n generalizing s with
  | zero => rfl
  | succ n ih => simp [times, ih]
@[simp] theorem timesClockInBit_cmdOut (n : Nat) (s : State) : (times n clockInBit s).cmdOut = s.cmdOut := by
  induction n generalizing s with
  | zero => rfl
  | succ n ih => simp [times, ih]
@[simp] theorem timesClockInBit_env_words (n : Nat) (s : State) : (times n clockInBit s).env.words = s.env.words := by
  induction n generalizing s with
  | zero => rfl
  | succ n ih => simp [times, ih]
@[simp] theorem timesClockInBit_env_turns (n : Nat) (s : State) : (times n clockInBit s).env.turns = s.env.turns := by
  induction n generalizing s with
  | zero => rfl
  | succ n ih => simp [times, ih]
@[simp] theorem timesClockInBit_env_writes (n : Nat) (s : State) : (times n clockInBit s).env.writes = s.env.writes := by
  induction n generalizing s with
  | zero => rfl
  | succ n ih => simp [times, ih]
@[simp] theorem timesClockInBit_env_reads (n : Nat) (s : State) : (times n clockInBit s).env.reads = s.env.reads := by
  induction n generalizing s with
  | zero => rfl
  | succ n ih => simp [times, ih]
@[simp] theorem timesClockInBit_env_paces (n : Nat) (s : State) : (times n clockInBit s).env.paces = s.env.paces := by
  induction n generalizing s with
  | zero => rfl
  | succ n ih => simp [times, ih]
@[simp] theorem timesClockInBit_env_draws (n : Nat) (s : State) : (times n clockInBit s).env.draws = s.env.draws := by
  induction n generalizing s with
  | zero => rfl
  | succ n ih => simp [times, ih]

@[simp] theorem clockIn_bus (n : Nat) (s : State) : (clockIn n s).bus = s.bus := by simp [clockIn]
@[simp] theorem clockIn_clkcfg (n : Nat) (s : State) : (clockIn n s).clkcfg = s.clkcfg := by simp [clockIn]
@[simp] theorem clockIn_fatal (n : Nat) (s : State) : (clockIn n s).fatal = s.fatal := by simp [clockIn]
@[simp] theorem clockIn_result (n : Nat) (s : State) : (clockIn n s).result = s.result := by simp [clockIn]
@[simp] theorem clockIn_pinval (n : Nat) (s : State) : (clockIn n s).pinval = s.pinval := by simp [clockIn]
@[simp] theorem clockIn_div (n : Nat) (s : State) : (clockIn n s).div = s.div := by simp [clockIn]
@[simp] theorem clockIn_div5 (n : Nat) (s : State) : (clockIn n s).div5 = s.div5 := by simp [clockIn]
@[simp] theorem clockIn_adapt (n : Nat) (s : State) : (clockIn n s).adapt = s.adapt := by simp [clockIn]
@[simp] theorem clockIn_ph3 (n : Nat) (s : State) : (clockIn n s).ph3 = s.ph3 := by simp [clockIn]
@[simp] theorem clockIn_cmdq (n : Nat) (s : State) : (clockIn n s).cmdq = s.cmdq := by simp [clockIn]
@[simp] theorem clockIn_rspq (n : Nat) (s : State) : (clockIn n s).rspq = s.rspq := by simp [clockIn]
@[simp] theorem clockIn_rspa (n : Nat) (s : State) : (clockIn n s).rspa = s.rspa := by simp [clockIn]
@[simp] theorem clockIn_params (n : Nat) (s : State) : (clockIn n s).params = s.params := by simp [clockIn]
@[simp] theorem clockIn_cmdOut (n : Nat) (s : State) : (clockIn n s).cmdOut = s.cmdOut := by simp [clockIn]
@[simp] theorem clockIn_env_words (n : Nat) (s : State) : (clockIn n s).env.words = s.env.words := by simp [clockIn]
@[simp] theorem clockIn_env_turns (n : Nat) (s : State) : (clockIn n s).env.turns = s.env.turns := by simp [clockIn]
@[simp] theorem clockIn_env_writes (n : Nat) (s : State) : (clockIn n s).env.writes = s.env.writes := by simp [clockIn]
@[simp] theorem clockIn_env_reads (n : Nat) (s : State) : (clockIn n s).env.reads = s.env.reads := by simp [clockIn]
@[simp] theorem clockIn_env_paces (n : Nat) (s : State) : (clockIn n s).env.paces = s.env.paces := by simp [clockIn]
@[simp] theorem clockIn_env_draws (n : Nat) (s : State) : (clockIn n s).env.draws = s.env.draws := by simp [clockIn]

@[simp] theorem respondBit_bus (s : State) : (respondBit s).bus = s.bus := by simp [respondBit]
@[simp] theorem respondBit_clkcfg (s : State) : (respondBit s).clkcfg = s.clkcfg := by simp [respondBit]
@[simp] theorem respondBit_fatal (s : State) : (respondBit s).fatal = s.fatal := by simp [respondBit]
@[simp] theorem respondBit_result (s : State) : (respondBit s).result = s.result := by simp [respondBit]
@[simp] theorem respondBit_pindir (s : State) : (respondBit s).pindir = s.pindir := by simp [respondBit]
@[simp] theorem respondBit_pinval (s : State) : (respondBit s).pinval = s.pinval := by simp [respondBit]
@[simp] theorem respondBit_div (s : State) : (respondBit s).div = s.div := by simp [respondBit]
@[simp] theorem respondBit_div5 (s : State) : (respondBit s).div5 = s.div5 := by simp [respondBit]
@[simp] theorem respondBit_adapt (s : State) : (respondBit s).adapt = s.adapt := by simp [respondBit]
@[simp] theorem respondBit_ph3 (s : State) : (respondBit s).ph3 = s.ph3 := by simp [respondBit]
@[simp] theorem respondBit_rxsh (s : State) : (respondBit s).rxsh = s.rxsh := by simp [respondBit]
@[simp] theorem respondBit_cmdq (s : State) : (respondBit s).cmdq = s.cmdq := by simp [respondBit]
@[simp] theorem respondBit_rspa (s : State) : (respondBit s).rspa = s.rspa := by simp [respondBit]
@[simp] theorem respondBit_tlow (s : State) : (respondBit s).tlow = s.tlow := by simp [respondBit]
@[simp] theorem respondBit_params (s : State) : (respondBit s).params = s.params := by simp [respondBit]
@[simp] theorem respondBit_cmdOut (s : State) : (respondBit s).cmdOut = s.cmdOut := by simp [respondBit]
@[simp] theorem respondBit_env_words (s : State) : (respondBit s).env.words = s.env.words := by simp [respondBit]
@[simp] theorem respondBit_env_turns (s : State) : (respondBit s).env.turns = s.env.turns := by simp [respondBit]
@[simp] theorem respondBit_env_writes (s : State) : (respondBit s).env.writes = s.env.writes := by simp [respondBit]
@[simp] theorem respondBit_env_reads (s : State) : (respondBit s).env.reads = s.env.reads := by simp [respondBit]
@[simp] theorem respondBit_env_paces (s : State) : (respondBit s).env.paces = s.env.paces := by simp [respondBit]

@[simp] theorem respondByte_bus (s : State) : (respondByte s).bus = s.bus := by simp [respondByte]
@[simp] theorem respondByte_clkcfg (s : State) : (respondByte s).clkcfg = s.clkcfg := by simp [respondByte]
@[simp] theorem respondByte_fatal (s : State) : (respondByte s).fatal = s.fatal := by simp [respondByte]
@[simp] theorem respondByte_result (s : State) : (respondByte s).result = s.result := by simp [respondByte]
@[simp] theorem respondByte_pindir (s : State) : (respondByte s).pindir = s.pindir := by simp [respondByte]
@[simp] theorem respondByte_pinval (s : State) : (respondByte s).pinval = s.pinval := by simp [respondByte]
@[simp] theorem respondByte_div (s : State) : (respondByte s).div = s.div := by simp [respondByte]
@[simp] theorem respondByte_div5 (s : State) : (respondByte s).div5 = s.div5 := by simp [respondByte]
@[simp] theorem respondByte_adapt (s : State) : (respondByte s).adapt = s.adapt := by simp [respondByte]
@[simp] theorem respondByte_ph3 (s : State) : (respondByte s).ph3 = s.ph3 := by simp [respondByte]
@[simp] theorem respondByte_rxsh (s : State) : (respondByte s).rxsh = s.rxsh := by simp [respondByte]
@[simp] theorem respondByte_cmdq (s : State) : (respondByte s).cmdq = s.cmdq := by simp [respondByte]
@[simp] theorem respondByte_rspa (s : State) : (respondByte s).rspa = s.rspa := by simp [respondByte]
@[simp] theorem respondByte_tlow (s : State) : (respondByte s).tlow = s.tlow := by simp [respondByte]
@[simp] theorem respondByte_params (s : State) : (respondByte s).params = s.params := by simp [respondByte]
@[simp] theorem respondByte_cmdOut (s : State) : (respondByte s).cmdOut = s.cmdOut := by simp [respondByte]
@[simp] theorem respondByte_env_words (s : State) : (respondByte s).env.words = s.env.words := by simp [respondByte]
@[simp] theorem respondByte_env_turns (s : State) : (respondByte s).env.turns = s.env.turns := by simp [respondByte]
@[simp] theorem respondByte_env_writes (s : State) : (respondByte s).env.writes = s.env.writes := by simp [respondByte]
@[simp] theorem respondByte_env_reads (s : State) : (respondByte s).env.reads = s.env.reads := by simp [respondByte]
@[simp] theorem respondByte_env_paces (s : State) : (respondByte s).env.paces = s.env.paces := by simp [respondByte]

@[simp] theorem respondBit_wave (s : State) : (respondBit s).wave = s.wave := rfl
@[simp] theorem respondByte_wave (s : State) : (respondByte s).wave = s.wave := rfl

/-! ## The drivers after a shift -/

theorem clockOutBit_pindir (b : Bool) (s : State) :
    (clockOutBit b s).pindir.getLsbD 0 = true ∧ (clockOutBit b s).pindir.getLsbD 1 = !b ∧
    ∀ i, 2 ≤ i → (clockOutBit b s).pindir.getLsbD i = s.pindir.getLsbD i := by
  refine ⟨by simp [clockOutBit], by simp [clockOutBit], fun i h => ?_⟩
  simp only [clockOutBit, assign_pindir, withBit_zero_high _ _ i h, withBit_one_high _ _ i h]

theorem clockOut_pindir (l : List Bool) (s : State) (h : s.pindir.getLsbD 0 = true) :
    (clockOut l s).pindir.getLsbD 0 = true ∧
    (∀ b, l.getLast? = some b → (clockOut l s).pindir.getLsbD 1 = !b) ∧
    ∀ i, 2 ≤ i → (clockOut l s).pindir.getLsbD i = s.pindir.getLsbD i := by
  induction l generalizing s with
  | nil => exact ⟨h, by simp, fun _ _ => rfl⟩
  | cons b l ih =>
    obtain ⟨b0, b1, bh⟩ := clockOutBit_pindir b s
    obtain ⟨i0, i1, ihh⟩ := ih _ b0
    refine ⟨i0, fun c hc => ?_, fun i hi => (ihh i hi).trans (bh i hi)⟩
    cases l with
    | nil => cases hc; exact b1
    | cons d l => exact i1 c (by rwa [List.getLast?_cons_cons] at hc)

theorem clockInBit_pindir (s : State) :
    (clockInBit s).pindir.getLsbD 0 = true ∧ (clockInBit s).pindir.getLsbD 1 = s.pindir.getLsbD 1 ∧
    ∀ i, 2 ≤ i → (clockInBit s).pindir.getLsbD i = s.pindir.getLsbD i := by
  refine ⟨by simp [clockInBit], by simp [clockInBit], fun i h => ?_⟩
  simp only [clockInBit, assign_pindir, react_pindir, sampleSda_pindir, assignDir_pindir, withBit_zero_high _ _ i h]

theorem timesClockInBit_pindir (n : Nat) (s : State) (h : s.pindir.getLsbD 0 = true) :
    (times n clockInBit s).pindir.getLsbD 0 = true ∧ (times n clockInBit s).pindir.getLsbD 1 = s.pindir.getLsbD 1 ∧
    ∀ i, 2 ≤ i → (times n clockInBit s).pindir.getLsbD i = s.pindir.getLsbD i := by
  induction n generalizing s with
  | zero => exact ⟨h, rfl, fun _ _ => rfl⟩
  | succ n ih =>
    obtain ⟨b0, b1, bh⟩ := clockInBit_pindir s
    obtain ⟨i0, i1, ihh⟩ := ih _ b0
    exact ⟨i0, i1.trans b1, fun i hi => (ihh i hi).trans (bh i hi)⟩

theorem clockIn_pindir (n : Nat) (s : State) (h : s.pindir.getLsbD 0 = true) :
    (clockIn n s).pindir.getLsbD 0 = true ∧ (clockIn n s).pindir.getLsbD 1 = false ∧
    ∀ i, 2 ≤ i → (clockIn n s).pindir.getLsbD i = s.pindir.getLsbD i := by
  obtain ⟨h0, h1, hh⟩ := timesClockInBit_pindir n (assign 1 false s) (by simpa using h)
  refine ⟨h0, h1.trans (by simp), fun i hi => (hh i hi).trans ?_⟩
  rw [assign_pindir, withBit_one_high _ _ i hi]

/-! ## Moves of the lines -/

theorem Moves.clockOutBit (b : Bool) (s : State) : Moves s (clockOutBit b s) :=
  ((Moves.assign _ _ _).trans (Moves.assign _ _ _)).trans (Moves.assign _ _ _)

theorem Moves.clockOut (l : List Bool) (s : State) : Moves s (clockOut l s) := by
  induction l generalizing s with
  | nil => exact Moves.refl s
  | cons b l ih => exact (Moves.clockOutBit b s).trans (ih _)

theorem Moves.clockInBit (s : State) : Moves s (clockInBit s) := by
  have h1 : Moves s (assignDir 0 false s) := Moves.setDrivers _ _ s
  have h2 : Moves (assignDir 0 false s) (sampleSda (assignDir 0 false s)) := Moves.still rfl rfl rfl rfl
  exact ((h1.trans h2).trans (Moves.react _)).trans (Moves.assign _ _ _)

theorem Moves.clockIn (n : Nat) (s : State) : Moves s (clockIn n s) := by
  have h : ∀ t, Moves t (times n Machine.clockInBit t) := by
    induction n with
    | zero => exact fun t => Moves.refl t
    | succ n ih => exact fun t => (Moves.clockInBit t).trans (ih _)
  exact (Moves.assign 1 false s).trans (h _)

/-! ## What a command leaves alone -/

/-- `t` agrees with `s` on all that belongs to Stage S, its inputs, the queue of commands and the parameters. -/
structure SameStageS (s t : State) : Prop where
  bus    : t.bus = s.bus
  clkcfg : t.clkcfg = s.clkcfg
  fatal  : t.fatal = s.fatal
  result : t.result = s.result
  cmdOut : t.cmdOut = s.cmdOut
  params : t.params = s.params
  words  : t.env.words = s.env.words
  turns  : t.env.turns = s.env.turns
  writes : t.env.writes = s.env.writes
  reads  : t.env.reads = s.env.reads
  paces  : t.env.paces = s.env.paces

theorem SameStageS.refl (s : State) : SameStageS s s := ⟨rfl, rfl, rfl, rfl, rfl, rfl, rfl, rfl, rfl, rfl, rfl⟩

theorem SameStageS.trans {s t u : State} (h : SameStageS s t) (g : SameStageS t u) : SameStageS s u :=
  ⟨g.bus.trans h.bus, g.clkcfg.trans h.clkcfg, g.fatal.trans h.fatal, g.result.trans h.result,
    g.cmdOut.trans h.cmdOut, g.params.trans h.params, g.words.trans h.words, g.turns.trans h.turns,
    g.writes.trans h.writes, g.reads.trans h.reads, g.paces.trans h.paces⟩

theorem shiftRefusal_eq_none {s : State} :
    shiftRefusal s = none ↔ s.pindir.getLsbD 0 = true ∧ s.shiftReady.modesSet = true := by
  have : s.modesSet = s.shiftReady.modesSet := rfl
  unfold shiftRefusal
  cases s.pindir.getLsbD 0 <;> cases h : s.modesSet <;> simp_all

/-- What a command that goes on can do: it leaves Stage S and the queue alone, moves the lines one at a time, and makes
responses or releases them. -/
theorem engineExec_next {i : Instr} {s t : State} (h : engineExec i s = .next t) :
    SameStageS s t ∧ t.cmdq = s.cmdq ∧ Moves s t := by
  cases i <;> simp only [engineExec] at h
  case pin dir val =>
    unfold execPin at h
    split at h <;> cases h
    exact ⟨by constructor <;> simp, by simp, (Moves.setDrivers _ _ _).trans (Moves.react _)⟩
  case clkOut8 v =>
    obtain ⟨_, h⟩ := unlessRefused_eq_next.mp h
    cases h
    exact ⟨by constructor <;> simp, by simp, Moves.clockOut _ _⟩
  case clkIn1 =>
    obtain ⟨_, h⟩ := unlessRefused_eq_next.mp h
    cases h
    exact ⟨by constructor <;> simp, by simp, (Moves.clockIn 1 _).trans (Moves.still (by simp) (by simp) (by simp) (by simp))⟩
  case clkIn8 =>
    obtain ⟨_, h⟩ := unlessRefused_eq_next.mp h
    cases h
    exact ⟨by constructor <;> simp, by simp, (Moves.clockIn 8 _).trans (Moves.still (by simp) (by simp) (by simp) (by simp))⟩
  case flush => cases h; exact ⟨by constructor <;> rfl, rfl, Moves.still rfl rfl rfl rfl⟩
  case div5Off => cases h; exact ⟨by constructor <;> rfl, rfl, Moves.still rfl rfl rfl rfl⟩
  case adaptOff => cases h; exact ⟨by constructor <;> rfl, rfl, Moves.still rfl rfl rfl rfl⟩
  case ph3On => cases h; exact ⟨by constructor <;> rfl, rfl, Moves.still rfl rfl rfl rfl⟩
  case setDiv d => cases h; exact ⟨by constructor <;> rfl, rfl, Moves.still rfl rfl rfl rfl⟩
  all_goals cases h

/-- A command that passes the tested facts goes on, and leaves the tested facts as `after` says. -/
theorem engineExec_ready {i : Instr} {s : State} {r : ShiftReady} (h : s.shiftReady.after i = some r) :
    ∃ t, engineExec i s = .next t ∧ t.shiftReady = r ∧ (OpenDrain s → OpenDrain t) := by
  cases i <;> simp only [ShiftReady.after] at h
  case pin dir val =>
    split at h <;> cases h
    rename_i hv
    simp only [Bool.and_eq_true, Bool.not_eq_true'] at hv
    refine ⟨react (setDrivers dir val s), ?_, ?_, fun _ => ?_⟩
    · simp only [engineExec, execPin, openDrainMasks, drivesHigh, hv.1, hv.2, Bool.and_false, Bool.not_false, Bool.and_self, if_true]
    · simp [State.shiftReady]
    · simpa [OpenDrain] using hv
  case clkOut8 v =>
    split at h <;> cases h
    rename_i hr
    simp only [Bool.and_eq_true] at hr
    refine ⟨clockOut (bitsMsbFirst v) s, ?_, ?_, fun ho => ?_⟩
    · simp [engineExec, execClkOut8, shiftRefusal_eq_none.mpr hr]
    · simp only [State.shiftReady, clockOut_div5, clockOut_adapt, clockOut_ph3, (clockOut_pindir _ _ hr.1).1,
        show s.pindir.getLsbD 0 = true from hr.1]
    · simpa [OpenDrain] using ho
  case clkIn1 =>
    split at h <;> cases h
    rename_i hr
    simp only [Bool.and_eq_true] at hr
    refine ⟨respondBit (clockIn 1 s), ?_, ?_, fun ho => ?_⟩
    · simp [engineExec, execClkIn1, shiftRefusal_eq_none.mpr hr]
    · simp only [State.shiftReady, respondBit_pindir, respondBit_div5, respondBit_adapt, respondBit_ph3, clockIn_div5,
        clockIn_adapt, clockIn_ph3, (clockIn_pindir _ _ hr.1).1, show s.pindir.getLsbD 0 = true from hr.1]
    · simpa [OpenDrain] using ho
  case clkIn8 =>
    split at h <;> cases h
    rename_i hr
    simp only [Bool.and_eq_true] at hr
    refine ⟨respondByte (clockIn 8 s), ?_, ?_, fun ho => ?_⟩
    · simp [engineExec, execClkIn8, shiftRefusal_eq_none.mpr hr]
    · simp only [State.shiftReady, respondByte_pindir, respondByte_div5, respondByte_adapt, respondByte_ph3,
        clockIn_div5, clockIn_adapt, clockIn_ph3, (clockIn_pindir _ _ hr.1).1,
        show s.pindir.getLsbD 0 = true from hr.1]
    · simpa [OpenDrain] using ho
  case flush => cases h; exact ⟨_, rfl, rfl, id⟩
  case div5Off => cases h; exact ⟨_, rfl, rfl, id⟩
  case adaptOff => cases h; exact ⟨_, rfl, rfl, id⟩
  case ph3On => cases h; exact ⟨_, rfl, rfl, id⟩
  case setDiv d => cases h; exact ⟨_, rfl, rfl, id⟩
  all_goals cases h

/-! ## Stage P's steps -/

/-- Stage P's own execution is exec on the nine commands (R129). -/
theorem engineExec_eq_exec {i : Instr} (h : i.isHost = false) (s : State) : engineExec i s = exec i s := by
  cases i <;> first | rfl | cases h

theorem decodePin_command {l rest : List Byte} {i : Instr} (h : decodePin l = .command i rest) :
    i.isHost = false ∧ rest <:+ l := by
  unfold decodePin at h
  split at h <;> cases h
  exact ⟨rfl, ⟨[_, _], rfl⟩⟩

theorem decodeClkOut_command {l rest : List Byte} {i : Instr} (h : decodeClkOut l = .command i rest) :
    i.isHost = false ∧ rest <:+ l := by
  unfold decodeClkOut at h
  split at h
  · split at h <;> cases h
    exact ⟨rfl, ⟨[_, _, _], rfl⟩⟩
  · cases h

theorem decodeClkIn_command {l rest : List Byte} {i : Instr} (h : decodeClkIn l = .command i rest) :
    i.isHost = false ∧ rest <:+ l := by
  unfold decodeClkIn at h
  split at h
  · split at h
    · cases h; exact ⟨rfl, ⟨[_], rfl⟩⟩
    · split at h <;> cases h
      exact ⟨rfl, ⟨[_], rfl⟩⟩
  · cases h

theorem decodeSetDiv_command {l rest : List Byte} {i : Instr} (h : decodeSetDiv l = .command i rest) :
    i.isHost = false ∧ rest <:+ l := by
  unfold decodeSetDiv at h
  split at h <;> cases h
  exact ⟨rfl, ⟨[_, _], rfl⟩⟩

/-- What the decoder gives from the queue is a primitive command, and the rest is the queue's end (R88). -/
theorem decodeCommand_command {o : Opcodes} {l rest : List Byte} {i : Instr} (h : decodeCommand o l = .command i rest) :
    i.isHost = false ∧ rest <:+ l := by
  cases l with
  | nil => cases h
  | cons b l =>
    have up : ∀ {m : List Byte}, m <:+ l → m <:+ b :: l := fun hm => hm.trans ⟨[b], rfl⟩
    simp only [decodeCommand] at h
    split at h
    · exact ⟨(decodePin_command h).1, up (decodePin_command h).2⟩
    split at h
    · exact ⟨(decodeClkOut_command h).1, up (decodeClkOut_command h).2⟩
    split at h
    · exact ⟨(decodeClkIn_command h).1, up (decodeClkIn_command h).2⟩
    split at h
    · cases h; exact ⟨rfl, ⟨[b], rfl⟩⟩
    split at h
    · cases h; exact ⟨rfl, ⟨[b], rfl⟩⟩
    split at h
    · cases h; exact ⟨rfl, ⟨[b], rfl⟩⟩
    split at h
    · cases h; exact ⟨rfl, ⟨[b], rfl⟩⟩
    split at h
    · exact ⟨(decodeSetDiv_command h).1, up (decodeSetDiv_command h).2⟩
    · cases h

/-- The engine's turn of `step` is Stage P's own step (R129). -/
theorem engineStepWith_exec (s : State) : engineStepWith exec s = engineStep s := by
  unfold engineStep engineStepWith
  split
  · rename_i i rest h
    exact (engineExec_eq_exec (decodeCommand_command h).1 _).symm
  · rfl
  · rfl

/-- What a step of Stage P that goes on can do (R129). -/
theorem engineStep_next {s t : State} (h : engineStep s = .next t) :
    SameStageS s t ∧ Moves s t ∧ t.cmdq <:+ s.cmdq := by
  unfold engineStep engineStepWith at h
  split at h
  · rename_i i rest hd
    obtain ⟨hs, hq, hm⟩ := engineExec_next h
    clear h
    refine ⟨⟨hs.bus, hs.clkcfg, hs.fatal, hs.result, hs.cmdOut, hs.params, hs.words, hs.turns, hs.writes, hs.reads,
      hs.paces⟩, (Moves.still (s := s) (t := { s with cmdq := rest }) rfl rfl rfl rfl).trans hm, ?_⟩
    rw [hq]
    exact (decodeCommand_command hd).2
  · cases h
  · cases h
    exact ⟨SameStageS.refl _, Moves.refl _, List.suffix_refl _⟩

/-- The same for several steps. -/
theorem runEngine_next {n : Nat} {s t : State} (h : runEngine n s = .next t) :
    SameStageS s t ∧ Moves s t ∧ t.cmdq <:+ s.cmdq := by
  induction n generalizing s with
  | zero => cases h; exact ⟨SameStageS.refl _, Moves.refl _, List.suffix_refl _⟩
  | succ n ih =>
    obtain ⟨u, hu, hr⟩ := andThen_eq_next.mp h
    obtain ⟨a, b, c⟩ := engineStep_next hu
    obtain ⟨a', b', c'⟩ := ih hr
    exact ⟨a.trans a', b.trans b', c'.trans c⟩

/-- `t` agrees with `s` on Stage S, but for the pace taken and the read inputs. -/
structure SameButReads (s t : State) : Prop where
  bus    : t.bus = s.bus
  clkcfg : t.clkcfg = s.clkcfg
  fatal  : t.fatal = s.fatal
  result : t.result = s.result
  cmdOut : t.cmdOut = s.cmdOut
  params : t.params = s.params
  words  : t.env.words = s.env.words
  turns  : t.env.turns = s.env.turns
  writes : t.env.writes = s.env.writes

theorem SameButReads.refl (s : State) : SameButReads s s := ⟨rfl, rfl, rfl, rfl, rfl, rfl, rfl, rfl, rfl⟩

theorem SameButReads.trans {s t u : State} (h : SameButReads s t) (g : SameButReads t u) : SameButReads s u :=
  ⟨g.bus.trans h.bus, g.clkcfg.trans h.clkcfg, g.fatal.trans h.fatal, g.result.trans h.result,
    g.cmdOut.trans h.cmdOut, g.params.trans h.params, g.words.trans h.words, g.turns.trans h.turns,
    g.writes.trans h.writes⟩

/-- What Stage P running inside a host operation can do (R62). -/
theorem engineRuns_next {s t : State} (h : engineRuns s = .next t) :
    SameButReads s t ∧ Moves s t ∧ t.cmdq <:+ s.cmdq := by
  obtain ⟨a, b, c⟩ := runEngine_next h
  exact ⟨⟨a.bus, a.clkcfg, a.fatal, a.result, a.cmdOut, a.params, a.words, a.turns, a.writes⟩,
    (Moves.still (s := s) (t := s.takePace) rfl rfl rfl rfl).trans b, c⟩

/-- What LinkRead can do to the rest of the state. -/
theorem linkRead_same (n : Nat) (s : State) :
    SameButReads s (linkRead n s).2 ∧ Moves s (linkRead n s).2 ∧ (linkRead n s).2.cmdq = s.cmdq ∧
    (linkRead n s).2.shiftReady = s.shiftReady ∧ (linkRead n s).2.pinval = s.pinval := by
  obtain ⟨l, h⟩ := linkRead_state n s
  rw [h]
  exact ⟨⟨rfl, rfl, rfl, rfl, rfl, rfl, rfl, rfl, rfl⟩, Moves.still rfl rfl rfl rfl, rfl, rfl, rfl⟩

end Sys2Proof.Machine
end

