-- ==== Sys2Proof/Laws/Host.lean ====
section
/-! SUPPORT. What each host operation can do, and what one step can do: one inversion lemma each, from which every
invariant follows. -/

namespace Sys2Proof.Machine

/-- The state once all of `cmds` is written (R55). -/
def sent (cmds : List Instr) (s : State) : State := s.takeWrite.queue (encodeCommands s.params.opcodes cmds)

/-- The state once a write of `cmds` has failed with `n` bytes through (R55). -/
def cutSent (cmds : List Instr) (n : Nat) (s : State) : State :=
  s.takeWrite.queue (cutWrite (encodeCommands s.params.opcodes cmds) n)

/-- What an Emit that ends an operation leaves, and when. -/
def Ends (cmds : List Instr) (k : State → State) (s t : State) : Prop :=
  (s.drawWrite = .ok ∧ t = k (sent cmds s)) ∨ ∃ n, s.drawWrite = .fail n ∧ t = raiseFatal (cutSent cmds n s)

theorem emitThen_ends (cmds : List Instr) (k : State → State) (s : State) : Ends cmds k s (emitThen cmds k s) :=
  emitThen_cases cmds k s

theorem execStart_next {s t : State} (h : execStart s = .next t) :
    s.fatal = false ∧ Ends (startCommands s.params) finishStart s t := by
  obtain ⟨ha, h⟩ := unlessRefused_eq_next.mp h
  cases h
  exact ⟨(admission_eq_none.mp ha).1, emitThen_ends _ _ _⟩

theorem execStop_next {s t : State} (h : execStop s = .next t) :
    s.fatal = false ∧ Ends (stopCommands s.params) finishStop s t := by
  obtain ⟨ha, h⟩ := unlessRefused_eq_next.mp h
  cases h
  exact ⟨(admission_eq_none.mp ha).1, emitThen_ends _ _ _⟩

theorem idleBus_eq {b : BusState} : idleBus b = true ↔ b = .idle := by cases b <;> decide

theorem execSetClk_next {d : Half} {s t : State} (h : execSetClk d s = .next t) :
    s.fatal = false ∧ s.bus = .idle ∧
    Ends (encodeClockConfig d) (fun t => writeResult {} { t with clkcfg := true }) s t := by
  obtain ⟨ha, h⟩ := unlessRefused_eq_next.mp h
  cases h
  exact ⟨(admission_eq_none.mp ha).1, idleBus_eq.mp (admission_eq_none.mp ha).2.2, emitThen_ends _ _ _⟩

/-- The reads of SENDBYTE leave Stage S, what was written and the write inputs alone (R170). -/
theorem readAttempts_next {n : Nat} {s u : State} {got : Option Byte} (h : readAttempts n s = .next (got, u)) :
    SameButReads s u ∧ Moves s u ∧ u.cmdq <:+ s.cmdq := by
  induction n generalizing s with
  | zero => cases h; exact ⟨SameButReads.refl _, Moves.refl _, List.suffix_refl _⟩
  | succ n ih =>
    obtain ⟨t, ht, h⟩ := andThen_eq_next.mp h
    obtain ⟨a, b, c⟩ := engineRuns_next ht
    obtain ⟨a', b', c', _⟩ := linkRead_same 1 t
    have all : SameButReads s (linkRead 1 t).2 ∧ Moves s (linkRead 1 t).2 ∧ (linkRead 1 t).2.cmdq <:+ s.cmdq :=
      ⟨a.trans a', b.trans b', c' ▸ c⟩
    split at h
    · rename_i v hv
      cases h
      rwa [hv] at all
    · rename_i v hv
      cases h
      rwa [hv] at all
    · rename_i v hv
      rw [hv] at all
      obtain ⟨x, y, z⟩ := ih h
      exact ⟨all.1.trans x, all.2.1.trans y, z.trans all.2.2⟩

theorem execSendByte_next {v : Byte} {s t : State} (h : execSendByte v s = .next t) :
    (s.fatal = false ∧ s.clkcfg = true ∧ sendBus s.bus = true) ∧
    ((∃ n, s.drawWrite = .fail n ∧ t = raiseFatal (cutSent (sendCommands v) n s)) ∨
      (s.drawWrite = .ok ∧ ∃ got u, readAttempts s.params.rdAttempts (sent (sendCommands v) s) = .next (got, u) ∧
        Ends [pat u.params 0b01#2] (finishSend got) u t)) := by
  obtain ⟨ha, h⟩ := unlessRefused_eq_next.mp h
  obtain ⟨h1, h2, h3⟩ := admission_eq_none.mp ha
  refine ⟨⟨h1, h2 rfl, h3⟩, ?_⟩
  rcases emitOr_cases (sendCommands v) (fun t => andThen (readAttempts t.params.rdAttempts t)
    fun r => .next (sendTail r.1 r.2)) s with ⟨hw, he⟩ | ⟨n, hw, he⟩
  · rw [he] at h
    obtain ⟨⟨got, u⟩, hr, h⟩ := andThen_eq_next.mp h
    cases h
    exact .inr ⟨hw, got, u, hr, emitThen_ends _ _ _⟩
  · rw [he] at h
    cases h
    exact .inl ⟨n, hw, rfl⟩

/-- What READBYTE's end can be: an error that goes no further, or the ACK/NACK command (R172). -/
def ReadEnds (last : Bool) (u t : State) : Prop :=
  (∃ e f, t = readFails e f u ∧ (e = .adapterIoFailed ∨ e = .readIncomplete)) ∨
  (∃ d st, Ends [ackPattern u.params last] (finishRead d st) u t)

theorem readTail_ends (last : Bool) (got : Option (List Byte)) (u : State) : ReadEnds last u (readTail last got u) := by
  unfold readTail
  split
  · exact .inl ⟨_, _, rfl, .inl rfl⟩
  · split
    · exact .inl ⟨_, _, rfl, .inr rfl⟩
    · exact .inr ⟨_, _, emitThen_ends _ _ _⟩
  · exact .inl ⟨_, _, rfl, .inr rfl⟩

theorem execReadByte_next {last : Bool} {s t : State} (h : execReadByte last s = .next t) :
    (s.fatal = false ∧ s.clkcfg = true ∧ readBus s.bus = true) ∧
    ((∃ n, s.drawWrite = .fail n ∧ t = raiseFatal (cutSent (readCommands s.params) n s)) ∨
      (s.drawWrite = .ok ∧ ∃ u, engineRuns (sent (readCommands s.params) s) = .next u ∧
        ReadEnds last (linkRead 2 u).2 t)) := by
  obtain ⟨ha, h⟩ := unlessRefused_eq_next.mp h
  obtain ⟨h1, h2, h3⟩ := admission_eq_none.mp ha
  refine ⟨⟨h1, h2 rfl, h3⟩, ?_⟩
  rcases emitOr_cases (readCommands s.params) (fun t => andThen (engineRuns t)
    fun u => .next (readTail last (linkRead 2 u).1 (linkRead 2 u).2)) s with ⟨hw, he⟩ | ⟨n, hw, he⟩
  · rw [he] at h
    obtain ⟨u, hr, h⟩ := andThen_eq_next.mp h
    cases h
    exact .inr ⟨hw, u, hr, readTail_ends _ _ _⟩
  · rw [he] at h
    cases h
    exact .inl ⟨n, hw, rfl⟩

/-- A property that survives queueing bytes, Stage P's own steps, reads, and writes of Stage S's registers survives every
host operation. -/
theorem hostOperation_keeps {P : State → Prop}
    (hq : ∀ s b, P s → P (s.takeWrite.queue b))
    (hr : ∀ s t, engineRuns s = .next t → P s → P t)
    (hl : ∀ n s, P s → P (linkRead n s).2)
    (hs : ∀ (s : State) b c f r, P s → P { s with bus := b, clkcfg := c, fatal := f, result := r })
    {i : Instr} (hi : i.isHost = true) {s t : State} (h : exec i s = .next t) (p : P s) : P t := by
  have fatal : ∀ cmds n u, P u → P (raiseFatal (cutSent cmds n u)) := fun cmds n u pu =>
    hs (cutSent cmds n u) (cutSent cmds n u).bus (cutSent cmds n u).clkcfg true _ (hq _ _ pu)
  have ends : ∀ {cmds k u v}, (∀ x, P x → P (k x)) → P u → Ends cmds k u v → P v := by
    rintro cmds k u v hk pu (⟨_, rfl⟩ | ⟨n, _, rfl⟩)
    · exact hk _ (hq _ _ pu)
    · exact fatal _ _ _ pu
  cases i <;> try cases hi
  case start => exact ends (fun x px => hs x .started x.clkcfg x.fatal _ px) p (execStart_next h).2
  case stop => exact ends (fun x px => hs x .idle x.clkcfg x.fatal _ px) p (execStop_next h).2
  case setClk d => exact ends (fun x px => hs x x.bus true x.fatal _ px) p (execSetClk_next h).2.2
  case setAddr a r => cases h; exact hs s s.bus s.clkcfg s.fatal _ p
  case sendByte v =>
    rcases (execSendByte_next h).2 with ⟨n, _, rfl⟩ | ⟨_, got, u, hu, he⟩
    · exact fatal _ _ _ p
    · have pu : ∀ n x, P x → readAttempts n x = .next (got, u) → P u := by
        intro n
        induction n with
        | zero => intro x px hx; cases hx; exact px
        | succ n ih =>
          intro x px hx
          obtain ⟨y, hy, hx⟩ := andThen_eq_next.mp hx
          have py := hl 1 y (hr _ _ hy px)
          split at hx
          · rename_i z hz; cases hx; rwa [hz] at py
          · rename_i z hz; cases hx; rwa [hz] at py
          · rename_i z hz; rw [hz] at py; exact ih _ py hx
      exact ends (fun x px => hs x _ x.clkcfg x.fatal _ px) (pu _ _ (hq _ _ p) hu) he
  case readByte last =>
    rcases (execReadByte_next h).2 with ⟨n, _, rfl⟩ | ⟨_, u, hu, he⟩
    · exact fatal _ _ _ p
    · have pu := hl 2 u (hr _ _ hu (hq _ _ p))
      rcases he with ⟨e, f, rfl, _⟩ | ⟨d, st, he⟩
      · exact hs (linkRead 2 u).2 .dataPhase (linkRead 2 u).2.clkcfg (linkRead 2 u).2.fatal _ pu
      · exact ends (fun x px => hs x _ x.clkcfg x.fatal _ px) pu he

/-- Every host operation that goes on ends by writing RESULT whole, with an error code the block writes and a BUS that is
not Stopped (R25, R221, R36). -/
theorem hostOperation_ends {i : Instr} (hi : i.isHost = true) {s t : State} (h : exec i s = .next t)
    (hb : s.bus ≠ .stopped) :
    ∃ f u, t = writeResult f u ∧ (f.err = 0 ∨ f.err = 2 ∨ f.err = 5) ∧ u.bus ≠ .stopped := by
  have ends : ∀ {cmds k u v}, (∀ x, x.bus = u.bus → ∃ f y, k x = writeResult f y ∧
      (f.err = 0 ∨ f.err = 2 ∨ f.err = 5) ∧ y.bus ≠ .stopped) → u.bus ≠ .stopped → Ends cmds k u v →
      ∃ f y, v = writeResult f y ∧ (f.err = 0 ∨ f.err = 2 ∨ f.err = 5) ∧ y.bus ≠ .stopped := by
    rintro cmds k u v hk hu (⟨_, rfl⟩ | ⟨n, _, rfl⟩)
    · exact hk _ rfl
    · exact ⟨_, _, rfl, .inr (.inl rfl), hu⟩
  cases i <;> try cases hi
  case start => exact ends (fun x _ => ⟨_, _, rfl, .inl rfl, by simp⟩) hb (execStart_next h).2
  case stop => exact ends (fun x _ => ⟨_, _, rfl, .inl rfl, by simp⟩) hb (execStop_next h).2
  case setClk d => exact ends (fun x hx => ⟨_, _, rfl, .inl rfl, by rw [← hx] at hb; exact hb⟩) hb (execSetClk_next h).2.2
  case setAddr a r => cases h; exact ⟨_, _, rfl, .inl rfl, hb⟩
  case sendByte v =>
    rcases (execSendByte_next h).2 with ⟨n, _, rfl⟩ | ⟨_, got, u, hu, he⟩
    · exact ⟨_, _, rfl, .inr (.inl rfl), hb⟩
    · have hub : u.bus ≠ .stopped := by rw [(readAttempts_next hu).1.bus]; exact hb
      refine ends (fun x _ => ⟨_, _, rfl, ?_, ?_⟩) hub he
      · cases got
        · exact .inr (.inl rfl)
        · exact .inl rfl
      · show busAfterSend x.bus ≠ .stopped
        cases x.bus <;> simp [busAfterSend]
  case readByte last =>
    rcases (execReadByte_next h).2 with ⟨n, _, rfl⟩ | ⟨_, u, hu, he⟩
    · exact ⟨_, _, rfl, .inr (.inl rfl), hb⟩
    · rcases he with ⟨e, f, rfl, he⟩ | ⟨d, st, he⟩
      · refine ⟨_, _, rfl, ?_, by simp⟩
        rcases he with rfl | rfl
        · exact .inr (.inl rfl)
        · exact .inr (.inr rfl)
      · refine ends (fun x _ => ⟨_, _, rfl, .inl rfl, by simp⟩) ?_ he
        rw [(linkRead_same 2 u).1.bus, (engineRuns_next hu).1.bus]
        exact hb

/-! ## One step -/

/-- What a step that goes on can be: the host's turn with no word or with a word that runs, a step of Stage P, the target,
or the reset event. -/
theorem step_next {s t : State} (h : step s = .next t) :
    (s.drawTurn = .host ∧ s.env.words = [] ∧ t = s.takeTurn) ∨
    (∃ w ws i, s.drawTurn = .host ∧ s.env.words = w :: ws ∧ decodeHost w = .operation i ∧
      exec i { s.takeTurn with env := { s.takeTurn.env with words := ws } } = .next t) ∨
    (s.drawTurn = .engine ∧ engineStep s.takeTurn = .next t) ∨
    (∃ b, s.drawTurn = .target b ∧ t = targetDrives b s.takeTurn) ∨
    (∃ p, s.drawTurn = .rst p ∧ t = resetAt p s.takeTurn) := by
  unfold step takeStep at h
  split at h
  · rename_i ht
    unfold hostTurn at h
    split at h
    · rename_i hw
      cases h
      exact .inl ⟨ht, hw, rfl⟩
    · rename_i w ws hw
      split at h
      · rename_i i hd
        exact .inr (.inl ⟨w, ws, i, ht, hw, hd, h⟩)
      · cases h
  · rename_i ht
    rw [engineStepWith_exec] at h
    exact .inr (.inr (.inl ⟨ht, h⟩))
  · rename_i b ht
    cases h
    exact .inr (.inr (.inr (.inl ⟨b, ht, rfl⟩)))
  · rename_i p ht
    cases h
    exact .inr (.inr (.inr (.inr ⟨p, ht, rfl⟩)))

/-- What a host word decodes to is a host operation (R71). -/
theorem decodeHost_isHost {w : Word} {i : Instr} (h : decodeHost w = .operation i) : i.isHost = true := by
  unfold decodeHost at h
  repeat' (split at h)
  all_goals first | (cases h; rfl) | cases h

end Sys2Proof.Machine
end

