-- ==== Sys2Proof/Laws/Ready.lean ====
section
/-! SUPPORT. Stage P's readiness (42_start_stop R152 (g)): a queue of commands Stage S emits is executed without a refusal,
whatever part of it has been executed, and cutting a write leaves such a queue with an incomplete command after it. -/

namespace Sys2Proof.Machine

/-- The per-instruction encoding law, for every command (R81 to R88). -/
theorem decodeCommand_encode {o : Opcodes} (ho : o.Distinct) {i : Instr} (hi : i.isHost = false) (rest : List Byte) :
    decodeCommand o (encodeCommand o i ++ rest) = .command i rest := by
  have all : Laws.Encoding.Statement i := by
    cases i with
    | start => exact Laws.Encoding.start
    | stop => exact Laws.Encoding.stop
    | sendByte v => exact Laws.Encoding.sendByte v
    | readByte l => exact Laws.Encoding.readByte l
    | setClk d => exact Laws.Encoding.setClk d
    | setAddr a r => exact Laws.Encoding.setAddr a r
    | pin d v => exact Laws.Encoding.pin d v
    | clkOut8 v => exact Laws.Encoding.clkOut8 v
    | clkIn1 => exact Laws.Encoding.clkIn1
    | clkIn8 => exact Laws.Encoding.clkIn8
    | flush => exact Laws.Encoding.flush
    | div5Off => exact Laws.Encoding.div5Off
    | adaptOff => exact Laws.Encoding.adaptOff
    | ph3On => exact Laws.Encoding.ph3On
    | setDiv d => exact Laws.Encoding.setDiv d
  exact (all o ho).2 hi rest

theorem after_isHost {r q : ShiftReady} {i : Instr} (h : r.after i = some q) : i.isHost = false := by
  cases i <;> first | rfl | cases h

theorem afterAll_append (r : ShiftReady) (l m : List Instr) :
    r.afterAll (l ++ m) = (r.afterAll l).bind fun q => q.afterAll m := by
  induction l generalizing r with
  | nil => rfl
  | cons i l ih =>
    simp only [List.cons_append, ShiftReady.afterAll]
    cases r.after i with
    | none => rfl
    | some q => exact ih q

/-- The queue of `s` is a list of commands Stage P can execute from `s`, ending in the facts `r`, and then `cut`, which
gives Stage P no step. -/
def ReadyCut (s : State) (r : ShiftReady) (cut : List Byte) : Prop :=
  decodeCommand s.params.opcodes cut = .incomplete ∧
  ∃ cmds, s.cmdq = encodeCommands s.params.opcodes cmds ++ cut ∧ s.shiftReady.afterAll cmds = some r

/-- A step of Stage P from a ready queue goes on and leaves a ready queue with the same end (R129). -/
theorem engineStep_ready {s : State} {r : ShiftReady} {cut : List Byte} (ho : s.params.opcodes.Distinct)
    (h : ReadyCut s r cut) :
    ∃ t, engineStep s = .next t ∧ ReadyCut t r cut ∧ (OpenDrain s → OpenDrain t) := by
  obtain ⟨hc, cmds, hq, ha⟩ := h
  cases cmds with
  | nil =>
    have hd : fetchCommand s = .incomplete := by
      unfold fetchCommand; rw [hq]; exact hc
    exact ⟨s, by unfold engineStep engineStepWith; rw [hd], ⟨hc, [], hq, ha⟩, id⟩
  | cons i l =>
    simp only [ShiftReady.afterAll] at ha
    split at ha
    · rename_i q hqi
      have hd : fetchCommand s = .command i (encodeCommands s.params.opcodes l ++ cut) := by
        unfold fetchCommand
        rw [hq, encodeCommands_cons, List.append_assoc]
        exact decodeCommand_encode ho (after_isHost hqi) _
      obtain ⟨t, ht, hr, hod⟩ := engineExec_ready
        (s := { s with cmdq := encodeCommands s.params.opcodes l ++ cut }) (i := i) (r := q) hqi
      obtain ⟨hs, hcq, _⟩ := engineExec_next ht
      have hp : t.params = s.params := hs.params
      refine ⟨t, by unfold engineStep engineStepWith; rw [hd]; exact ht, ⟨by rw [hp]; exact hc, l, ?_, ?_⟩, hod⟩
      · rw [hcq, hp]
      · rw [hr]; exact ha
    · cases ha

theorem runEngine_ready {n : Nat} {s : State} {r : ShiftReady} {cut : List Byte} (ho : s.params.opcodes.Distinct)
    (h : ReadyCut s r cut) :
    ∃ t, runEngine n s = .next t ∧ ReadyCut t r cut ∧ (OpenDrain s → OpenDrain t) := by
  induction n generalizing s with
  | zero => exact ⟨s, rfl, h, id⟩
  | succ n ih =>
    obtain ⟨t, ht, hr, hod⟩ := engineStep_ready ho h
    have hp : t.params = s.params := (engineStep_next ht).1.params
    obtain ⟨u, hu, hur, huo⟩ := ih (by rw [hp]; exact ho) hr
    exact ⟨u, by simp [runEngine, ht, hu], hur, huo ∘ hod⟩

theorem engineRuns_ready {s : State} {r : ShiftReady} {cut : List Byte} (ho : s.params.opcodes.Distinct)
    (h : ReadyCut s r cut) :
    ∃ t, engineRuns s = .next t ∧ ReadyCut t r cut ∧ (OpenDrain s → OpenDrain t) :=
  runEngine_ready (s := s.takePace) ho h

/-- A state that agrees on the queue, the parameters and the tested facts is as ready. -/
theorem ReadyCut.congr {s t : State} {r : ShiftReady} {cut : List Byte} (h : ReadyCut s r cut)
    (hq : t.cmdq = s.cmdq) (hp : t.params = s.params) (hf : t.shiftReady = s.shiftReady) : ReadyCut t r cut := by
  unfold ReadyCut
  rw [hq, hp, hf]
  exact h

/-- SENDBYTE's reads from a ready queue go on and leave it ready (R170). -/
theorem readAttempts_ready {n : Nat} {s : State} {r : ShiftReady} {cut : List Byte} (ho : s.params.opcodes.Distinct)
    (h : ReadyCut s r cut) :
    ∃ got t, readAttempts n s = .next (got, t) ∧ ReadyCut t r cut ∧ (OpenDrain s → OpenDrain t) := by
  induction n generalizing s with
  | zero => exact ⟨none, s, rfl, h, id⟩
  | succ n ih =>
    obtain ⟨t, ht, hr, hod⟩ := engineRuns_ready ho h
    have hp : t.params = s.params := (engineRuns_next ht).1.params
    obtain ⟨hs, _, hq, hf, hv⟩ := linkRead_same 1 t
    have hl : ReadyCut (linkRead 1 t).2 r cut := hr.congr hq hs.params hf
    have hlo : OpenDrain s → OpenDrain (linkRead 1 t).2 := fun o => by
      have := hod o
      unfold OpenDrain at *
      rwa [hv]
    simp only [readAttempts, ht, andThen_next]
    rcases e : linkRead 1 t with ⟨got, u⟩
    rw [e] at hl hlo hs
    match got with
    | none => exact ⟨none, u, rfl, hl, hlo⟩
    | some (b :: l) => exact ⟨some b, u, rfl, hl, hlo⟩
    | some [] =>
      obtain ⟨g, v, hv, hvr, hvo⟩ := ih (s := u) (by rw [hs.params, hp]; exact ho) hl
      exact ⟨g, v, hv, hvr, hvo ∘ hlo⟩

/-- Commands written whole onto a queue with nothing cut (R55). -/
theorem ReadyCut.sent {s : State} {r q : ShiftReady} {cmds : List Instr} (h : ReadyCut s r [])
    (ha : r.afterAll cmds = some q) : ReadyCut (sent cmds s) q [] := by
  obtain ⟨hc, l, hq, hl⟩ := h
  refine ⟨hc, l ++ cmds, ?_, ?_⟩
  · show s.cmdq ++ encodeCommands s.params.opcodes cmds = encodeCommands s.params.opcodes (l ++ cmds) ++ []
    rw [hq]; simp
  · show s.shiftReady.afterAll (l ++ cmds) = some q
    rw [afterAll_append, hl]; exact ha

theorem take_incomplete {o : Opcodes} (ho : o.Distinct) {i : Instr} (hi : i.isHost = false) {n : Nat}
    (hn : n < (encodeCommand o i).length) : decodeCommand o ((encodeCommand o i).take n) = .incomplete := by
  cases i <;> try cases hi
  case pin d v =>
    simp only [encodeCommand, List.length_cons, List.length_nil] at hn
    interval_cases n <;> simp [encodeCommand, decodePin]
  case clkOut8 v =>
    simp only [encodeCommand, List.length_cons, List.length_nil] at hn
    interval_cases n <;> simp [encodeCommand, decodeClkOut, decodeCommand_clkOut ho]
  case clkIn1 =>
    simp only [encodeCommand, List.length_cons, List.length_nil] at hn
    interval_cases n <;> simp [encodeCommand, decodeClkIn, decodeCommand_clkInBits ho]
  case clkIn8 =>
    simp only [encodeCommand, List.length_cons, List.length_nil] at hn
    interval_cases n <;> simp [encodeCommand, decodeClkIn, decodeCommand_clkInBits ho]
  case setDiv d =>
    simp only [encodeCommand, List.length_cons, List.length_nil] at hn
    interval_cases n <;> simp [encodeCommand, decodeSetDiv, decodeCommand_setDiv ho]
  all_goals
    simp only [encodeCommand, List.length_cons, List.length_nil] at hn
    interval_cases n; simp

/-- The front of a list of commands' bytes is the front of the list and then an incomplete command (R55, R88). -/
theorem take_commands {o : Opcodes} (ho : o.Distinct) {r q : ShiftReady} {cmds : List Instr}
    (h : r.afterAll cmds = some q) (n : Nat) :
    ∃ l cut q', (encodeCommands o cmds).take n = encodeCommands o l ++ cut ∧ r.afterAll l = some q' ∧
      decodeCommand o cut = .incomplete := by
  induction cmds generalizing r n with
  | nil => exact ⟨[], [], r, by simp, rfl, rfl⟩
  | cons i l ih =>
    simp only [ShiftReady.afterAll] at h
    split at h
    · rename_i p hp
      by_cases hn : n < (encodeCommand o i).length
      · refine ⟨[], (encodeCommand o i).take n, r, ?_, rfl, take_incomplete ho (after_isHost hp) hn⟩
        rw [encodeCommands_cons, List.take_append_of_le_length (Nat.le_of_lt hn)]; rfl
      · obtain ⟨m, cut, q', hm, hr, hc⟩ := ih h (n - (encodeCommand o i).length)
        refine ⟨i :: m, cut, q', ?_, ?_, hc⟩
        · rw [encodeCommands_cons, List.take_append, List.take_of_length_le (Nat.le_of_not_lt hn), hm,
            encodeCommands_cons, List.append_assoc]
        · simp only [ShiftReady.afterAll, hp]; exact hr
    · cases h

/-- A write of commands that failed, on a queue with nothing cut (R55). -/
theorem ReadyCut.cutSent {s : State} {r q : ShiftReady} {cmds : List Instr} (ho : s.params.opcodes.Distinct)
    (h : ReadyCut s r []) (ha : r.afterAll cmds = some q) (n : Nat) :
    ∃ q' cut, ReadyCut (cutSent cmds n s) q' cut := by
  obtain ⟨hc, l, hq, hl⟩ := h
  obtain ⟨m, cut, q', hm, hr, hcut⟩ :=
    take_commands ho ha (min n ((encodeCommands s.params.opcodes cmds).length - 1))
  refine ⟨q', cut, hcut, l ++ m, ?_, ?_⟩
  · show s.cmdq ++ cutWrite (encodeCommands s.params.opcodes cmds) n = _ ++ cut
    rw [cutWrite, hm, hq]
    simp [Machine.cutSent]
  · show s.shiftReady.afterAll (l ++ m) = some q'
    rw [afterAll_append, hl]; exact hr

/-! ## What Stage S emits (R150, R151, R170, R172) -/

theorem pat_after (p : Params) (d : BitVec 2) (r : ShiftReady) :
    r.after (pat p d) = some { r with sclLow := d.getLsbD 0 } := by
  have h1 : (p.auxVal ++ 0#2).getLsbD 1 = false := by rw [BitVec.getLsbD_append]; simp
  have h0 : (p.auxVal ++ 0#2).getLsbD 0 = false := by rw [BitVec.getLsbD_append]; simp
  have hd : (p.auxDir ++ d).getLsbD 0 = d.getLsbD 0 := by rw [BitVec.getLsbD_append]; simp
  unfold pat encodePinCommand ShiftReady.after
  simp only [h1, h0, hd]; rfl

theorem afterAll_replicate (p : Params) (d : BitVec 2) (n : Nat) (r : ShiftReady) :
    ∃ q, r.afterAll (List.replicate n (pat p d)) = some q ∧ q.modesSet = r.modesSet := by
  induction n generalizing r with
  | zero => exact ⟨r, rfl, rfl⟩
  | succ n ih =>
    simp only [List.replicate_succ, ShiftReady.afterAll, pat_after]
    obtain ⟨q, h, hm⟩ := ih { r with sclLow := d.getLsbD 0 }
    exact ⟨q, h, hm.trans rfl⟩

theorem afterAll_patterns (p : Params) (d e : BitVec 2) (n : Nat) (r : ShiftReady) :
    ∃ q, r.afterAll (List.replicate n (pat p d) ++ List.replicate n (pat p e) ++ [pat p e]) = some q ∧ q.modesSet = r.modesSet ∧ q.sclLow = e.getLsbD 0 := by
  obtain ⟨q1, h1, m1⟩ := afterAll_replicate p d n r
  obtain ⟨q2, h2, m2⟩ := afterAll_replicate p e n q1
  refine ⟨{ q2 with sclLow := e.getLsbD 0 }, ?_, m2.trans m1, rfl⟩
  rw [afterAll_append, afterAll_append, h1]
  simp only [Option.bind_some, h2, ShiftReady.afterAll, pat_after]

theorem afterAll_send (r : ShiftReady) (v : Byte) (h1 : r.sclLow = true) (h2 : r.modesSet = true) :
    r.afterAll (sendCommands v) = some r := by
  simp [sendCommands, encodeClockOutByte, encodeClockInBit, ShiftReady.afterAll, ShiftReady.after, h1, h2]

theorem afterAll_read (p : Params) (r : ShiftReady) (h2 : r.modesSet = true) :
    r.afterAll (readCommands p) = some { r with sclLow := true } := by
  have h : ({ r with sclLow := true } : ShiftReady).modesSet = true := h2
  have e : r.after (pat p 0b01#2) = some { r with sclLow := true } := pat_after p _ r
  have e8 : ({ r with sclLow := true } : ShiftReady).after .clkIn8 = some { r with sclLow := true } := by
    unfold ShiftReady.after; simp only [h]; rfl
  have ef : ({ r with sclLow := true } : ShiftReady).after .flush = some { r with sclLow := true } := rfl
  simp only [readCommands, encodeClockInByte, List.cons_append, List.nil_append, ShiftReady.afterAll, e, e8, ef]

theorem afterAll_config (r : ShiftReady) (d : Half) :
    r.afterAll (encodeClockConfig d) = some { r with div5 := false, adapt := false, ph3 := true } := rfl

theorem afterAll_one (p : Params) (d : BitVec 2) (r : ShiftReady) :
    r.afterAll [pat p d] = some { r with sclLow := d.getLsbD 0 } := by
  simp only [ShiftReady.afterAll, pat_after]

/-! ## Readiness and EngineReady -/

/-- What holds of the facts at the end of the queue when there is no fatal error (R152 (g)). -/
def EndsReady (s : State) (r : ShiftReady) : Prop :=
  (s.clkcfg = true → r.modesSet = true) ∧ (sendBus s.bus = true → r.sclLow = true)

theorem EngineReady.readyCut {s : State} (h : EngineReady s) :
    ∃ r cut, ReadyCut s r cut ∧ (s.fatal = false → cut = [] ∧ EndsReady s r) := by
  obtain ⟨cmds, cut, r, hq, ha, hc, he⟩ := h
  refine ⟨r, cut, ⟨?_, cmds, hq, ha⟩, fun hf => ⟨?_, he hf⟩⟩
  · rcases hc with rfl | ⟨_, h⟩
    · rfl
    · exact h
  · rcases hc with rfl | ⟨h, _⟩
    · rfl
    · rw [hf] at h; cases h

theorem ReadyCut.engineReady {s : State} {r : ShiftReady} {cut : List Byte} (h : ReadyCut s r cut)
    (hc : s.fatal = false → cut = [] ∧ EndsReady s r) : EngineReady s := by
  obtain ⟨hd, cmds, hq, ha⟩ := h
  refine ⟨cmds, cut, r, hq, ha, ?_, fun hf => (hc hf).2⟩
  cases hf : s.fatal with
  | false => exact .inl (hc hf).1
  | true => exact .inr ⟨rfl, hd⟩

end Sys2Proof.Machine
end

