-- ==== Sys2Proof/Laws/Reset.lean ====
section
/-! SUPPORT. What the reset event finds inside an operation or a command (70_reset_and_hazards R250): the actions of a
command compose to its meaning, and whatever point the event starts from, the parameters are kept and the histories have
only grown. -/

namespace Sys2Proof.Machine

/-! ## Actions -/

theorem runActs_append (l m : List (State → State)) (s : State) : runActs (l ++ m) s = runActs m (runActs l s) := by
  induction l generalizing s with
  | nil => rfl
  | cons f l ih => exact ih _

/-- The points passed are what the actions done so far leave, at every length. -/
theorem passed_getElem? (l : List (State → State)) (s : State) (k : Nat) (h : k ≤ l.length) :
    (passed l s)[k]? = some (runActs (l.take k) s) := by
  induction l generalizing s k with
  | nil => simp at h; subst h; rfl
  | cons f l ih =>
    cases k with
    | zero => rfl
    | succ k =>
      simp only [List.length_cons, Nat.add_le_add_iff_right] at h
      simpa [passed, runActs] using ih (f s) k h

theorem clockOut_acts (bits : List Bool) (s : State) : clockOut bits s = runActs (clockOutActs bits) s := by
  induction bits generalizing s with
  | nil => rfl
  | cons b bits ih =>
    rw [show clockOutActs (b :: bits) = (assignActs 1 (!b) ++ assignActs 0 false ++ assignActs 0 true) ++ clockOutActs bits
      from rfl, runActs_append]
    exact ih _

theorem clockIn_acts (n : Nat) (s : State) : clockIn n s = runActs (clockInActs n) s := by
  have h : ∀ t, times n clockInBit t = runActs (List.replicate n clockInBitActs).flatten t := by
    induction n with
    | zero => exact fun t => rfl
    | succ n ih =>
      intro t
      rw [List.replicate_succ, List.flatten_cons, runActs_append]
      exact ih _
  exact h _

/-- A command that Stage P executes does its actions, in order, and nothing else. -/
theorem engineExec_acts {i : Instr} {s t : State} (h : engineExec i s = .next t) : t = runActs (commandActs i) s := by
  cases i <;> simp only [engineExec] at h
  case pin dir val =>
    unfold execPin at h
    split at h <;> cases h
    rfl
  case clkOut8 v =>
    obtain ⟨_, h⟩ := unlessRefused_eq_next.mp h
    cases h
    exact clockOut_acts _ _
  case clkIn1 =>
    obtain ⟨_, h⟩ := unlessRefused_eq_next.mp h
    cases h
    rw [clockIn_acts]
    exact (runActs_append (clockInActs 1) [respondBit] s).symm
  case clkIn8 =>
    obtain ⟨_, h⟩ := unlessRefused_eq_next.mp h
    cases h
    rw [clockIn_acts]
    exact (runActs_append (clockInActs 8) [respondByte] s).symm
  all_goals first | (cases h; rfl) | cases h

/-! ## Points -/

/-- What the reset event finds, at the earliest `s`: the parameters and the host's words are kept, the lines have moved
one at a time, and CMD_OUT has only grown. -/
structure Inside (s p : State) : Prop where
  params : p.params = s.params
  moves  : Moves s p
  cmdOut : s.cmdOut <+: p.cmdOut

theorem Inside.refl (s : State) : Inside s s := ⟨rfl, Moves.refl s, List.prefix_refl _⟩

theorem Inside.trans {s t u : State} (h : Inside s t) (g : Inside t u) : Inside s u :=
  ⟨g.params.trans h.params, h.moves.trans g.moves, h.cmdOut.trans g.cmdOut⟩

theorem Inside.still {s t : State} (hp : t.params = s.params) (hc : s.cmdOut <+: t.cmdOut) (hw : t.wave = s.wave)
    (h1 : t.pindir = s.pindir) (h2 : t.pinval = s.pinval) (h3 : t.tlow = s.tlow) : Inside s t :=
  ⟨hp, Moves.still hw h1 h2 h3, hc⟩

theorem Inside.assignActs {i : Nat} {b : Bool} : ∀ f ∈ assignActs i b, ∀ s, Inside s (f s) := by
  simp only [Machine.assignActs, List.mem_cons, List.not_mem_nil, or_false, forall_eq_or_imp, forall_eq]
  exact ⟨fun s => ⟨by simp, Moves.setDrivers _ _ s, by simp⟩, fun s => ⟨by simp, Moves.react s, by simp⟩⟩

/-- Every action of every command keeps what `Inside` says. -/
theorem Inside.act {i : Instr} : ∀ f ∈ commandActs i, ∀ s, Inside s (f s) := by
  have sample : ∀ s, Inside s (sampleSda s) := fun s => .still rfl (List.prefix_refl _) rfl rfl rfl rfl
  have dir : ∀ i b s, Inside s (assignDir i b s) := fun i b s => assignActs (i := i) (b := b) _ (by simp [Machine.assignActs]) s
  have reacts : ∀ s, Inside s (react s) := fun s => ⟨by simp, Moves.react s, by simp⟩
  have bitIn : ∀ f ∈ clockInBitActs, ∀ s, Inside s (f s) := by
    intro f hf
    simp only [clockInBitActs, Machine.assignActs, List.cons_append, List.nil_append, List.mem_cons, List.not_mem_nil,
      or_false] at hf
    rcases hf with rfl | rfl | rfl | rfl | rfl
    exacts [dir _ _, sample, reacts, dir _ _, reacts]
  have inActs : ∀ n, ∀ f ∈ clockInActs n, ∀ s, Inside s (f s) := by
    intro n f hf
    rcases List.mem_append.mp hf with hf | hf
    · exact assignActs f hf
    · obtain ⟨l, hl, hf⟩ := List.mem_flatten.mp hf
      rw [List.eq_of_mem_replicate hl] at hf
      exact bitIn f hf
  intro f hf s
  cases i <;> simp only [commandActs, List.mem_cons, List.not_mem_nil, or_false, List.mem_append] at hf
  case pin d v =>
    rcases hf with rfl | rfl
    · exact ⟨by simp, Moves.setDrivers _ _ s, by simp⟩
    · exact reacts s
  case clkOut8 v =>
    obtain ⟨b, _, hf⟩ := List.mem_flatMap.mp hf
    rcases List.mem_append.mp hf with hf | hf
    · rcases List.mem_append.mp hf with hf | hf
      · exact assignActs f hf s
      · exact assignActs f hf s
    · exact assignActs f hf s
  case clkIn1 =>
    rcases hf with hf | rfl
    · exact inActs 1 f hf s
    · exact .still rfl (List.prefix_refl _) rfl rfl rfl rfl
  case clkIn8 =>
    rcases hf with hf | rfl
    · exact inActs 8 f hf s
    · exact .still rfl (List.prefix_refl _) rfl rfl rfl rfl
  all_goals
    subst hf
    exact .still rfl (List.prefix_refl _) rfl rfl rfl rfl

theorem Inside.passed {l : List (State → State)} (h : ∀ f ∈ l, ∀ s, Inside s (f s)) {s p : State} (hp : p ∈ passed l s) :
    Inside s p := by
  induction l generalizing s with
  | nil =>
    simp only [Machine.passed, List.mem_singleton] at hp
    exact hp ▸ Inside.refl s
  | cons f l ih =>
    rcases List.mem_cons.mp hp with rfl | hp
    · exact Inside.refl _
    · exact (h f List.mem_cons_self s).trans (ih (fun g hg => h g (List.mem_cons_of_mem f hg)) hp)

theorem mem_endPoint {x : Step} {t : State} : t ∈ endPoint x ↔ x = .next t := by
  cases x <;> simp [endPoint, eq_comm]

theorem Inside.commandPoints {i : Instr} {s p : State} (hp : p ∈ commandPoints i s) : Inside s p := by
  unfold Machine.commandPoints at hp
  split at hp
  · exact passed Inside.act hp
  · cases hp
  · cases hp

theorem Inside.enginePoints {s p : State} (hp : p ∈ enginePoints s) : Inside s p := by
  unfold Machine.enginePoints at hp
  split at hp
  · rename_i i rest _
    exact (Inside.still (s := s) (t := { s with cmdq := rest }) rfl (List.prefix_refl _) rfl rfl rfl rfl).trans (commandPoints hp)
  · cases hp
  · cases hp

theorem Inside.of_sameButReads {s t : State} (h : SameButReads s t) (m : Moves s t) : Inside s t :=
  ⟨h.params, m, by rw [h.cmdOut]⟩

theorem Inside.of_engineStep {s t : State} (h : engineStep s = .next t) : Inside s t := by
  obtain ⟨a, m, _⟩ := engineStep_next h
  exact ⟨a.params, m, by rw [a.cmdOut]⟩

theorem Inside.runEnginePoints {n : Nat} {s p : State} (hp : p ∈ runEnginePoints n s) : Inside s p := by
  induction n generalizing s with
  | zero =>
    simp only [Machine.runEnginePoints, List.mem_singleton] at hp
    exact hp ▸ Inside.refl s
  | succ n ih =>
    rcases List.mem_append.mp hp with hp | hp
    · exact enginePoints hp
    · obtain ⟨t, ht, hp⟩ := List.mem_flatMap.mp hp
      exact (of_engineStep (mem_endPoint.mp ht)).trans (ih hp)

theorem Inside.engineRunsPoints {s p : State} (hp : p ∈ engineRunsPoints s) : Inside s p :=
  (Inside.still (s := s) (t := s.takePace) rfl (List.prefix_refl _) rfl rfl rfl rfl).trans (runEnginePoints hp)

theorem Inside.of_engineRuns {s t : State} (h : engineRuns s = .next t) : Inside s t := by
  obtain ⟨a, m, _⟩ := engineRuns_next h
  exact of_sameButReads a m

theorem Inside.linkRead (n : Nat) (s : State) : Inside s (linkRead n s).2 := by
  obtain ⟨a, m, _⟩ := linkRead_same n s
  exact of_sameButReads a m

theorem Inside.readAttemptsPoints {n : Nat} {s p : State} (hp : p ∈ readAttemptsPoints n s) : Inside s p := by
  induction n generalizing s with
  | zero => cases hp
  | succ n ih =>
    rcases List.mem_append.mp hp with hp | hp
    · exact engineRunsPoints hp
    · obtain ⟨t, ht, hp⟩ := List.mem_flatMap.mp hp
      have hr := (of_engineRuns (mem_endPoint.mp ht)).trans (Inside.linkRead 1 t)
      split at hp
      · rename_i u hu
        rw [hu] at hr
        exact List.mem_singleton.mp hp ▸ hr
      · rename_i u hu
        rw [hu] at hr
        exact List.mem_singleton.mp hp ▸ hr
      · rename_i u hu
        rw [hu] at hr
        rcases List.mem_cons.mp hp with rfl | hp
        · exact hr
        · exact hr.trans (ih hp)

theorem Inside.readPoints {s p : State} (hp : p ∈ readPoints s) : Inside s p := by
  rcases List.mem_append.mp hp with hp | hp
  · exact engineRunsPoints hp
  · obtain ⟨t, ht, rfl⟩ := List.mem_map.mp hp
    exact (of_engineRuns (mem_endPoint.mp ht)).trans (Inside.linkRead 2 t)

theorem Inside.emit (cmds : List Instr) (s : State) : Inside s (emit cmds s).2 := by
  obtain ⟨bytes, h⟩ := emit_state cmds s
  rw [h]
  exact .still rfl ⟨bytes, rfl⟩ rfl rfl rfl rfl

theorem Inside.emitPoints {cmds : List Instr} {k : State → List State} (hk : ∀ t, ∀ p ∈ k t, Inside t p) {s p : State}
    (hp : p ∈ emitPoints cmds k s) : Inside s p := by
  unfold Machine.emitPoints at hp
  split at hp
  · rcases List.mem_cons.mp hp with rfl | hp
    · exact Inside.emit cmds s
    · exact (Inside.emit cmds s).trans (hk _ p hp)
  · cases hp

/-- A host operation that completes keeps what `Inside` says. -/
theorem Inside.of_hostOperation {i : Instr} (hi : i.isHost = true) {s t : State} (h : exec i s = .next t) : Inside s t :=
  hostOperation_keeps (P := fun x => Inside s x)
    (fun _ b p => p.trans (.still rfl ⟨b, rfl⟩ rfl rfl rfl rfl))
    (fun _ _ h p => p.trans (of_engineRuns h))
    (fun n x p => p.trans (Inside.linkRead n x))
    (fun _ _ _ _ _ p => p.trans (.still rfl (List.prefix_refl _) rfl rfl rfl rfl))
    hi h (Inside.refl s)

theorem Inside.unlessRefusedPoints {why : Option Refusal} {l : List State} {x : Step} {s p : State}
    (hl : ∀ p ∈ l, Inside s p) (hx : ∀ t, x = .next t → Inside s t) (hp : p ∈ unlessRefusedPoints why s l x) :
    Inside s p := by
  unfold Machine.unlessRefusedPoints at hp
  split at hp
  · cases hp
  · rcases List.mem_cons.mp hp with rfl | hp
    · exact Inside.refl _
    · rcases List.mem_append.mp hp with hp | hp
      · exact hl p hp
      · exact hx p (mem_endPoint.mp hp)

theorem Inside.operationPoints {i : Instr} {s p : State} (hp : p ∈ operationPoints i s) : Inside s p := by
  have last : ∀ {i}, i.isHost = true → ∀ t, exec i s = .next t → Inside s t := fun hi t h => of_hostOperation hi h
  cases i <;> simp only [Machine.operationPoints, List.not_mem_nil] at hp
  case start => exact unlessRefusedPoints (fun _ h => by cases h) (last (i := .start) rfl) hp
  case stop => exact unlessRefusedPoints (fun _ h => by cases h) (last (i := .stop) rfl) hp
  case setClk d => exact unlessRefusedPoints (fun _ h => by cases h) (last (i := .setClk d) rfl) hp
  case setAddr a r => exact unlessRefusedPoints (fun _ h => by cases h) (last (i := .setAddr a r) rfl) hp
  case sendByte v =>
    exact unlessRefusedPoints (fun _ h => emitPoints (fun _ _ h => readAttemptsPoints h) h) (last (i := .sendByte v) rfl) hp
  case readByte l =>
    exact unlessRefusedPoints (fun _ h => emitPoints (fun _ _ h => readPoints h) h) (last (i := .readByte l) rfl) hp

theorem Inside.hostPoints {s p : State} (hp : p ∈ hostPoints s) : Inside s p := by
  unfold Machine.hostPoints at hp
  split at hp
  · cases hp
  · rename_i w ws _
    split at hp
    · rename_i i _
      exact (Inside.still (s := s) (t := { s with env := { s.env with words := ws } }) rfl (List.prefix_refl _) rfl rfl rfl rfl).trans
        (operationPoints hp)
    · cases hp

/-- Wherever the reset event finds the block, it starts from a state that `Inside` describes (R250). -/
theorem resetStart_inside (p : ResetPoint) (s : State) : Inside s (resetStart p s) := by
  have at? : ∀ (l : List State) (k : Nat), (∀ q ∈ l, Inside s q) → Inside s (l[k]?.getD s) := by
    intro l k hl
    cases h : l[k]? with
    | none => exact Inside.refl s
    | some q => exact hl q (List.mem_of_getElem? h)
  cases p with
  | between => exact Inside.refl s
  | inHost k => exact at? _ k fun _ h => Inside.hostPoints h
  | inEngine k => exact at? _ k fun _ h => Inside.enginePoints h

theorem Moves.rst (s : State) : Moves s (rst s) := Moves.recordChange rfl

@[simp] theorem resetAt_between (s : State) : resetAt .between s = rst s := rfl

/-- A reset event inside the command at the front of CMDQ comes after the command's first `k` actions (R250). -/
theorem resetAt_inEngine {s : State} {i : Instr} {rest : List Byte} {k : Nat} (hd : fetchCommand s = .command i rest)
    (hx : ∃ t, engineExec i { s with cmdq := rest } = .next t) (hk : k ≤ (commandActs i).length) :
    resetAt (.inEngine k) s = rst (runActs ((commandActs i).take k) { s with cmdq := rest }) := by
  obtain ⟨t, ht⟩ := hx
  unfold resetAt resetStart enginePoints
  simp only [hd, commandPoints, ht, passed_getElem? _ _ _ hk, Option.getD_some]

end Sys2Proof.Machine
end

