-- ==== Sys2Proof/Tests/Slice0.lean ====
section
/-! SUPPORT. The model's own tests, each about one step on a small state, with the expected result from the spec's
vectors (95_test_vectors); and a named witness for every obligation that has hypotheses. -/

namespace Sys2Proof.Tests

open Sys2Proof.Machine

/-! ## Helpers -/

/-- Does a run go on, to something that passes `p`? -/
def goesOn {α : Type} (x : Host.Outcome α Fault Refusal) (p : α → Bool) : Bool :=
  match x with
  | .next a => p a
  | .fault _ => false
  | .refused _ => false

theorem goesOn_spec {α : Type} {x : Host.Outcome α Fault Refusal} {p : α → Bool} (h : goesOn x p = true) :
    ∃ a, x = .next a ∧ p a = true := by
  cases x with
  | next a => exact ⟨a, rfl, h⟩
  | fault r => cases h
  | refused r => cases h

/-- The reason of a refusal. -/
def reasonOf {α : Type} (x : Host.Outcome α Fault Refusal) : Option Refusal :=
  match x with
  | .next _ => none
  | .fault _ => none
  | .refused r => some r

theorem reasonOf_spec {α : Type} {x : Host.Outcome α Fault Refusal} {r : Refusal} (h : reasonOf x = some r) :
    x = .refused r := by
  cases x with
  | next a => cases h
  | fault f => cases h
  | refused q => cases h; rfl

/-- The defaults of R6 with one repetition, and values for the open parameters. -/
def params : Params :=
  { Params.standard with repeatCount := 1, fMaster := 60000000, divReset := 5, statusErrMask := 0x80 }

/-- Nothing free: two writes that succeed, a target that never drives. -/
def env : Env :=
  { Env.fresh with
    writes := ⟨[.ok, .ok], 0⟩, paces := ⟨[0, 0, 0], 0⟩, reacts := ⟨List.replicate 30 false, 0⟩,
    draws := ⟨[0x00, 0x00], 0⟩, orders := ⟨[.sclFirst, .sclFirst], 0⟩ }

/-- Right after reset (R35). -/
def idle : State := { State.reset with params := params, div := 5, env := env }

/-- In a transfer after SETCLK, SCL low, SDA low. -/
def busy (bus : BusState) : State :=
  { idle with bus := bus, clkcfg := true, ph3 := true, pindir := 0x03, wave := [⟨false, false⟩] }

/-- The same with a response readable and the outcomes of the reads given. -/
def answered (bus : BusState) (rspa : List Byte) (reads : List ReadOutcome) : State :=
  { busy bus with rspa := rspa, env := { env with reads := ⟨reads, 0⟩ } }

/-- The same with the outcomes of the writes given. -/
def writing (ws : List WriteOutcome) (s : State) : State := { s with env := { s.env with writes := ⟨ws, 0⟩ } }

/-- The same with the next turns given. -/
def turning (ts : List Turn) (s : State) : State := { s with env := { s.env with turns := ⟨ts, 0⟩ } }

/-- The same with host words asked for. -/
def asking (ws : List Word) (s : State) : State := { s with env := { s.env with words := ws } }

/-! ## Well-formedness -/

/-- V-CMD: `80 02 02` drives SDA high. -/
theorem test_wellFormed_refuses_sda_high : (Instr.pin 0x02 0x02).wellFormed = false := by decide

/-- R122, the same for SCL. -/
theorem test_wellFormed_refuses_scl_high : (Instr.pin 0x01 0x01).wellFormed = false := by decide

/-- R121: PAT(0b11) with line 4 driven high. -/
theorem test_wellFormed_accepts_pattern : (Instr.pin 0x13 0x10).wellFormed = true := by decide

/-! ## Decoding (V-ENC, V-CMD, and the rows of R71 and R81 to R87 written out) -/

theorem test_decode_start : decodeHost 0b00000001000000000000000000000000#32 = .operation .start := by decide
theorem test_decode_stop : decodeHost 0b00000010000000000000000000000000#32 = .operation .stop := by decide
theorem test_decode_sendByte :
    decodeHost 0b00000011000000000000000010100000#32 = .operation (.sendByte 0xA0) := by decide
theorem test_decode_readByte :
    decodeHost 0b00000100000000000000000000000000#32 = .operation (.readByte false) ∧
    decodeHost 0b00000100000000000000000000000001#32 = .operation (.readByte true) := by decide
theorem test_decode_setClk :
    decodeHost 0b00000101000000000000000100101011#32 = .operation (.setClk 0x012B) := by decide
theorem test_decode_setAddr :
    decodeHost 0b00000110000000000000000001010000#32 = .operation (.setAddr 0x50 false) ∧
    decodeHost 0b00000110000000000000000101010000#32 = .operation (.setAddr 0x50 true) ∧
    decodeHost 0b00000110000000000000000101111111#32 = .operation (.setAddr 0x7F true) := by decide
theorem test_decode_hostReserved :
    decodeHost 0x00000000#32 = .reserved .hostOpcode ∧ decodeHost 0x07000000#32 = .reserved .hostOpcode ∧
    decodeHost 0xFFFFFFFF#32 = .reserved .hostOpcode ∧ decodeHost 0x01000001#32 = .reserved .hostMustBeZero ∧
    decodeHost 0x030001A0#32 = .reserved .hostMustBeZero ∧ decodeHost 0x04000002#32 = .reserved .hostMustBeZero ∧
    decodeHost 0x05010000#32 = .reserved .hostMustBeZero ∧ decodeHost 0x06000080#32 = .reserved .hostMustBeZero ∧
    decodeHost 0x06000250#32 = .reserved .hostMustBeZero := by decide
theorem test_decode_pin :
    decodeCommand Opcodes.standard [0x80, 0x10, 0x13, 0x87] = .command (.pin 0x13 0x10) [0x87] := by decide
theorem test_decode_clkOut8 :
    decodeCommand Opcodes.standard [0x11, 0x00, 0x00, 0x80] = .command (.clkOut8 0x80) [] := by decide
theorem test_decode_clkIn1 : decodeCommand Opcodes.standard [0x22, 0x00, 0x87] = .command .clkIn1 [0x87] := by decide
theorem test_decode_clkIn8 : decodeCommand Opcodes.standard [0x22, 0x07] = .command .clkIn8 [] := by decide
theorem test_decode_flush : decodeCommand Opcodes.standard [0x87] = .command .flush [] := by decide
theorem test_decode_div5Off : decodeCommand Opcodes.standard [0x8A] = .command .div5Off [] := by decide
theorem test_decode_adaptOff : decodeCommand Opcodes.standard [0x97] = .command .adaptOff [] := by decide
theorem test_decode_ph3On : decodeCommand Opcodes.standard [0x8C] = .command .ph3On [] := by decide
theorem test_decode_setDiv : decodeCommand Opcodes.standard [0x86, 0x2B, 0x01] = .command (.setDiv 0x012B) [] := by
  decide
theorem test_decode_commandReserved :
    decodeCommand Opcodes.standard [0x22, 0x03] = .reserved .shiftInLength ∧
    decodeCommand Opcodes.standard [0x11, 0x01, 0x00, 0xAA, 0xBB] = .reserved .shiftOutLength ∧
    decodeCommand Opcodes.standard [0xAA] = .reserved .commandOpcode ∧
    decodeCommand Opcodes.standard [0x80, 0x00] = .incomplete := by decide

/-- Rows of spec/opcode_table.json, numbered as the table numbers them. -/
theorem test_decodeTableWord :
    decodeTableWord 32 0x0600017F = some (.setAddr 0x7F true) ∧ decodeTableWord 24 0x800003 = some (.pin 0x03 0x00) ∧
    decodeTableWord 32 0x110000A0 = some (.clkOut8 0xA0) ∧ decodeTableWord 16 0x2207 = some .clkIn8 ∧
    decodeTableWord 8 0x87 = some .flush ∧ decodeTableWord 24 0x862B01 = some (.setDiv 0x012B) ∧
    decodeTableWord 32 0x07000000 = none ∧ decodeTableWord 16 0x2203 = none := by decide

/-- R91's listing of R174's example. -/
theorem test_listing : (Instr.setAddr 0x50 true).listing = "SETADDR 0x50, r" := by decide

/-- A table word runs as the first instruction after reset. -/
theorem test_withFetchWord_runs :
    goesOn (step (State.reset.withFetchWord 32 0x06000150)) (fun t => t.result == 0x000000A1#32) = true ∧
    goesOn (step (State.reset.withFetchWord 24 0x86FFFF)) (fun t => t.div == 0xFFFF#16) = true := by decide

/-! ## Host operations (V-SS, V-TX, V-RX, V-ADDR, V-CLK) -/

theorem test_start_emits : goesOn (exec .start idle) (fun t =>
    t.cmdOut == [0x80, 0x00, 0x02, 0x80, 0x00, 0x03, 0x80, 0x00, 0x03] && t.bus == .started &&
    t.result == 0x02000000#32) = true := by decide
theorem test_start_write_fails : goesOn (exec .start (writing [.fail 4] idle)) (fun t =>
    t.cmdOut == [0x80, 0x00, 0x02, 0x80] && t.bus == .idle && t.fatal && t.result == 0x01200000#32) = true := by decide
theorem test_stop_emits : goesOn (exec .stop (busy .started)) (fun t =>
    t.cmdOut == [0x80, 0x00, 0x03, 0x80, 0x00, 0x00, 0x80, 0x00, 0x00] && t.bus == .idle &&
    t.result == 0x00000000#32) = true := by decide
theorem test_stop_write_fails : goesOn (exec .stop (writing [.fail 99] (busy .dataPhase))) (fun t =>
    t.cmdOut.length == 8 && t.bus == .dataPhase && t.result == 0x07200000#32) = true := by decide
theorem test_sendByte_nack : goesOn (exec (.sendByte 0x55) (answered .started [0xFF] [.bytes 1])) (fun t =>
    t.cmdOut == [0x11, 0x00, 0x00, 0x55, 0x22, 0x00, 0x87, 0x80, 0x00, 0x01] && t.bus == .addressPhase &&
    t.result == 0x040500FF#32) = true := by decide
theorem test_sendByte_noResponse : goesOn (exec (.sendByte 0xAB) (answered .addressPhase [0x00] [.ioError])) (fun t =>
    t.rspa == [0x00] && t.bus == .dataPhase && t.fatal == false && t.result == 0x06240000#32) = true := by decide
theorem test_readByte_more : goesOn (exec (.readByte false) (answered .dataPhase [0x00, 0x7F, 0x33] [.bytes 5]))
    (fun t => t.cmdOut == [0x80, 0x00, 0x01, 0x22, 0x07, 0x87, 0x87, 0x80, 0x00, 0x03] && t.rspa == [0x33] &&
      t.result == 0x06027F00#32) = true := by decide
theorem test_readByte_statusBit : goesOn (exec (.readByte true) (answered .addressPhase [0x5A, 0x80] [.bytes 2]))
    (fun t => t.cmdOut.length == 7 && t.bus == .dataPhase && t.result == 0x0652805A#32) = true := by decide
theorem test_setClk_emits : goesOn (exec (.setClk 0x012B) idle) (fun t =>
    t.cmdOut == [0x8A, 0x97, 0x8C, 0x86, 0x2B, 0x01] && t.clkcfg && t.bus == .idle && t.result == 0#32) = true := by
  decide
theorem test_setClk_refused : reasonOf (exec (.setClk 0x012B) (busy .started)) = some (.notAdmitted .started) := by
  decide
theorem test_setAddr : goesOn (exec (.setAddr 0x50 true) (busy .started)) (fun t =>
    t.result == 0x020000A1#32 && t.cmdOut == []) = true := by decide
theorem test_setAddr_fatal : goesOn (exec (.setAddr 0x50 false) { idle with fatal := true }) (fun t =>
    t.result == 0x010000A0#32) = true := by decide

/-- V-CLK. -/
theorem test_divisorOf :
    divisorOf 60000000 100000 = some 0x012B ∧ divisorOf 60000000 457 = some 0x006C ∧
    divisorOf 60000000 40000000 = some 0xFFFF ∧ divisorOf 60000000 0 = none ∧ fsclOf 60000000 84 = 352941 := by decide

/-! ## Primitive commands (V-PIN) -/

/-- `80 00 02` from (1, 0) with SCL rising first makes a START condition. -/
theorem test_pin_startCondition : goesOn (exec (.pin 0x02 0x00) { busy .started with pindir := 0x01 }) (fun t =>
    t.pindir == 0x02#8 && t.wave == [⟨false, false⟩, ⟨true, true⟩, ⟨false, true⟩]) = true := by decide
theorem test_pin_refused : reasonOf (exec (.pin 0x02 0x02) idle) = some .busLineDrivenHigh := by decide
set_option maxRecDepth 4000 in
theorem test_clkOut8_levels : goesOn (exec (.clkOut8 0xA1) (busy .started)) (fun t =>
    t.pindir == 0x01#8 && eventsFrom ⟨false, false⟩ t.wave.tail ==
      [true, false, true, false, false, false, false, true].map BusEvent.bitTransfer) = true := by decide
theorem test_clkOut8_refused : reasonOf (exec (.clkOut8 0xA0) { busy .started with pindir := 0x02 }) =
    some .sclNotLow := by decide
/-- A target that holds SDA low through the ninth pulse. -/
theorem test_clkIn1_ack : goesOn (exec .clkIn1 { busy .started with
      rxsh := 0xFF, env := { env with reacts := ⟨[true, true, false], 0⟩, draws := ⟨[0xA7], 0⟩ } }) (fun t =>
    t.rspq == [0xA6] && t.rxsh == 0xFE#8 && t.pindir == 0x01#8) = true := by decide
theorem test_clkIn1_absent : goesOn (exec .clkIn1 (busy .started)) (fun t =>
    t.rspq == [0x01] && t.pindir == 0x01#8) = true := by decide
set_option maxRecDepth 4000 in
/-- SDA 0,1,0,1,1,0,1,0 at the eight rises. -/
theorem test_clkIn8 : goesOn (exec .clkIn8 { busy .dataPhase with env := { env with reacts :=
      ⟨[true, true, false, false, true, true, false, false, false, false, true, true, false, false, true, true, false],
        0⟩ } }) (fun t => t.rspq == [0x5A, 0x00] && t.rxsh == 0x5A#8) = true := by decide
theorem test_clkIn8_modes : reasonOf (exec .clkIn8 { busy .dataPhase with div5 := true }) =
    some .clockModesNotSet := by decide
theorem test_flush_order : goesOn (exec .flush { idle with rspq := [0x12, 0x00], rspa := [0x01] }) (fun t =>
    t.rspa == [0x01, 0x12, 0x00] && t.rspq == []) = true := by decide
theorem test_div5Off : goesOn (exec .div5Off { idle with div5 := true }) (fun t => t.div5 == false) = true := by decide
theorem test_adaptOff : goesOn (exec .adaptOff { idle with adapt := true }) (fun t => t.adapt == false) = true := by
  decide
theorem test_ph3On : goesOn (exec .ph3On idle) (fun t => t.ph3) = true := by decide
theorem test_setDiv : goesOn (exec (.setDiv 0x012B) idle) (fun t => t.div == 0x012B#16) = true := by decide

/-! ## The reset event inside an operation or a command (R250) -/

/-- Inside CLKOUT8 0xA0, after SCL's first rise: the history holds the changes up to there, then the release of the lines. -/
theorem test_reset_inside_clkOut8 :
    goesOn (step (turning [.rst (.inEngine 4)] { busy .started with cmdq := [0x11, 0x00, 0x00, 0xA0, 0x87] })) (fun t =>
      t.wave == [⟨false, false⟩, ⟨true, false⟩, ⟨true, true⟩] && t.cmdq == [] && t.bus == .idle && t.pindir == 0#8) =
      true := by decide

/-- Inside SENDBYTE, after its first Emit: the seven bytes have been written, and nothing of them is left to execute. -/
theorem test_reset_inside_sendByte :
    goesOn (step (turning [.rst (.inHost 1)] (asking [0x03000055#32] (answered .started [0x00] [.bytes 1])))) (fun t =>
      t.cmdOut == [0x11, 0x00, 0x00, 0x55, 0x22, 0x00, 0x87] && t.cmdq == [] && t.rspa == [] && t.bus == .idle &&
      t.clkcfg == false && t.result == 0#32) = true := by decide

/-! ## Composites (V-TR) -/

/-- `writeTransaction(0x20, [0x11, 0x22])`, the address Nacked. -/
theorem test_writeTransaction_addressNack :
    goesOn (writeTransaction 0x20 [0x11, 0x22] { answered .idle [0x01] [.bytes 1] with env := { env with
        writes := ⟨[.ok, .ok, .ok, .ok], 0⟩, reads := ⟨[.bytes 1], 0⟩ } })
      (fun r => r.1.status == some .addressNack && r.1.acks == [.nack] && r.2.bus == .idle &&
        r.2.cmdOut.length == 28) = true := by decide

/-- `readTransaction(0x50, 1)`, byte 0x77. -/
theorem test_readTransaction_one :
    goesOn (readTransaction 0x50 1 { answered .idle [0x00, 0x77, 0x00] [] with env := { env with
        writes := ⟨[.ok, .ok, .ok, .ok, .ok, .ok], 0⟩, reads := ⟨[.bytes 1, .bytes 2], 0⟩ } })
      (fun r => r.1.status == none && r.1.bytes == [0x77] && r.2.bus == .idle) = true := by decide

/-! ## Witnesses: states and operands that meet the hypotheses of each obligation, clause by clause -/

/-- The opcodes are distinct, and a command cut at its last byte: O4 to O7. -/
theorem witness_encodings : Opcodes.standard.Distinct ∧ (Instr.setDiv 0).isHost = false ∧
    2 < (encodeCommand Opcodes.standard (.setDiv 0)).length ∧ 0 < (encodeCommand Opcodes.standard .flush).length := by
  decide

/-- StepRunsHostOperation. -/
theorem witness_StepRunsHostOperation :
    (turning [.host] (asking [0x030000FF#32, 0] idle)).drawTurn = .host ∧
    decodeHost 0x030000FF#32 = .operation (.sendByte 0xFF) := by decide

/-- StepRunsCommand. -/
theorem witness_StepRunsCommand :
    (turning [.engine] { idle with cmdq := [0x22, 0x07, 0x87] }).drawTurn = .engine ∧
    decodeCommand idle.params.opcodes [0x22, 0x07, 0x87] = .command .clkIn8 [0x87] := by decide

/-- PlacedInstructionRunsNext. -/
theorem witness_PlacedInstructionRunsNext : idle.params.opcodes.Distinct ∧ State.reset.params.opcodes.Distinct := by
  decide

/-- ReservedHostWordIsRefused, at the least reserved word of a defined opcode. -/
theorem witness_ReservedHostWordIsRefused :
    (turning [.host] (asking [0x05010000#32] idle)).drawTurn = .host ∧
    (0x05010000#32 : Word) ≠ 0x01000000#32 ∧ (0x05010000#32 : Word) ≠ 0x02000000#32 ∧
    0x05010000#32 &&& 0xFFFFFF00#32 ≠ 0x03000000#32 ∧ 0x05010000#32 &&& 0xFFFFFFFE#32 ≠ 0x04000000#32 ∧
    0x05010000#32 &&& 0xFFFF0000#32 ≠ 0x05000000#32 ∧ 0x05010000#32 &&& 0xFFFFFE80#32 ≠ 0x06000000#32 := by decide

/-- EngineRefusesReservedAndWaitsForBytes, both clauses. -/
theorem witness_EngineRefusesReservedAndWaitsForBytes :
    (turning [.engine] { idle with cmdq := [0x22, 0x06] }).drawTurn = .engine ∧
    decodeCommand idle.params.opcodes [0x22, 0x06] = .reserved .shiftInLength ∧
    decodeCommand idle.params.opcodes [0x11, 0x00, 0x00] = .incomplete := by decide

/-- ResetEventSetsEverything. -/
theorem witness_ResetEventSetsEverything :
    (turning [.rst .between] (busy .dataPhase)).drawTurn = .rst .between ∧
    (turning [.rst (.inEngine 2)] { busy .dataPhase with cmdq := [0x80, 0x00, 0x01] }).drawTurn = .rst (.inEngine 2) ∧
    decodeCommand (busy .dataPhase).params.opcodes [0x80, 0x00, 0x01] = .command (.pin 0x01 0x00) [] ∧
    goesOn (exec (.pin 0x01 0x00) (busy .dataPhase)) (fun t => t.pindir == 0x01#8) = true ∧
    2 ≤ (commandActs (.pin 0x01 0x00)).length ∧
    (turning [.rst (.inHost 1)] (asking [0x01000000#32] idle)).drawTurn = .rst (.inHost 1) ∧
    idle.fatal = false ∧ idle.drawWrite = .ok ∧ (0x030000A0#32 : Word) = 0x03#8 ++ 0#16 ++ 0xA0#8 ∧
    (busy .started).fatal = false ∧ (busy .started).drawWrite = .ok ∧ (busy .started).clkcfg = true ∧
    sendBus (busy .started).bus = true := by decide

/-- A state Stage P can run from. -/
theorem busy_safe (bus : BusState) : EngineSafe (busy bus) :=
  ⟨by show params.Wf; decide, by show OpenDrain (busy .idle); decide,
    ⟨[], [], (busy bus).shiftReady, rfl, rfl, .inl rfl, fun _ => ⟨fun _ => rfl, fun _ => by
      cases bus <;> decide⟩⟩⟩

/-- StepKeepsResultMirrors, StepKeepsQueueTail, StepKeepsWaveCurrent, StepKeepsParameters: START's step. -/
theorem witness_StepKeepsInvariants :
    let s := turning [.host] (asking [0x01000000#32] idle)
    ResultMirrors s ∧ QueueIsTail s ∧ WaveCurrent s ∧ ∃ t, step s = .next t := by
  refine ⟨by decide, by decide, by decide, ?_⟩
  obtain ⟨t, h, _⟩ := goesOn_spec (x := step (turning [.host] (asking [0x01000000#32] idle)))
    (p := fun t => t.bus == .started) (by decide)
  exact ⟨t, h⟩

/-- StepKeepsEngineSafe: SENDBYTE's step. -/
theorem witness_StepKeepsEngineSafe :
    let s := turning [.host] (asking [0x030000A0#32] (answered .started [0x00] [.bytes 1]))
    EngineSafe s ∧ ∃ t, step s = .next t := by
  refine ⟨busy_safe .started, ?_⟩
  obtain ⟨t, h, _⟩ := goesOn_spec
    (x := step (turning [.host] (asking [0x030000A0#32] (answered .started [0x00] [.bytes 1]))))
    (p := fun t => t.bus == .addressPhase) (by decide)
  exact ⟨t, h⟩

/-- EngineNeverRefuses: a READBYTE the bus state does not admit. -/
theorem witness_EngineNeverRefuses :
    let s := turning [.host] (asking [0x04000000#32] (busy .started))
    EngineSafe s ∧ step s = .refused (.notAdmitted .started) :=
  ⟨busy_safe .started, reasonOf_spec (by decide)⟩

/-- FatalIsSticky: a SETADDR after a fatal error, and an operation it is not. -/
theorem witness_FatalIsSticky :
    let s := turning [.host] (asking [0x06000000#32] { idle with fatal := true })
    s.fatal = true ∧ (∀ p, s.drawTurn ≠ .rst p) ∧ (∃ t, step s = .next t) ∧ Instr.stop.isHost = true ∧
    ∀ a r, Instr.stop ≠ .setAddr a r := by
  refine ⟨rfl, fun _ => nofun, ?_, rfl, fun _ _ => by simp⟩
  obtain ⟨t, h, _⟩ := goesOn_spec (x := step (turning [.host] (asking [0x06000000#32] { idle with fatal := true })))
    (p := fun t => t.fatal) (by decide)
  exact ⟨t, h⟩

/-- ClkcfgOnlySetBySetClk: a step that changes CLKCFG. -/
theorem witness_ClkcfgOnlySetBySetClk :
    let s := turning [.host] (asking [0x05000000#32] idle)
    (∀ p, s.drawTurn ≠ .rst p) ∧ ∃ t, step s = .next t ∧ t.clkcfg ≠ s.clkcfg := by
  refine ⟨fun _ => nofun, ?_⟩
  obtain ⟨t, h, p⟩ := goesOn_spec (x := step (turning [.host] (asking [0x05000000#32] idle)))
    (p := fun t => t.clkcfg) (by decide)
  exact ⟨t, h, by rw [p]; decide⟩

/-- CommandsLeaveStageSAlone and OnlyFlushMakesResponsesReadable: a command that is not FLUSH. -/
theorem witness_Commands : Instr.clkIn1.isHost = false ∧ Instr.clkIn1 ≠ .flush ∧
    ∃ t, exec .clkIn1 (busy .started) = .next t := by
  refine ⟨rfl, by decide, ?_⟩
  obtain ⟨t, h, _⟩ := goesOn_spec (x := exec .clkIn1 (busy .started)) (p := fun t => t.rspq == [0x01]) (by decide)
  exact ⟨t, h⟩

/-- BusTransitionTable, clause by clause: a fatal START; START, STOP, SENDBYTE from each admitted state, READBYTE,
SETCLK and SETADDR that complete without one; and the premises of the refusals. -/
theorem witness_BusTransitionTable :
    (busy .idle).fatal = false ∧ Instr.start.isHost = true ∧
    goesOn (exec .start (writing [.fail 0] (busy .dataPhase))) (fun t => t.fatal) = true ∧
    goesOn (exec .start (busy .stopped)) (fun t => !t.fatal) = true ∧
    goesOn (exec .stop (busy .started)) (fun t => !t.fatal) = true ∧
    goesOn (exec (.sendByte 0) (answered .started [0] [.bytes 1])) (fun t => !t.fatal) = true ∧
    goesOn (exec (.sendByte 0) (answered .addressPhase [0] [.bytes 1])) (fun t => !t.fatal) = true ∧
    (busy .stopped).bus = .stopped ∧ (busy .started).bus = .started ∧ (busy .idle).bus = .idle ∧
    goesOn (exec (.readByte true) (answered .dataPhase [0, 0] [.bytes 2])) (fun t => !t.fatal) = true ∧
    goesOn (exec (.setClk 0) (busy .idle)) (fun t => !t.fatal) = true ∧ (busy .started).bus ≠ .idle ∧
    ({ busy .started with clkcfg := false } : State).clkcfg = false ∧
    goesOn (exec (.setAddr 0 true) (busy .idle)) (fun t => !t.fatal) = true ∧
    ({ busy .idle with fatal := true } : State).fatal = true := by decide

/-- RefusedHostOperationsAreExactly: each alternative of its premises at its boundary, and Stage P safe in a state that
admits both byte operations. -/
theorem witness_RefusedHostOperationsAreExactly :
    ({ busy .started with clkcfg := false } : State).clkcfg = false ∧ (busy .stopped).bus = .stopped ∧
    (busy .started).bus = .started ∧ ({ busy .idle with fatal := true } : State).fatal = true ∧
    (busy .started).bus ≠ .idle ∧ idle.fatal = false ∧ idle.bus = .idle ∧ EngineSafe (busy .addressPhase) ∧
    (busy .addressPhase).fatal = false ∧ (busy .addressPhase).clkcfg = true ∧
    (busy .addressPhase).bus = .addressPhase := by
  refine ⟨?_, ?_, ?_, ?_, ?_, ?_, ?_, busy_safe _, ?_⟩ <;> decide

/-- FailedWriteQueuesAnyProperPart: nothing of one byte, and all but the last of three. -/
theorem witness_FailedWriteQueuesAnyProperPart :
    ([0x87] : List Byte) ≠ [] ∧ ([0x80, 0x00, 0x03] : List Byte) = [0x80, 0x00] ++ [0x03] ∧
    ([0x03] : List Byte) ≠ [] := by decide

/-- LinkReadTakesFromTheFront, clause by clause; the last at `k = n` and at all that is readable. -/
theorem witness_LinkReadTakesFromTheFront :
    (answered .started [] [.ioError]).drawRead = .ioError ∧
    (answered .started [0x5A, 0x00] [.bytes 2]).drawRead = .bytes 2 ∧ 2 ≤ 2 ∧
    2 ≤ (answered .started [0x5A, 0x00] [.bytes 2]).rspa.length := by decide

/-- StartEmitsAndMovesToStarted, StopEmitsAndReturnsToIdle, SetClkEmitsClockConfiguration: both outcomes of the write. -/
theorem witness_Emits :
    idle.fatal = false ∧ idle.bus = .idle ∧ idle.drawWrite = .ok ∧
    (writing [.fail 8] idle).drawWrite = .fail 8 ∧ (writing [.fail 8] idle).fatal = false ∧
    (writing [.fail 8] idle).bus = .idle := by decide

/-- SendByteDecodesItsResponse: admitted, with a byte and with none, and a second write that succeeds. -/
theorem witness_SendByteDecodesItsResponse :
    (answered .started [0xFF] [.bytes 1]).fatal = false ∧ (answered .started [0xFF] [.bytes 1]).clkcfg = true ∧
    sendBus (answered .started [0xFF] [.bytes 1]).bus = true ∧ (answered .started [0xFF] [.bytes 1]).drawWrite = .ok ∧
    goesOn (readAttempts 1 { (answered .started [0xFF] [.bytes 1]).takeWrite with
        cmdq := sendBytes params 0x55, cmdOut := sendBytes params 0x55 })
      (fun r => r.1 == some 0xFF#8 && r.2.drawWrite == .ok) = true ∧
    goesOn (readAttempts 1 { (answered .started [] [.bytes 0]).takeWrite with
        cmdq := sendBytes params 0x55, cmdOut := sendBytes params 0x55 })
      (fun r => r.1 == none && r.2.drawWrite == .ok) = true := by decide

/-- SendByteRetriesEmptyReadsOnly: Stage P runs, and each outcome of the read, the empty one both ways. -/
theorem witness_SendByteRetriesEmptyReadsOnly :
    goesOn (engineRuns (answered .started [0x01] [.ioError])) (fun t => t.drawRead == .ioError) = true ∧
    goesOn (engineRuns (answered .started [0x01] [.bytes 1])) (fun t => t.drawRead == .bytes 1 && t.rspa == [0x01]) =
      true ∧
    goesOn (engineRuns (answered .started [0x01] [.bytes 0])) (fun t => t.drawRead == .bytes 0) = true ∧
    goesOn (engineRuns (answered .started [] [.bytes 1])) (fun t => t.drawRead == .bytes 1 && t.rspa == []) = true := by
  decide

/-- ByteOperationsFailFatallyOnWrites: the first write fails, and the second. -/
theorem witness_ByteOperationsFailFatallyOnWrites :
    sendBus .started = true ∧ readBus .addressPhase = true ∧
    (writing [.fail 0] (busy .started)).drawWrite = .fail 0 ∧ (busy .started).fatal = false ∧
    (busy .started).clkcfg = true ∧
    (writing [.ok, .fail 2] (answered .started [0x00] [.bytes 1])).drawWrite = .ok ∧
    goesOn (readAttempts 1 { (writing [.ok, .fail 2] (answered .started [0x00] [.bytes 1])).takeWrite with
        cmdq := sendBytes params 0x55, cmdOut := sendBytes params 0x55 })
      (fun r => r.2.drawWrite == .fail 2) = true := by decide

/-- The state READBYTE reads in. -/
def reading (rspa : List Byte) (o : ReadOutcome) (ws : List WriteOutcome) : Step :=
  engineRuns { (writing ws (answered .addressPhase rspa [o])).takeWrite with
    cmdq := readBytes params, cmdOut := readBytes params }

/-- ReadByteReturnsByteOrError, and READBYTE's second write in ByteOperationsFailFatallyOnWrites: what the read gives in each clause, at the boundaries 0, 1 and 2 bytes, the status bit
set and clear, and the last write's two outcomes. -/
theorem witness_ReadByteReturnsByteOrError :
    readBus .addressPhase = true ∧ (writing [.ok, .ok] (answered .addressPhase [] [])).drawWrite = .ok ∧
    goesOn (reading [0x5A, 0x00] .ioError [.ok, .ok]) (fun u => u.drawRead == .ioError) = true ∧
    goesOn (reading [0x5A, 0x00] (.bytes 0) [.ok, .ok]) (fun u => u.drawRead == .bytes 0) = true ∧
    goesOn (reading [] (.bytes 2) [.ok, .ok]) (fun u => u.rspa == []) = true ∧
    goesOn (reading [0x5A, 0x00] (.bytes 1) [.ok, .ok]) (fun u => u.drawRead == .bytes 1 && u.rspa == [0x5A, 0x00]) =
      true ∧
    goesOn (reading [0x5A] (.bytes 2) [.ok, .ok]) (fun u => u.drawRead == .bytes 2 && u.rspa == [0x5A]) = true ∧
    goesOn (reading [0x5A, 0x80] (.bytes 2) [.ok, .ok]) (fun u =>
      u.drawRead == .bytes 2 && u.rspa == [0x5A, 0x80] && 0x80#8 &&& params.statusErrMask != 0) = true ∧
    goesOn (reading [0x5A, 0x7F] (.bytes 2) [.ok, .ok]) (fun u =>
      u.rspa == [0x5A, 0x7F] && u.drawWrite == .ok && 0x7F#8 &&& params.statusErrMask == 0) = true ∧
    goesOn (reading [0x5A, 0x7F] (.bytes 2) [.ok, .fail 1]) (fun u =>
      u.drawRead == .bytes 2 && u.rspa == [0x5A, 0x7F] && u.drawWrite == .fail 1) = true := by decide

/-- AdmittedByteOperationsComplete. -/
theorem witness_AdmittedByteOperationsComplete :
    EngineSafe (busy .addressPhase) ∧ (busy .addressPhase).fatal = false ∧ (busy .addressPhase).clkcfg = true ∧
    sendBus (busy .addressPhase).bus = true ∧ readBus (busy .addressPhase).bus = true :=
  ⟨busy_safe .addressPhase, by decide⟩

/-- ByteOperationsEmitLiteralBytes: each clause goes on without a fatal error, READBYTE with and without an error. -/
theorem witness_ByteOperationsEmitLiteralBytes :
    goesOn (exec (.sendByte 0x80) (answered .started [0x00] [.bytes 1])) (fun t => !t.fatal) = true ∧
    goesOn (exec (.readByte true) (answered .dataPhase [0xFF, 0x00] [.bytes 2])) (fun t =>
      !t.fatal && resultErr t.result == 0) = true ∧
    goesOn (exec (.readByte false) (answered .dataPhase [0xFF] [.bytes 2])) (fun t =>
      !t.fatal && resultErr t.result != 0) = true := by decide

/-- ByteOperationsFrame: both operations go on while Stage P does not run. -/
theorem witness_ByteOperationsFrame :
    goesOn (exec (.sendByte 0x55) (answered .started [0x00] [.bytes 1])) (fun t => !t.fatal) = true ∧
    goesOn (exec (.readByte true) (answered .dataPhase [0x00, 0x00] [.bytes 2])) (fun t => !t.fatal) = true ∧
    ∀ k, k ≤ params.rdAttempts → (answered .started [0x00] [.bytes 1]).env.paces.nth Config.freePace k = 0 := by
  refine ⟨by decide, by decide, fun k hk => ?_⟩
  have h : k ≤ 1 := hk
  interval_cases k <;> decide

/-- DivisorOfIsFloorLessOneTruncated and DivisorRoundTripIsBounded, at both ends of the supported range. -/
theorem witness_Divisor :
    1 ≤ 60000000 / (2 * 30000000) ∧ 60000000 / (2 * 30000000) ≤ 65536 ∧ divisorOf 60000000 30000000 = some 0 ∧
    1 ≤ 131072 / (2 * 1) ∧ 131072 / (2 * 1) ≤ 65536 ∧ divisorOf 131072 1 = some 0xFFFF ∧ 2 * 1 < 131072 := by decide

/-- PinSetsTheDrivers: masks of both kinds; and the lines of LineLevelsAreWiredAnd. -/
theorem witness_PinSetsTheDrivers :
    (BitVec.getLsbD 0x13#8 1 && BitVec.getLsbD 0x10#8 1) = false ∧
    (BitVec.getLsbD 0x13#8 0 && BitVec.getLsbD 0x10#8 0) = false ∧
    (BitVec.getLsbD 0x02#8 1 && BitVec.getLsbD 0x02#8 1) = true ∧ 2 ≤ 2 := by decide

/-- PinRepetitionIsIdempotent, with a target that never drives and with one that holds SDA low. -/
theorem witness_PinRepetitionIsIdempotent :
    openDrainMasks 0x03 0x00 = true ∧ (∀ k, k < 3 + 1 → idle.env.reacts.nth Config.freeReact k = idle.tlow) ∧
    ∀ k, k < 1 + 1 → ({ idle with tlow := true, env := { env with reacts := ⟨[true, true], 0⟩ } } : State).env.reacts.nth
      Config.freeReact k = true := by decide

/-- BothLinesChangeInEitherOrder, its last clause. -/
theorem witness_BothLinesChangeInEitherOrder :
    openDrainMasks 0x00 0x00 = true ∧ (busy .started).env.reacts.nth Config.freeReact 0 = (busy .started).tlow := by
  decide

/-- ClkOut8LeavesTheLastBitOnSda, ClkOut8ShiftsOutMsbFirst, ClkIn1SamplesSda, ClkIn8ShiftsInMsbFirst. -/
theorem witness_ShiftCommands :
    (busy .started).pindir.getLsbD 0 = true ∧ (busy .started).shiftReady.modesSet = true ∧ OpenDrain (busy .started) ∧
    TargetQuiet 24 (busy .started) ∧ ({ busy .started with ph3 := false } : State).shiftReady.modesSet = false ∧
    ∀ k, k < 8 → (busy .started).env.reacts.nth Config.freeReact (2 * k + 1) =
      (busy .started).env.reacts.nth Config.freeReact (2 * k) :=
  ⟨by decide, by decide, by decide, ⟨by decide, by decide⟩, by decide, by decide⟩

/-- ShiftCommandsRefusedWhenNotReady: both clauses, each mode by itself. -/
theorem witness_ShiftCommandsRefusedWhenNotReady :
    idle.pindir.getLsbD 0 = false ∧ ({ busy .started with ph3 := false } : State).pindir.getLsbD 0 = true ∧
    ({ busy .started with ph3 := false } : State).ph3 = false ∧
    ({ busy .started with div5 := true } : State).div5 = true ∧
    ({ busy .started with adapt := true } : State).adapt = true := by decide

/-- StartFromIdleBusMakesStartCondition, on all four levels of the lines. -/
theorem witness_StartFromIdleBusMakesStartCondition :
    idle.params.Wf ∧ idle.fatal = false ∧ idle.cmdq = [] ∧ idle.drawWrite = .ok ∧
    TargetQuiet (2 * idle.params.repeatCount + 1) idle ∧ idle.levels = ⟨true, true⟩ ∧
    ({ idle with pindir := 0x01 } : State).levels = ⟨true, false⟩ ∧ idle.drawOrder = .sclFirst ∧
    ({ idle with pindir := 0x02 } : State).levels = ⟨false, true⟩ ∧
    ({ idle with pindir := 0x03 } : State).levels = ⟨false, false⟩ :=
  ⟨by decide, by decide, by decide, by decide, ⟨by decide, by decide⟩, by decide, by decide, by decide, by decide,
    by decide⟩

/-- StopConditionNeedsSclToRiseFirst, with SCL low and on the idle bus, in both orders. -/
theorem witness_StopConditionNeedsSclToRiseFirst :
    (busy .started).params.Wf ∧ (busy .started).fatal = false ∧ (busy .started).cmdq = [] ∧
    (busy .started).drawWrite = .ok ∧ TargetQuiet (2 * (busy .started).params.repeatCount + 1) (busy .started) ∧
    (busy .started).levels = ⟨false, false⟩ ∧ (busy .started).drawOrder = .sclFirst ∧
    ({ busy .started with env := { env with orders := ⟨[.sdaFirst], 0⟩ } } : State).drawOrder = .sdaFirst ∧
    TargetQuiet (2 * idle.params.repeatCount + 1) idle ∧ idle.levels = ⟨true, true⟩ ∧
    idle.env.orders.nth Config.freeOrder 1 = .sclFirst :=
  ⟨by decide, by decide, by decide, by decide, ⟨by decide, by decide⟩, by decide, by decide, by decide,
    ⟨by decide, by decide⟩, by decide, by decide⟩

/-- SENDBYTE with Stage P running all three commands before its read, and an acking target. -/
def sending : State :=
  { busy .started with env := { env with
      reads := ⟨[.bytes 1], 0⟩, paces := ⟨[3], 0⟩,
      reacts := ⟨List.replicate 23 false ++ [true, true, true, false], 0⟩ } }

/-- SendByteTransmitsAndSamplesAck. -/
theorem witness_SendByteTransmitsAndSamplesAck :
    sending.params.Wf ∧ sending.fatal = false ∧ sending.clkcfg = true ∧ sendBus sending.bus = true ∧
    OpenDrain sending ∧ sending.pindir.getLsbD 0 = true ∧ sending.shiftReady.modesSet = true ∧ sending.cmdq = [] ∧
    sending.rspq = [] ∧ sending.rspa = [] ∧ sending.env.writes.nth Config.freeWrite 0 = .ok ∧
    sending.env.writes.nth Config.freeWrite 1 = .ok ∧ sending.drawPace = 0 + 3 ∧ sending.drawRead = .bytes (0 + 1) ∧
    TargetQuiet 23 sending ∧
    sending.env.reacts.nth Config.freeReact 25 = sending.env.reacts.nth Config.freeReact 24 :=
  ⟨by decide, by decide, by decide, by decide, by decide, by decide, by decide, by decide, by decide, by decide,
    by decide, by decide, by decide, by decide, ⟨by decide, by decide⟩, by decide⟩

/-- READBYTE with Stage P running all four commands before its read. -/
def receiving : State :=
  { busy .addressPhase with env := { env with reads := ⟨[.bytes 2], 0⟩, paces := ⟨[4], 0⟩ } }

/-- ReadByteReceivesTheTargetsByte. -/
theorem witness_ReadByteReceivesTheTargetsByte :
    receiving.params.Wf ∧ receiving.fatal = false ∧ receiving.clkcfg = true ∧ readBus receiving.bus = true ∧
    receiving.shiftReady.modesSet = true ∧ receiving.cmdq = [] ∧ receiving.rspq = [] ∧ receiving.rspa = [] ∧
    receiving.env.writes.nth Config.freeWrite 0 = .ok ∧ receiving.env.writes.nth Config.freeWrite 1 = .ok ∧
    receiving.drawPace = 0 + 4 ∧ receiving.drawRead = .bytes (0 + 2) := by decide

/-- The state of `writeTransaction(0x20, ..)` with a Nack. -/
def nacked : State :=
  { answered .idle [0x01] [.bytes 1] with env := { env with
      writes := ⟨[.ok, .ok, .ok, .ok], 0⟩, reads := ⟨[.bytes 1], 0⟩ } }

/-- AddressNackSendsNoPayload: the three operations go on, the second with a Nack. -/
theorem witness_AddressNackSendsNoPayload :
    nacked.params.abortOnAddrNack = true ∧ ∃ t u v, exec .start nacked = .next t ∧ t.fatal = false ∧
      exec (.sendByte (addressByte 0x20 false)) t = .next u ∧ u.fatal = false ∧ resultNack u.result = true ∧
      exec .stop u = .next v ∧ v.fatal = false := by
  refine ⟨by decide, ?_⟩
  have h : goesOn (exec .start nacked) (fun t => !t.fatal &&
      goesOn (exec (.sendByte (addressByte 0x20 false)) t) (fun u => !u.fatal && resultNack u.result &&
        goesOn (exec .stop u) (fun v => !v.fatal))) = true := by decide
  obtain ⟨t, ht, h⟩ := goesOn_spec h
  rw [Bool.and_eq_true] at h
  obtain ⟨u, hu, h'⟩ := goesOn_spec h.2
  rw [Bool.and_eq_true, Bool.and_eq_true] at h'
  obtain ⟨v, hv, h''⟩ := goesOn_spec h'.2
  exact ⟨t, u, v, ht, by simpa using h.1, hu, by simpa using h'.1.1, h'.1.2, hv, by simpa using h''⟩

/-- CompositesReturnToIdle: each composite, without and with a fatal error. -/
theorem witness_CompositesReturnToIdle :
    goesOn (writeTransaction 0x20 [] nacked) (fun r => !r.2.fatal) = true ∧
    goesOn (readTransaction 0x20 1 nacked) (fun r => !r.2.fatal) = true ∧
    goesOn (writeTransaction 0x50 [0xAB] (writing [.fail 0] idle)) (fun r => r.2.fatal) = true ∧
    goesOn (readTransaction 0x50 1 (writing [.fail 0] idle)) (fun r => r.2.fatal) = true := by decide

end Sys2Proof.Tests
end

/-! PROOFS. The family of 00_scope: whose turn a step is and what it keeps (R6, R9), what a command leaves to Stage S
(R2, R60), and that the byte operations complete when Stage P is safe (R9, R152 (g)). -/

namespace Sys2Proof.Machine

/-! ## The host's turn -/

theorem step_of_hostTurn {s : State} (h : s.drawTurn = .host) : step s = hostTurn exec s.takeTurn := by
  unfold step
  rw [h]
  rfl

/-- A word that decodes is taken and its operation runs (R71). -/
theorem hostTurn_operation {run : Instr → State → Step} {s : State} {w : Word} {ws : List Word} {i : Instr}
    (hw : s.env.words = w :: ws) (hd : decodeHost w = .operation i) :
    hostTurn run s = run i { s with env := { s.env with words := ws } } := by
  simp only [hostTurn, hw, hd]

/-- Settles O8: on the host's turn `step` is `hostTurn`, which runs what the first word decodes to. -/
theorem stepRunsHostOperation : Obligations.StepRunsHostOperation := by
  intro s w ws i ht hw hd
  exact (step_of_hostTurn ht).trans (hostTurn_operation (s := s.takeTurn) hw hd)

/-! ## What every step keeps -/

theorem Inside.targetDrives (b : Bool) (s : State) : Inside s (targetDrives b s) :=
  ⟨by simp, Moves.recordChange rfl, by simp⟩

theorem Inside.rst (s : State) : Inside s (rst s) := ⟨by simp [Machine.rst], Moves.rst s, by simp [Machine.rst]⟩

/-- Whoever's turn it is, a step keeps the parameters, moves the lines one at a time and only adds to CMD_OUT. -/
theorem step_inside {s t : State} (h : step s = .next t) : Inside s t := by
  have turn : Inside s s.takeTurn := .still rfl (List.prefix_refl _) rfl rfl rfl rfl
  rcases step_next h with ⟨_, _, rfl⟩ | ⟨w, ws, i, _, _, hd, hx⟩ | ⟨_, hx⟩ | ⟨b, _, rfl⟩ | ⟨p, _, rfl⟩
  · exact turn
  · have word : Inside s { s.takeTurn with env := { s.takeTurn.env with words := ws } } :=
      .still rfl (List.prefix_refl _) rfl rfl rfl rfl
    exact word.trans (.of_hostOperation (decodeHost_isHost hd) hx)
  · exact turn.trans (.of_engineStep hx)
  · exact turn.trans (.targetDrives b _)
  · exact (turn.trans (resetStart_inside p _)).trans (.rst _)

/-- Settles O23: the parameters are among what every step keeps. -/
theorem stepKeepsParameters : Obligations.StepKeepsParameters :=
  fun _ _ h => (step_inside h).params

/-! ## What a command leaves to Stage S -/

/-- Settles O24: exec of a primitive command is Stage P's own execution, which leaves Stage S and the queue alone. -/
theorem commandsLeaveStageSAlone : Obligations.CommandsLeaveStageSAlone := by
  intro s t i hi h
  rw [← engineExec_eq_exec hi] at h
  obtain ⟨same, hq, _⟩ := engineExec_next h
  exact ⟨same.bus, same.clkcfg, same.fatal, same.result, hq, same.cmdOut, same.params, same.words, same.turns,
    same.writes, same.reads, same.paces⟩

/-! ## The byte operations complete -/

/-- With no fatal error, a safe Stage P has only whole commands queued, and is ready once it has executed them. -/
theorem EngineSafe.readyCut {s : State} (h : EngineSafe s) (hf : s.fatal = false) :
    ∃ r, ReadyCut s r [] ∧ EndsReady s r := by
  obtain ⟨_, _, hr⟩ := h
  obtain ⟨r, cut, hq, he⟩ := hr.readyCut
  obtain ⟨rfl, hends⟩ := he hf
  exact ⟨r, hq, hends⟩

theorem EngineSafe.distinct {s : State} (h : EngineSafe s) : s.params.opcodes.Distinct := by
  obtain ⟨⟨_, _, _, ho⟩, _⟩ := h
  exact ho

/-- An operation whose work after its Emit completes when the write is good completes: a failed write ends it too
(R55). -/
theorem emitOr_completes {cmds : List Instr} {k : State → Step} {s : State} (h : ∃ t, k (sent cmds s) = .next t) :
    ∃ t, emitOr cmds k s = .next t := by
  rcases emitOr_cases cmds k s with ⟨_, he⟩ | ⟨n, _, he⟩
  · exact he ▸ h
  · exact ⟨_, he⟩

theorem execSendByte_completes {s : State} (h : EngineSafe s) (hf : s.fatal = false) (hc : s.clkcfg = true)
    (hb : sendBus s.bus = true) (v : Byte) : ∃ t, execSendByte v s = .next t := by
  obtain ⟨r, hq, hmodes, hlow⟩ := h.readyCut hf
  obtain ⟨got, u, hu, _⟩ := readAttempts_ready (s := sent (sendCommands v) s) (n := s.params.rdAttempts)
    h.distinct (hq.sent (afterAll_send r v (hlow hb) (hmodes hc)))
  rw [execSendByte, admission_eq_none.mpr ⟨hf, fun _ => hc, hb⟩, unlessRefused_none]
  exact emitOr_completes ⟨sendTail got u, andThen_eq_next.mpr ⟨(got, u), hu, rfl⟩⟩

theorem execReadByte_completes {s : State} (h : EngineSafe s) (hf : s.fatal = false) (hc : s.clkcfg = true)
    (hb : readBus s.bus = true) (last : Bool) : ∃ t, execReadByte last s = .next t := by
  obtain ⟨r, hq, hmodes, _⟩ := h.readyCut hf
  obtain ⟨u, hu, _⟩ := engineRuns_ready (s := sent (readCommands s.params) s) h.distinct
    (hq.sent (afterAll_read s.params r (hmodes hc)))
  rw [execReadByte, admission_eq_none.mpr ⟨hf, fun _ => hc, hb⟩, unlessRefused_none]
  exact emitOr_completes ⟨_, andThen_eq_next.mpr ⟨u, hu, rfl⟩⟩

/-! ## Where the byte operations take BUS -/

/-- An operation's last Emit raises the fatal error, or goes on to the operation's state writes (R55, R227). -/
theorem Ends.fatal_or {cmds : List Instr} {k : State → State} {s t : State} (h : Ends cmds k s t) :
    t.fatal = true ∨ t = k (sent cmds s) := by
  rcases h with ⟨_, rfl⟩ | ⟨n, _, rfl⟩
  · exact .inr rfl
  · exact .inl (raiseFatal_fatal _)

theorem busAfterSend_eq (b : BusState) : busAfterSend b = if b = .started then .addressPhase else .dataPhase := by
  cases b <;> rfl

/-- SENDBYTE that completes has met the fatal error or taken BUS on as R36 has it. -/
theorem execSendByte_bus {v : Byte} {s t : State} (h : execSendByte v s = .next t) :
    t.fatal = true ∨ t.bus = busAfterSend s.bus := by
  obtain ⟨_, ⟨n, _, rfl⟩ | ⟨_, got, u, hu, he⟩⟩ := execSendByte_next h
  · exact .inl (raiseFatal_fatal _)
  · have hub : u.bus = s.bus := (readAttempts_next hu).1.bus
    refine he.fatal_or.imp_right fun ht => ?_
    rw [ht, ← hub]
    rfl

/-- READBYTE that completes has met the fatal error or is in DataPhase, whatever it read (R36, R172). -/
theorem execReadByte_bus {last : Bool} {s t : State} (h : execReadByte last s = .next t) :
    t.fatal = true ∨ t.bus = .dataPhase := by
  obtain ⟨_, ⟨n, _, rfl⟩ | ⟨_, u, _, ⟨e, f, rfl, _⟩ | ⟨d, st, he⟩⟩⟩ := execReadByte_next h
  · exact .inl (raiseFatal_fatal _)
  · exact .inr rfl
  · refine he.fatal_or.imp_right fun ht => ?_
    rw [ht]
    rfl

/-- Settles O38: the queue a safe Stage P has, with what the operation emits, is executed without a refusal, so the
operation completes; and an operation that completes has set FATAL or moved BUS. -/
theorem admittedByteOperationsComplete : Obligations.AdmittedByteOperationsComplete := by
  intro s h hf hc
  refine ⟨fun v hb => ?_, fun last hb => ?_⟩
  · obtain ⟨t, ht⟩ := execSendByte_completes h hf hc hb v
    exact ⟨t, ht, busAfterSend_eq s.bus ▸ execSendByte_bus ht⟩
  · obtain ⟨t, ht⟩ := execReadByte_completes h hf hc hb last
    exact ⟨t, ht, execReadByte_bus ht⟩

end Sys2Proof.Machine

/-! PROOFS. The family of 10_state: what the reset event sets (R35, R250), the invariants every step keeps (R25, R32, R34,
R152 (g)), and the BUS machine with its refusals (R23, R24, R36, R233). -/

namespace Sys2Proof.Machine

/-! ## The reset event, register by register -/

@[simp] theorem rst_bus (s : State) : (rst s).bus = .idle := by simp [rst]
@[simp] theorem rst_clkcfg (s : State) : (rst s).clkcfg = false := by simp [rst]
@[simp] theorem rst_fatal (s : State) : (rst s).fatal = false := by simp [rst]
@[simp] theorem rst_result (s : State) : (rst s).result = 0 := by simp [rst]
@[simp] theorem rst_pindir (s : State) : (rst s).pindir = 0 := by simp [rst]
@[simp] theorem rst_pinval (s : State) : (rst s).pinval = 0 := by simp [rst]
@[simp] theorem rst_div (s : State) : (rst s).div = s.params.divReset := by simp [rst]
@[simp] theorem rst_div5 (s : State) : (rst s).div5 = s.drawByte.getLsbD 0 := by simp [rst]
@[simp] theorem rst_adapt (s : State) : (rst s).adapt = s.drawByte.getLsbD 1 := by simp [rst]
@[simp] theorem rst_ph3 (s : State) : (rst s).ph3 = s.drawByte.getLsbD 2 := by simp [rst]
@[simp] theorem rst_rxsh (s : State) : (rst s).rxsh = s.takeByte.drawByte := by simp [rst]
@[simp] theorem rst_cmdq (s : State) : (rst s).cmdq = [] := by simp [rst]
@[simp] theorem rst_rspq (s : State) : (rst s).rspq = [] := by simp [rst]
@[simp] theorem rst_rspa (s : State) : (rst s).rspa = [] := by simp [rst]
@[simp] theorem rst_tlow (s : State) : (rst s).tlow = s.tlow := by simp [rst]
@[simp] theorem rst_params (s : State) : (rst s).params = s.params := by simp [rst]
@[simp] theorem rst_cmdOut (s : State) : (rst s).cmdOut = s.cmdOut := by simp [rst]
@[simp] theorem rst_env_words (s : State) : (rst s).env.words = s.env.words := by simp [rst]

/-- The block releases both lines; only the target can still hold SDA low (R35, R252, log 18). -/
theorem rst_levels (s : State) : (rst s).levels = { sda := !s.tlow, scl := true } := by
  simp [State.levels, State.masterLow]

/-! ## What every step keeps -/

/-- A property is kept by every step if no input from the environment touches it, each agent keeps it, and the reset event
does on its turn. -/
theorem step_keeps {P : State → Prop} {s t : State} (h : P s) (hx : step s = .next t)
    (env : ∀ u e, P u → P { u with env := e })
    (host : ∀ {i u v}, i.isHost = true → P u → exec i u = .next v → P v)
    (engine : ∀ {u v}, P u → engineStep u = .next v → P v)
    (target : ∀ {u} b, P u → P (targetDrives b u))
    (reset : ∀ p, s.drawTurn = .rst p → P s.takeTurn → P (resetAt p s.takeTurn)) : P t := by
  have turn : P s.takeTurn := env s _ h
  rcases step_next hx with ⟨_, _, rfl⟩ | ⟨w, ws, i, _, _, hd, hx⟩ | ⟨_, hx⟩ | ⟨b, _, rfl⟩ | ⟨p, hp, rfl⟩
  · exact turn
  · exact host (decodeHost_isHost hd) (env s.takeTurn _ turn) hx
  · exact engine turn hx
  · exact target b turn
  · exact reset p hp turn

/-! ## Stage P's safety -/

/-- `t` agrees with `s` on all that Stage P's safety is about. -/
structure SameReady (s t : State) : Prop where
  cmdq   : t.cmdq = s.cmdq
  params : t.params = s.params
  facts  : t.shiftReady = s.shiftReady
  pinval : t.pinval = s.pinval

/-- What EngineSafe is inside a host operation: the queue is ready, with the facts `r` at its end and `cut` after it. -/
structure SafeCut (s : State) (r : ShiftReady) (cut : List Byte) : Prop where
  wf        : s.params.Wf
  openDrain : OpenDrain s
  ready     : ReadyCut s r cut

theorem EngineSafe.safeCut {s : State} (h : EngineSafe s) :
    ∃ r cut, SafeCut s r cut ∧ (s.fatal = false → cut = [] ∧ EndsReady s r) := by
  obtain ⟨hw, hd, hr⟩ := h
  obtain ⟨r, cut, hq, he⟩ := hr.readyCut
  exact ⟨r, cut, ⟨hw, hd, hq⟩, he⟩

/-- With no fatal error nothing is cut. -/
theorem EngineSafe.safeWhole {s : State} (h : EngineSafe s) (hf : s.fatal = false) :
    ∃ r, SafeCut s r [] ∧ EndsReady s r := by
  obtain ⟨r, cut, hs, he⟩ := h.safeCut
  obtain ⟨rfl, hends⟩ := he hf
  exact ⟨r, hs, hends⟩

section
variable {s t : State} {r q : ShiftReady} {cut : List Byte} {cmds : List Instr}

theorem SafeCut.engineSafe (h : SafeCut s r cut) (he : s.fatal = false → cut = [] ∧ EndsReady s r) : EngineSafe s :=
  ⟨h.wf, h.openDrain, h.ready.engineReady he⟩

theorem SafeCut.distinct (h : SafeCut s r cut) : s.params.opcodes.Distinct := by
  obtain ⟨_, _, _, ho⟩ := h.wf
  exact ho

theorem SafeCut.congr (h : SafeCut s r cut) (g : SameReady s t) : SafeCut t r cut := by
  obtain ⟨hw, hd, hq⟩ := h
  refine ⟨g.params ▸ hw, ?_, hq.congr g.cmdq g.params g.facts⟩
  unfold OpenDrain
  rwa [g.pinval]

/-- A change of state outside Stage P that keeps FATAL, CLKCFG and BUS keeps Stage P safe. -/
theorem EngineSafe.congr (h : EngineSafe s) (g : SameReady s t) (hf : t.fatal = s.fatal) (hc : t.clkcfg = s.clkcfg)
    (hb : t.bus = s.bus) : EngineSafe t := by
  obtain ⟨r, cut, hs, he⟩ := h.safeCut
  refine (hs.congr g).engineSafe ?_
  unfold EndsReady
  rwa [hf, hc, hb]

/-- Commands that Stage P will be ready for, written whole (R55). -/
theorem SafeCut.sent (h : SafeCut s r []) (ha : r.afterAll cmds = some q) : SafeCut (sent cmds s) q [] :=
  ⟨h.wf, h.openDrain, h.ready.sent ha⟩

/-- The same commands, cut by a failed write: FATAL is set, and the cut command is never executed (R88, R227). -/
theorem SafeCut.engineSafe_failed (h : SafeCut s r []) (ha : r.afterAll cmds = some q) (n : Nat) :
    EngineSafe (raiseFatal (cutSent cmds n s)) := by
  obtain ⟨q', cut, hq⟩ := h.ready.cutSent h.distinct ha n
  have hs : SafeCut (raiseFatal (cutSent cmds n s)) q' cut := ⟨h.wf, h.openDrain, hq.congr rfl rfl rfl⟩
  exact hs.engineSafe nofun

/-- An operation's last Emit keeps Stage P safe, when the operation's state writes fit the queue's end. -/
theorem Ends.engineSafe {k : State → State} (h : Ends cmds k s t) (hs : SafeCut s r []) (ha : r.afterAll cmds = some q)
    (hk : SameReady (Machine.sent cmds s) (k (Machine.sent cmds s))) (he : EndsReady (k (Machine.sent cmds s)) q) :
    EngineSafe t := by
  rcases h with ⟨_, rfl⟩ | ⟨n, _, rfl⟩
  · exact ((hs.sent ha).congr hk).engineSafe fun _ => ⟨rfl, he⟩
  · exact hs.engineSafe_failed ha n

theorem SafeCut.of_engineStep (h : SafeCut s r cut) (hx : engineStep s = .next t) : SafeCut t r cut := by
  obtain ⟨t', ht, hq, hd⟩ := engineStep_ready h.distinct h.ready
  cases ht.symm.trans hx
  exact ⟨(engineStep_next hx).1.params ▸ h.wf, hd h.openDrain, hq⟩

theorem SafeCut.of_engineRuns (h : SafeCut s r cut) (hx : engineRuns s = .next t) : SafeCut t r cut := by
  obtain ⟨t', ht, hq, hd⟩ := engineRuns_ready h.distinct h.ready
  cases ht.symm.trans hx
  exact ⟨(engineRuns_next hx).1.params ▸ h.wf, hd h.openDrain, hq⟩

theorem SafeCut.of_readAttempts {n : Nat} {got : Option Byte} (h : SafeCut s r cut)
    (hx : readAttempts n s = .next (got, t)) : SafeCut t r cut := by
  obtain ⟨got', t', ht, hq, hd⟩ := readAttempts_ready (n := n) h.distinct h.ready
  cases ht.symm.trans hx
  exact ⟨(readAttempts_next hx).1.params ▸ h.wf, hd h.openDrain, hq⟩

theorem SafeCut.linkRead (h : SafeCut s r cut) (n : Nat) : SafeCut (linkRead n s).2 r cut := by
  obtain ⟨hs, _, hq, hf, hv⟩ := linkRead_same n s
  exact h.congr ⟨hq, hs.params, hf, hv⟩

/-- With nothing queued, no clock configuration and no transfer, there is nothing for Stage P to refuse. -/
theorem engineSafe_of_empty (hw : s.params.Wf) (hd : OpenDrain s) (hq : s.cmdq = []) (hc : s.clkcfg = false)
    (hb : sendBus s.bus = false) : EngineSafe s :=
  SafeCut.engineSafe (r := s.shiftReady) (cut := []) ⟨hw, hd, rfl, [], hq, rfl⟩ fun _ => ⟨rfl, by simp [hc], by simp [hb]⟩

/-! ## Every host operation keeps Stage P safe -/

theorem execStart_engineSafe (h : EngineSafe s) (hx : execStart s = .next t) : EngineSafe t := by
  obtain ⟨hf, he⟩ := execStart_next hx
  obtain ⟨r, hs, hmodes, _⟩ := h.safeWhole hf
  obtain ⟨q, ha, hm, hlow⟩ := afterAll_patterns s.params 0b10#2 0b11#2 s.params.repeatCount r
  exact he.engineSafe hs ha ⟨rfl, rfl, rfl, rfl⟩ ⟨fun hc => hm.trans (hmodes hc), fun _ => hlow⟩

theorem execStop_engineSafe (h : EngineSafe s) (hx : execStop s = .next t) : EngineSafe t := by
  obtain ⟨hf, he⟩ := execStop_next hx
  obtain ⟨r, hs, hmodes, _⟩ := h.safeWhole hf
  obtain ⟨q, ha, hm, _⟩ := afterAll_patterns s.params 0b11#2 0b00#2 s.params.repeatCount r
  exact he.engineSafe hs ha ⟨rfl, rfl, rfl, rfl⟩ ⟨fun hc => hm.trans (hmodes hc), nofun⟩

/-- SETCLK sets the clock modes, and the bus is idle (R102). -/
theorem execSetClk_engineSafe {d : Half} (h : EngineSafe s) (hx : execSetClk d s = .next t) : EngineSafe t := by
  obtain ⟨hf, hb, he⟩ := execSetClk_next hx
  obtain ⟨r, hs, _, hlow⟩ := h.safeWhole hf
  exact he.engineSafe hs (afterAll_config r d) ⟨rfl, rfl, rfl, rfl⟩ ⟨fun _ => rfl, hlow⟩

/-- SENDBYTE finds SCL low and the clock modes set, and leaves them so (R170). -/
theorem execSendByte_engineSafe {v : Byte} (h : EngineSafe s) (hx : execSendByte v s = .next t) : EngineSafe t := by
  obtain ⟨⟨hf, hc, hb⟩, hx⟩ := execSendByte_next hx
  obtain ⟨r, hs, hmodes, hlow⟩ := h.safeWhole hf
  have ha := afterAll_send r v (hlow hb) (hmodes hc)
  rcases hx with ⟨n, _, rfl⟩ | ⟨_, got, u, hu, he⟩
  · exact hs.engineSafe_failed ha n
  · exact he.engineSafe ((hs.sent ha).of_readAttempts hu) (afterAll_one u.params 0b01#2 r) ⟨rfl, rfl, rfl, rfl⟩
      ⟨fun _ => hmodes hc, fun _ => rfl⟩

/-- READBYTE drives SCL low itself, and every end of it leaves SCL low (R172, R173). -/
theorem execReadByte_engineSafe {last : Bool} (h : EngineSafe s) (hx : execReadByte last s = .next t) :
    EngineSafe t := by
  obtain ⟨⟨hf, hc, hb⟩, hx⟩ := execReadByte_next hx
  obtain ⟨r, hs, hmodes, _⟩ := h.safeWhole hf
  have ha := afterAll_read s.params r (hmodes hc)
  rcases hx with ⟨n, _, rfl⟩ | ⟨_, u, hu, hend⟩
  · exact hs.engineSafe_failed ha n
  · have hl := ((hs.sent ha).of_engineRuns hu).linkRead 2
    rcases hend with ⟨e, f, rfl, _⟩ | ⟨d, st, he⟩
    · have hend : SafeCut (readFails e f (linkRead 2 u).2) { r with sclLow := true } [] := hl.congr ⟨rfl, rfl, rfl, rfl⟩
      exact hend.engineSafe fun _ => ⟨rfl, fun _ => hmodes hc, fun _ => rfl⟩
    · have hack : ∀ p, ({ r with sclLow := true } : ShiftReady).afterAll [ackPattern p last] =
          some { r with sclLow := true } := by
        intro p
        cases last
        · exact afterAll_one p 0b11#2 _
        · exact afterAll_one p 0b01#2 _
      exact he.engineSafe hl (hack _) ⟨rfl, rfl, rfl, rfl⟩ ⟨fun _ => hmodes hc, fun _ => rfl⟩

theorem hostOperation_engineSafe {i : Instr} (hi : i.isHost = true) (h : EngineSafe s) (hx : exec i s = .next t) :
    EngineSafe t := by
  cases i <;> try cases hi
  case start => exact execStart_engineSafe h hx
  case stop => exact execStop_engineSafe h hx
  case sendByte v => exact execSendByte_engineSafe h hx
  case readByte last => exact execReadByte_engineSafe h hx
  case setClk d => exact execSetClk_engineSafe h hx
  case setAddr a rd => cases hx; exact h.congr ⟨rfl, rfl, rfl, rfl⟩ rfl rfl rfl

theorem engineStep_engineSafe (h : EngineSafe s) (hx : engineStep s = .next t) : EngineSafe t := by
  obtain ⟨r, cut, hs, he⟩ := h.safeCut
  obtain ⟨same, _, _⟩ := engineStep_next hx
  refine (hs.of_engineStep hx).engineSafe ?_
  unfold EndsReady
  rwa [same.fatal, same.clkcfg, same.bus]

theorem targetDrives_engineSafe (h : EngineSafe s) (b : Bool) : EngineSafe (targetDrives b s) :=
  h.congr ⟨by simp, by simp, by simp [State.shiftReady], by simp⟩ (by simp) (by simp) (by simp)

theorem rst_engineSafe (hw : s.params.Wf) : EngineSafe (rst s) :=
  engineSafe_of_empty (by simpa using hw) (by simp [OpenDrain]) (by simp) (by simp) (by simp [sendBus])

end

/-- Settles O18: each agent keeps Stage P safe, whatever it does; and after the reset event nothing is queued. -/
theorem stepKeepsEngineSafe : Obligations.StepKeepsEngineSafe := by
  intro s t h hx
  refine step_keeps h hx (fun u e p => p.congr ⟨rfl, rfl, rfl, rfl⟩ rfl rfl rfl) hostOperation_engineSafe
    engineStep_engineSafe (fun b p => targetDrives_engineSafe p b) (fun p _ turn => ?reset)
  case reset =>
    obtain ⟨hw, _⟩ := turn
    exact rst_engineSafe ((resetStart_inside p s.takeTurn).params ▸ hw)

/-! ## The other invariants -/

/-- RESULT is a copy of FATAL and BUS, so what keeps all three keeps the mirror. -/
theorem ResultMirrors.congr {s t : State} (h : ResultMirrors s) (hr : t.result = s.result) (hf : t.fatal = s.fatal)
    (hb : t.bus = s.bus) : ResultMirrors t := by
  unfold ResultMirrors
  rwa [hr, hf, hb]

/-- Writing RESULT whole makes the mirror, with any code the block writes (R25, R226). -/
theorem resultMirrors_writeResult {f : ResultFields} {s : State} (he : f.err = 0 ∨ f.err = 2 ∨ f.err = 5)
    (hb : s.bus ≠ .stopped) : ResultMirrors (writeResult f s) := by
  simpa [ResultMirrors] using ⟨he, hb⟩

theorem resultMirrors_of_idle {s : State} (hr : s.result = 0) (hf : s.fatal = false) (hb : s.bus = .idle) :
    ResultMirrors s := by
  unfold ResultMirrors
  rw [hr, hf, hb]
  decide

/-- Settles O15: a host operation ends by writing RESULT whole, and nobody else but the reset event writes RESULT, FATAL or
BUS. -/
theorem stepKeepsResultMirrors : Obligations.StepKeepsResultMirrors := by
  intro s t h hx
  refine step_keeps h hx (fun _ _ p => p) (fun hi p hx => ?host) (fun p hx => ?engine)
    (fun b p => p.congr (by simp) (by simp) (by simp))
    (fun _ _ _ => resultMirrors_of_idle (rst_result _) (rst_fatal _) (rst_bus _))
  case host =>
    obtain ⟨_, _, _, _, _, hb⟩ := p
    obtain ⟨f, u, rfl, he, hu⟩ := hostOperation_ends hi hx hb
    exact resultMirrors_writeResult he hu
  case engine =>
    obtain ⟨same, _, _⟩ := engineStep_next hx
    exact p.congr same.result same.fatal same.bus

/-- Taking from the front of CMDQ keeps it the end of CMD_OUT. -/
theorem QueueIsTail.of_suffix {s t : State} (h : QueueIsTail s) (hq : t.cmdq <:+ s.cmdq) (ho : t.cmdOut = s.cmdOut) :
    QueueIsTail t := by
  unfold QueueIsTail
  rw [ho]
  exact hq.trans h

/-- A write appends to both (R51, R55). -/
theorem QueueIsTail.queue {s : State} (h : QueueIsTail s) (bytes : List Byte) : QueueIsTail (s.takeWrite.queue bytes) :=
  List.suffix_append_self_iff.mpr h

theorem rst_queueIsTail (s : State) : QueueIsTail (rst s) := by
  unfold QueueIsTail
  rw [rst_cmdq]
  exact List.nil_suffix

theorem hostOperation_queueIsTail {i : Instr} {s t : State} (hi : i.isHost = true) (h : QueueIsTail s)
    (hx : exec i s = .next t) : QueueIsTail t := by
  refine hostOperation_keeps (fun _ bytes p => p.queue bytes) (fun u v hr p => ?_) (fun n u p => ?_)
    (fun _ _ _ _ _ p => p) hi hx h
  · obtain ⟨same, _, hq⟩ := engineRuns_next hr
    exact p.of_suffix hq same.cmdOut
  · obtain ⟨same, _, hq, _⟩ := linkRead_same n u
    exact p.of_suffix (hq ▸ List.suffix_refl _) same.cmdOut

/-- Settles O16: Stage S appends to both, Stage P removes from the front of CMDQ, and the reset event empties CMDQ. -/
theorem stepKeepsQueueTail : Obligations.StepKeepsQueueTail := by
  intro s t h hx
  refine step_keeps h hx (fun _ _ p => p) hostOperation_queueIsTail (fun p hx => ?engine)
    (fun b p => p.of_suffix (by simp) (by simp)) (fun _ _ _ => rst_queueIsTail _)
  case engine =>
    obtain ⟨same, _, hq⟩ := engineStep_next hx
    exact p.of_suffix hq same.cmdOut

/-! ## Reset -/

theorem standardParams_wf : Params.standard.Wf := ⟨by decide, by decide, Nat.succ_pos _, Opcodes.standard_distinct⟩

/-- Settles O13, field by field. -/
theorem resetStateIsAsTheSpecSays : Obligations.ResetStateIsAsTheSpecSays :=
  ⟨rfl, rfl, rfl, rfl, rfl, rfl, rfl, rfl, rfl, rfl, rfl, standardParams_wf⟩

/-- Settles O19: nothing is queued, RESULT is 0 with BUS idle, and the history is the idle bus alone. -/
theorem resetMeetsInvariants : Obligations.ResetMeetsInvariants :=
  ⟨resultMirrors_of_idle rfl rfl rfl, List.nil_suffix, ⟨rfl, rfl⟩,
    engineSafe_of_empty standardParams_wf ⟨rfl, rfl⟩ rfl rfl rfl⟩

/-- On the reset event's turn the event happens, wherever it finds the block (R250). -/
theorem step_of_rst {s : State} {p : ResetPoint} (h : s.drawTurn = .rst p) : step s = .next (resetAt p s.takeTurn) := by
  unfold step
  rw [h]
  rfl

/-- A drawn byte whose low bits are the values DIV5, ADAPT and PH3 take (log 3). -/
def modesByte (div5 adapt ph3 : Bool) : Byte := 0#5 ++ BitVec.ofBool ph3 ++ BitVec.ofBool adapt ++ BitVec.ofBool div5

theorem modesByte_bits (b c d : Bool) :
    (modesByte b c d).getLsbD 0 = b ∧ (modesByte b c d).getLsbD 1 = c ∧ (modesByte b c d).getLsbD 2 = d := by
  revert b c d; decide

/-- DIV5, ADAPT, PH3 and RXSH take any value between steps, under some draw (R35). -/
theorem rst_anyValue {s : State} (h : s.drawTurn = .rst .between) (b c d : Bool) (x : Byte) :
    ∃ draws u, step { s with env := { s.env with draws := draws } } = .next u ∧
      u.div5 = b ∧ u.adapt = c ∧ u.ph3 = d ∧ u.rxsh = x := by
  obtain ⟨h0, h1, h2⟩ := modesByte_bits b c d
  refine ⟨⟨[modesByte b c d, x], 0⟩, _, step_of_rst h, ?_⟩
  rw [resetAt_between, rst_div5, rst_adapt, rst_ph3, rst_rxsh]
  exact ⟨h0, h1, h2, rfl⟩

/-! ### Inside a host operation -/

theorem encodeCommands_replicate_pat (p : Params) (d : BitVec 2) (n : Nat) :
    encodeCommands p.opcodes (List.replicate n (pat p d)) = (List.replicate n (patBytes p d)).flatten := by
  rw [encodeCommands, List.flatMap_replicate]
  rfl

/-- START's bytes (R150). -/
theorem encodeCommands_start (p : Params) :
    encodeCommands p.opcodes (startCommands p) = (List.replicate p.repeatCount (patBytes p 0b10#2)).flatten ++
      (List.replicate p.repeatCount (patBytes p 0b11#2)).flatten ++ patBytes p 0b11#2 := by
  simp only [startCommands, encodeCommands_append, encodeCommands_replicate_pat]
  rfl

theorem resetStart_inHost {s q : State} {w : Word} {ws : List Word} {i : Instr} {k : Nat} (hw : s.env.words = w :: ws)
    (hd : decodeHost w = .operation i)
    (hq : (operationPoints i { s with env := { s.env with words := ws } })[k]? = some q) :
    resetStart (.inHost k) s = q := by
  simp only [resetStart, hostPoints, hw, hd, hq, Option.getD_some]

/-- START and STOP are admitted in every BUS state (R150, R151). -/
theorem admission_anyBus {s : State} (hf : s.fatal = false) : admission false anyBus s = none :=
  admission_eq_none.mpr ⟨hf, nofun, by cases s.bus <;> rfl⟩

/-- START's second point, once its write is good, is its end: all its bytes are written. -/
theorem resetStart_start {s : State} {ws : List Word} (hw : s.env.words = 0x01000000#32 :: ws) (hf : s.fatal = false)
    (hok : s.drawWrite = .ok) :
    (resetStart (.inHost 1) s).cmdOut = s.cmdOut ++ encodeCommands s.params.opcodes (startCommands s.params) := by
  have hq : ∀ u : State, u.fatal = false → u.drawWrite = .ok →
      (operationPoints .start u)[1]? = some (finishStart (sent (startCommands u.params) u)) := by
    intro u hf hok
    simp only [operationPoints, unlessRefusedPoints, execStart, admission_anyBus hf, unlessRefused_none,
      emitThen_ok _ _ hok]
    rfl
  rw [resetStart_inHost hw (by decide) (hq _ hf hok)]
  rfl

/-- SENDBYTE's second point, once its first write is good, is the end of that Emit (log 26). -/
theorem resetStart_sendByte {s : State} {v : Byte} {ws : List Word} (hw : s.env.words = (0x03#8 ++ 0#16 ++ v) :: ws)
    (hf : s.fatal = false) (hc : s.clkcfg = true) (hb : sendBus s.bus = true) (hok : s.drawWrite = .ok) :
    (resetStart (.inHost 1) s).cmdOut = s.cmdOut ++ encodeCommands s.params.opcodes (sendCommands v) := by
  have hd : decodeHost (0x03#8 ++ 0#16 ++ v) = .operation (.sendByte v) :=
    (Laws.Encoding.sendByte v _ Opcodes.standard_distinct).1 _ rfl
  have hq : ∀ u : State, admission true sendBus u = none → u.drawWrite = .ok →
      (operationPoints (.sendByte v) u)[1]? = some (sent (sendCommands v) u) := by
    intro u ha hok
    simp only [operationPoints, unlessRefusedPoints, ha, emitPoints, emit_ok _ hok, if_true]
    rfl
  rw [resetStart_inHost hw hd (hq _ (admission_eq_none.mpr ⟨hf, fun _ => hc, hb⟩) hok)]
  rfl

/-- Settles O14: the event's own writes are the same from every point; what each point leaves in the histories is what the
block had done by then. -/
theorem resetEventSetsEverything : Obligations.ResetEventSetsEverything := by
  intro s point h
  obtain ⟨hp, ⟨ch, path, _⟩, ho⟩ : Inside s.takeTurn (resetAt point s.takeTurn) :=
    (resetStart_inside point _).trans (.rst _)
  have hparams : (resetStart point s.takeTurn).params = s.params := (resetStart_inside point _).params
  refine ⟨_, step_of_rst h, rst_bus _, rst_clkcfg _, rst_fatal _, rst_result _, rst_pindir _, rst_pinval _,
    hparams ▸ rst_div _, rst_cmdq _, rst_rspq _, rst_rspa _, ?_, hp, ⟨ch, path.wave.symm⟩, ho, ?_, ?_, ?_⟩
  · rw [resetAt, rst_levels, rst_tlow]
  · rintro rfl
    exact ⟨rst_tlow _, rst_cmdOut _, rst_env_words _, rst_anyValue h⟩
  · rintro k i rest m rfl hd s₀ hx hk
    rw [← engineExec_eq_exec (decodeCommand_command hd).1] at hx
    exact ⟨engineExec_acts hx, resetAt_inEngine (s := s.takeTurn) hd ⟨m, hx⟩ hk⟩
  · rintro rfl hf hok
    refine ⟨fun ws hw => ?_, fun v ws hw hc hb => ?_⟩
    · rw [resetAt, rst_cmdOut, resetStart_start (s := s.takeTurn) hw hf hok, List.append_assoc s.cmdOut,
        List.append_assoc s.cmdOut, ← encodeCommands_start]
      rfl
    · rw [resetAt, rst_cmdOut, resetStart_sendByte (s := s.takeTurn) hw hf hc hb hok]
      rfl

/-! ## Refusals -/

theorem unlessRefused_of_fatal {c : Bool} {adm : BusState → Bool} {s : State} {k : Step} (hf : s.fatal = true) :
    unlessRefused (admission c adm s) k = .refused .sessionFatal := by
  rw [admission_fatal hf, unlessRefused_some]

/-- While FATAL is 1 every host operation but SETADDR is refused (R24, R233). -/
theorem exec_of_fatal {i : Instr} {s : State} (hf : s.fatal = true) (hi : i.isHost = true)
    (hs : ∀ a r, i ≠ .setAddr a r) : exec i s = .refused .sessionFatal := by
  cases i <;> try cases hi
  case start => exact unlessRefused_of_fatal hf
  case stop => exact unlessRefused_of_fatal hf
  case sendByte v => exact unlessRefused_of_fatal hf
  case readByte last => exact unlessRefused_of_fatal hf
  case setClk d => exact unlessRefused_of_fatal hf
  case setAddr a r => exact absurd rfl (hs a r)

/-- A host operation that completes with FATAL already 1 is SETADDR, which keeps it. -/
theorem hostOperation_keeps_fatal {i : Instr} {s t : State} (hi : i.isHost = true) (hf : s.fatal = true)
    (h : exec i s = .next t) : t.fatal = true := by
  by_cases hs : ∀ a r, i ≠ .setAddr a r
  · rw [exec_of_fatal hf hi hs] at h
    cases h
  · push Not at hs
    obtain ⟨a, r, rfl⟩ := hs
    cases h
    exact hf

/-- Settles O21: nobody but Stage S and the reset event writes FATAL, and Stage S only sets it. -/
theorem fatalIsSticky : Obligations.FatalIsSticky := by
  refine ⟨fun s t hf hrst hx => ?_, fun s i => exec_of_fatal⟩
  exact step_keeps (P := fun u => u.fatal = true) hf hx (fun _ _ p => p) hostOperation_keeps_fatal
    (fun p hx => (engineStep_next hx).1.fatal.trans p) (fun b p => (targetDrives_fatal b _).trans p)
    (fun p hp => absurd hp (hrst p))

/-- What an operation's last Emit keeps: what neither the operation's state writes nor a fatal error changes. -/
theorem Ends.keeps {α : Type} (f : State → α) {cmds : List Instr} {k : State → State} {s t : State} (h : Ends cmds k s t)
    (hk : f (k (sent cmds s)) = f s) (hfail : ∀ n, f (raiseFatal (cutSent cmds n s)) = f s) : f t = f s := by
  rcases h with ⟨_, rfl⟩ | ⟨n, _, rfl⟩
  · exact hk
  · exact hfail n

/-- Of the host operations only SETCLK changes CLKCFG, and it only sets it (R23, R102). -/
theorem hostOperation_clkcfg {i : Instr} {s t : State} (hi : i.isHost = true) (h : exec i s = .next t) :
    t.clkcfg = s.clkcfg ∨ t.clkcfg = true ∧ ∃ d, i = .setClk d := by
  cases i <;> try cases hi
  case start => exact .inl ((execStart_next h).2.keeps State.clkcfg rfl fun _ => rfl)
  case stop => exact .inl ((execStop_next h).2.keeps State.clkcfg rfl fun _ => rfl)
  case sendByte v =>
    obtain ⟨_, ⟨n, _, rfl⟩ | ⟨_, got, u, hu, he⟩⟩ := execSendByte_next h
    · exact .inl rfl
    · exact .inl ((he.keeps State.clkcfg rfl fun _ => rfl).trans (readAttempts_next hu).1.clkcfg)
  case readByte last =>
    obtain ⟨_, ⟨n, _, rfl⟩ | ⟨_, u, hu, hend⟩⟩ := execReadByte_next h
    · exact .inl rfl
    · have hl : (linkRead 2 u).2.clkcfg = s.clkcfg :=
        (linkRead_same 2 u).1.clkcfg.trans (engineRuns_next hu).1.clkcfg
      rcases hend with ⟨e, f, rfl, _⟩ | ⟨d, st, he⟩
      · exact .inl hl
      · exact .inl ((he.keeps State.clkcfg rfl fun _ => rfl).trans hl)
  case setClk d =>
    rcases (execSetClk_next h).2.2 with ⟨_, rfl⟩ | ⟨n, _, rfl⟩
    · exact .inr ⟨rfl, d, rfl⟩
    · exact .inl rfl
  case setAddr a r => cases h; exact .inl rfl

/-- Settles O22: outside reset only a host operation changes CLKCFG, and that one is SETCLK. -/
theorem clkcfgOnlySetBySetClk : Obligations.ClkcfgOnlySetBySetClk := by
  intro s t hrst hx hne
  rcases step_next hx with ⟨_, _, rfl⟩ | ⟨w, ws, i, hturn, hw, hd, hx⟩ | ⟨_, hx⟩ | ⟨b, _, rfl⟩ | ⟨p, hp, rfl⟩
  · exact absurd rfl hne
  · rcases hostOperation_clkcfg (decodeHost_isHost hd) hx with hsame | ⟨hset, d, rfl⟩
    · exact absurd hsame hne
    · exact ⟨hset, hturn, w, ws, d, hw, hd⟩
  · exact absurd (engineStep_next hx).1.clkcfg hne
  · exact absurd (targetDrives_clkcfg b _) hne
  · exact absurd hp (hrst p)

/-! ## The BUS machine -/

theorem sendBus_eq_false {b : BusState} : sendBus b = false ↔ b = .idle ∨ b = .stopped := by
  cases b <;> decide

theorem readBus_eq_false {b : BusState} : readBus b = false ↔ b = .idle ∨ b = .started ∨ b = .stopped := by
  cases b <;> decide

theorem sendBus_eq {b : BusState} : sendBus b = true ↔ b = .started ∨ b = .addressPhase ∨ b = .dataPhase := by
  cases b <;> decide

theorem readBus_eq {b : BusState} : readBus b = true ↔ b = .addressPhase ∨ b = .dataPhase := by
  cases b <;> decide

/-- Without the fatal error an operation's last Emit has gone on to the operation's state writes. -/
theorem Ends.done {cmds : List Instr} {k : State → State} {s t : State} (h : Ends cmds k s t) (ht : t.fatal = false) :
    t = k (sent cmds s) :=
  h.fatal_or.resolve_left (by simp [ht])

/-- An operation whose state writes leave FATAL alone keeps BUS when its last Emit raises the fatal error (R227). -/
theorem Ends.bus_of_fatal {cmds : List Instr} {k : State → State} {s t : State} (h : Ends cmds k s t)
    (hk : (k (sent cmds s)).fatal = s.fatal) (hs : s.fatal = false) (ht : t.fatal = true) : t.bus = s.bus := by
  rcases h with ⟨_, rfl⟩ | ⟨n, _, rfl⟩
  · rw [hk, hs] at ht
    cases ht
  · rfl

/-- A host operation that raises the fatal error keeps BUS (R36, R227). -/
theorem hostOperation_bus_of_fatal {i : Instr} {s t : State} (hi : i.isHost = true) (hs : s.fatal = false)
    (h : exec i s = .next t) (ht : t.fatal = true) : t.bus = s.bus := by
  cases i <;> try cases hi
  case start => exact (execStart_next h).2.bus_of_fatal rfl hs ht
  case stop => exact (execStop_next h).2.bus_of_fatal rfl hs ht
  case setClk d => exact (execSetClk_next h).2.2.bus_of_fatal rfl hs ht
  case setAddr a r => cases h; rfl
  case sendByte v =>
    obtain ⟨_, ⟨n, _, rfl⟩ | ⟨_, got, u, hu, he⟩⟩ := execSendByte_next h
    · rfl
    · have same := (readAttempts_next hu).1
      exact (he.bus_of_fatal rfl (same.fatal.trans hs) ht).trans same.bus
  case readByte last =>
    obtain ⟨_, ⟨n, _, rfl⟩ | ⟨_, u, hu, hend⟩⟩ := execReadByte_next h
    · rfl
    · have same := (engineRuns_next hu).1.trans (linkRead_same 2 u).1
      rcases hend with ⟨e, f, rfl, _⟩ | ⟨d, st, he⟩
      · exact absurd (ht.symm.trans (same.fatal.trans hs)) (by decide)
      · exact (he.bus_of_fatal rfl (same.fatal.trans hs) ht).trans same.bus

theorem execStart_completes {s : State} (hf : s.fatal = false) : ∃ t, execStart s = .next t := by
  rw [execStart, admission_anyBus hf, unlessRefused_none]
  exact ⟨_, rfl⟩

theorem execStop_completes {s : State} (hf : s.fatal = false) : ∃ t, execStop s = .next t := by
  rw [execStop, admission_anyBus hf, unlessRefused_none]
  exact ⟨_, rfl⟩

theorem admission_idleBus {s : State} (hf : s.fatal = false) (hb : s.bus = .idle) : admission false idleBus s = none :=
  admission_eq_none.mpr ⟨hf, nofun, idleBus_eq.mpr hb⟩

theorem execSetClk_completes {s : State} (hf : s.fatal = false) (hb : s.bus = .idle) (d : Half) :
    ∃ t, execSetClk d s = .next t := by
  rw [execSetClk, admission_idleBus hf hb, unlessRefused_none]
  exact ⟨_, rfl⟩

theorem execSetClk_notIdle {s : State} (hf : s.fatal = false) (hb : s.bus ≠ .idle) (d : Half) :
    execSetClk d s = .refused (.notAdmitted s.bus) := by
  rw [execSetClk, admission_bus (c := false) hf nofun (Bool.eq_false_iff.mpr (mt idleBus_eq.mp hb)), unlessRefused_some]

/-- An operation that is not admitted is refused, and for the host's own request (R233). -/
theorem unlessRefused_admission {c : Bool} {adm : BusState → Bool} {s : State} {k : Step}
    (h : ¬ (s.fatal = false ∧ (c = true → s.clkcfg = true) ∧ adm s.bus = true)) :
    ∃ r, unlessRefused (admission c adm s) k = .refused r ∧ r.ofHost = true := by
  obtain ⟨r, hr⟩ := Option.ne_none_iff_exists'.mp (mt admission_eq_none.mp h)
  exact ⟨r, by rw [hr, unlessRefused_some], admission_ofHost hr⟩

theorem execSendByte_refused {s : State} (h : s.fatal = true ∨ s.clkcfg = false ∨ sendBus s.bus = false) (v : Byte) :
    ∃ r, execSendByte v s = .refused r ∧ r.ofHost = true := by
  refine unlessRefused_admission ?_
  rintro ⟨hf, hc, hb⟩
  simp [hf, hc, hb] at h

theorem execReadByte_refused {s : State} (h : s.fatal = true ∨ s.clkcfg = false ∨ readBus s.bus = false) (last : Bool) :
    ∃ r, execReadByte last s = .refused r ∧ r.ofHost = true := by
  refine unlessRefused_admission ?_
  rintro ⟨hf, hc, hb⟩
  simp [hf, hc, hb] at h

/-- Settles O25: a completed operation has met the fatal error or made its own BUS write; and what is not admitted is
refused. -/
theorem busTransitionTable : Obligations.BusTransitionTable := by
  intro s t
  refine ⟨fun hf => ⟨fun i hi h ht => hostOperation_bus_of_fatal hi hf h ht,
    fun h ht => congrArg State.bus ((execStart_next h).2.done ht),
    fun h ht => congrArg State.bus ((execStop_next h).2.done ht),
    fun v h ht => ?send, fun v hb => ?sendRefused, fun l h ht => ?read, fun l hb => ?readRefused, fun d h => ?setClk,
    fun d hb => execSetClk_notIdle hf hb d, ?completes, fun hb d => execSetClk_completes hf hb d,
    fun hc v l => ?noClock⟩, fun a r h => ?setAddr, fun a r => ⟨_, rfl⟩, fun hf i => exec_of_fatal hf⟩
  case send =>
    obtain ⟨⟨_, _, hb⟩, _⟩ := execSendByte_next h
    have hbus := (execSendByte_bus h).resolve_left (by simp [ht])
    rcases sendBus_eq.mp hb with hb | hb | hb
    · exact .inl ⟨hb, by rw [hbus, hb]; rfl⟩
    · exact .inr ⟨.inl hb, by rw [hbus, hb]; rfl⟩
    · exact .inr ⟨.inr hb, by rw [hbus, hb]; rfl⟩
  case sendRefused =>
    obtain ⟨r, hr, _⟩ := execSendByte_refused (.inr (.inr (sendBus_eq_false.mpr hb))) v
    exact ⟨r, hr⟩
  case read =>
    obtain ⟨⟨_, _, hb⟩, _⟩ := execReadByte_next h
    exact ⟨readBus_eq.mp hb, (execReadByte_bus h).resolve_left (by simp [ht])⟩
  case readRefused =>
    obtain ⟨r, hr, _⟩ := execReadByte_refused (.inr (.inr (readBus_eq_false.mpr hb))) l
    exact ⟨r, hr⟩
  case setClk =>
    obtain ⟨_, hb, he⟩ := execSetClk_next h
    exact ⟨hb, (he.keeps State.bus rfl fun _ => rfl).trans hb⟩
  case completes =>
    obtain ⟨x, hx⟩ := execStart_completes hf
    obtain ⟨y, hy⟩ := execStop_completes hf
    exact ⟨x, y, hx, hy⟩
  case noClock =>
    exact ⟨by rw [exec, execSendByte, admission_clock hf hc, unlessRefused_some],
      by rw [exec, execReadByte, admission_clock hf hc, unlessRefused_some]⟩
  case setAddr => cases h; rfl

/-- Settles O26: a refusal is admission's, and what is admitted completes, the byte operations because a safe Stage P
refuses nothing they make it run. -/
theorem refusedHostOperationsAreExactly : Obligations.RefusedHostOperationsAreExactly := by
  intro s
  refine ⟨fun hf => ⟨exec_of_fatal hf rfl nofun, exec_of_fatal hf rfl nofun⟩,
    fun hf => ⟨execStart_completes hf, execStop_completes hf⟩, fun d h => unlessRefused_admission ?setClk,
    fun d hf hb => execSetClk_completes hf hb d, fun a r => ⟨_, rfl⟩,
    fun v h => execSendByte_refused (h.imp_right (.imp_right sendBus_eq_false.mpr)) v,
    fun l h => execReadByte_refused (h.imp_right (.imp_right readBus_eq_false.mpr)) l,
    fun hs => ⟨fun v h => ?sendGoesOn, fun l h => ?readGoesOn⟩⟩
  case setClk => rcases h with h | h <;> simp [h, idleBus_eq]
  case sendGoesOn =>
    rw [← sendBus_eq_false] at h
    simp only [not_or, Bool.not_eq_true, Bool.not_eq_false] at h
    obtain ⟨hf, hc, hb⟩ := h
    exact execSendByte_completes hs hf hc hb v
  case readGoesOn =>
    rw [← readBus_eq_false] at h
    simp only [not_or, Bool.not_eq_true, Bool.not_eq_false] at h
    obtain ⟨hf, hc, hb⟩ := h
    exact execReadByte_completes hs hf hc hb l

end Sys2Proof.Machine

/-! PROOFS. The family of 20_memory: the link (R55, R56), what a command does to the response queues (R61, R128), and the
bytes CLKOUT8 and CLKIN8 carry on the lines, bit 7 first (R57, R124, R125, R127). -/

namespace Sys2Proof.Machine

/-! ## The link -/

/-- Settles O27: what is cut off is never empty, and a proper part is what its own length cuts. -/
theorem failedWriteQueuesAnyProperPart : Obligations.FailedWriteQueuesAnyProperPart := by
  intro bytes hne
  refine ⟨fun k => ?_, fun part rest hrest hb => ⟨part.length, ?_⟩⟩
  · obtain ⟨rest, hrest, h⟩ := cutWrite_append bytes k hne
    exact ⟨rest, hrest, h.symm⟩
  · have hlt : 0 < rest.length := List.length_pos_iff.mpr hrest
    have hmin : min part.length (bytes.length - 1) = part.length := by
      rw [hb, List.length_append]
      omega
    rw [cutWrite, hmin, hb, List.take_left]

theorem linkRead_ioError {n : Nat} {s : State} (h : s.drawRead = .ioError) : linkRead n s = (none, s.takeRead) := by
  simp only [linkRead, h]

theorem linkRead_bytes {n k : Nat} {s : State} (h : s.drawRead = .bytes k) :
    linkRead n s = (some (s.rspa.take (min k n)), { s.takeRead with rspa := s.rspa.drop (min k n) }) := by
  simp only [linkRead, h]

/-- Settles O28: a read that returns bytes cuts RSPA in two, after the smaller of what was asked and what was drawn. -/
theorem linkReadTakesFromTheFront : Obligations.LinkReadTakesFromTheFront := by
  intro s n
  refine ⟨fun h => ?ioError, fun k h => ?bytes, fun k hk _ h => ?every⟩
  case ioError => rw [linkRead_ioError h]; exact ⟨rfl, rfl⟩
  case bytes =>
    rw [linkRead_bytes h]
    refine ⟨_, rfl, ?_, (List.take_append_drop _ _).symm⟩
    rw [List.length_take]
    omega
  case every => rw [linkRead_bytes h, Nat.min_eq_left hk]

/-! ## The response queues -/

@[simp] theorem respondBit_rspq (s : State) : (respondBit s).rspq = s.rspq ++ [clkIn1Response s.drawByte s.rxsh] := rfl
@[simp] theorem respondByte_rspq (s : State) : (respondByte s).rspq = s.rspq ++ [s.rxsh, s.drawByte] := rfl

/-- What a command that goes on can do to the responses: FLUSH releases them, and every other command leaves RSPA alone
and only adds to RSPQ (R61, R128). -/
theorem engineExec_responses {i : Instr} {s t : State} (h : engineExec i s = .next t) (hf : i ≠ .flush) :
    t.rspa = s.rspa ∧ s.rspq <+: t.rspq := by
  have same : ∀ {u : State}, u.rspa = s.rspa → u.rspq = s.rspq → u.rspa = s.rspa ∧ s.rspq <+: u.rspq :=
    fun ha hq => ⟨ha, hq ▸ List.prefix_refl _⟩
  cases i <;> simp only [engineExec] at h
  case pin dir val =>
    unfold execPin at h
    split at h <;> cases h
    exact same (by simp) (by simp)
  case clkOut8 v =>
    obtain ⟨_, h⟩ := unlessRefused_eq_next.mp h
    cases h
    exact same (by simp) (by simp)
  case clkIn1 =>
    obtain ⟨_, h⟩ := unlessRefused_eq_next.mp h
    cases h
    exact ⟨by simp, by simp⟩
  case clkIn8 =>
    obtain ⟨_, h⟩ := unlessRefused_eq_next.mp h
    cases h
    exact ⟨by simp, by simp⟩
  case flush => exact absurd rfl hf
  case div5Off => cases h; exact same rfl rfl
  case adaptOff => cases h; exact same rfl rfl
  case ph3On => cases h; exact same rfl rfl
  case setDiv d => cases h; exact same rfl rfl
  all_goals cases h

/-- Settles O53: exec of a primitive command is Stage P's own execution, and only FLUSH's writes RSPA. -/
theorem onlyFlushMakesResponsesReadable : Obligations.OnlyFlushMakesResponsesReadable := by
  intro s t i hi hf h
  rw [← engineExec_eq_exec hi] at h
  exact engineExec_responses h hf

/-! ## The levels after one assignment -/

theorem OpenDrain.congr {s t : State} (h : OpenDrain s) (hv : t.pinval = s.pinval) : OpenDrain t := by
  unfold OpenDrain
  rwa [hv]

@[simp] theorem assignDir_drawReact (i : Nat) (b : Bool) (s : State) : (assignDir i b s).drawReact = s.drawReact := by
  simp [State.drawReact]

theorem assignDir_zero_levels {s : State} (ho : OpenDrain s) (b : Bool) :
    (assignDir 0 b s).levels = { s.levels with scl := !b } := by
  rw [levels_openDrain ho, levels_openDrain (ho.congr (by simp))]
  simp

theorem assignDir_one_levels {s : State} (ho : OpenDrain s) (b : Bool) :
    (assignDir 1 b s).levels = { s.levels with sda := !(b || s.tlow) } := by
  rw [levels_openDrain ho, levels_openDrain (ho.congr (by simp))]
  simp

theorem react_levels {s : State} (ho : OpenDrain s) :
    (react s).levels = { s.levels with sda := !(s.pindir.getLsbD 1 || s.drawReact) } := by
  rw [levels_openDrain ho, levels_openDrain (ho.congr (by simp))]
  simp

theorem levels_scl {s : State} (ho : OpenDrain s) : s.levels.scl = !s.pindir.getLsbD 0 := by rw [levels_openDrain ho]

/-- SDA released by the master is what the target makes of it (R123). -/
theorem levels_sda_released {s : State} (h : s.pindir.getLsbD 1 = false) : s.levels.sda = !s.tlow := by
  simp only [State.levels, State.masterLow, h, Bool.false_and, Bool.false_or]

/-! ## Bit transfers along the lines -/

/-- The lines went from `s` to `t` with the bit transfers `bits` and no other event, SDA stable while SCL is high
(R124). -/
def Transfers (s t : State) (bits : List Bool) : Prop :=
  ∃ ch, Path s t ch ∧ eventsFrom s.levels ch = bits.map BusEvent.bitTransfer ∧ dataStableFrom s.levels ch = true

theorem Transfers.refl (s : State) : Transfers s s [] := ⟨[], Path.refl s, rfl, rfl⟩

theorem Transfers.trans {s t u : State} {b c : List Bool} (h : Transfers s t b) (g : Transfers t u c) :
    Transfers s u (b ++ c) := by
  obtain ⟨ch, hp, he, hd⟩ := h
  obtain ⟨dh, gp, ge, gd⟩ := g
  refine ⟨ch ++ dh, hp.trans gp, ?_, ?_⟩
  · rw [eventsFrom_append, hp.last, he, ge, List.map_append]
  · rw [dataStableFrom_append, hp.last, hd, gd, Bool.and_self]

theorem Transfers.still {s t : State} (hw : t.wave = s.wave) (h1 : t.pindir = s.pindir) (h2 : t.pinval = s.pinval)
    (h3 : t.tlow = s.tlow) : Transfers s t [] :=
  ⟨[], Path.still hw h1 h2 h3, rfl, rfl⟩

/-- The line history grew by the changes that carry the bits. -/
theorem Transfers.onWave {s t : State} {bits : List Bool} (h : Transfers s t bits) :
    s.wave <+: t.wave ∧ eventsFrom s.levels (t.changesSince s) = bits.map BusEvent.bitTransfer ∧
    dataStableFrom s.levels (t.changesSince s) = true := by
  obtain ⟨ch, hp, he, hd⟩ := h
  have hc : t.changesSince s = ch := by rw [State.changesSince, hp.wave, List.drop_left]
  exact ⟨⟨ch, hp.wave.symm⟩, hc ▸ he, hc ▸ hd⟩

/-- The bit transfers of a setting that goes from `a` to `b`: one when SCL rises. -/
def risenBits (a b : Levels) : List Bool := if !a.scl && b.scl then [b.sda] else []

/-- A setting that keeps SDA stable does not change both lines, so its order does not matter. -/
theorem settingChanges_of_stable {a b : Levels} (h : dataStable a b = true) (o : LineOrder) :
    settingChanges o a b = if a = b then [] else [b] := by
  have one : bothChange a b = false := by
    simp only [dataStable, Bool.or_eq_true, Bool.and_eq_true, Bool.not_eq_true', beq_iff_eq] at h
    rcases h with h | ⟨ha, hb⟩ <;> simp [bothChange, *]
  rw [settingChanges, one]
  rfl

/-- A change that keeps SDA stable is an event only when SCL rises, and then a bit transfer (R124). -/
theorem busEvent_of_stable {a b : Levels} (h : dataStable a b = true) :
    (busEvent a b).toList = (risenBits a b).map BusEvent.bitTransfer := by
  simp only [dataStable, Bool.or_eq_true, Bool.and_eq_true, Bool.not_eq_true', beq_iff_eq] at h
  rcases h with h | ⟨ha, hb⟩
  · cases hs : a.scl <;> cases ht : b.scl <;> simp [busEvent, risenBits, *]
  · simp [busEvent, risenBits, *]

theorem settingChanges_stable {a b : Levels} (h : dataStable a b = true) (o : LineOrder) :
    eventsFrom a (settingChanges o a b) = (risenBits a b).map BusEvent.bitTransfer ∧
    dataStableFrom a (settingChanges o a b) = true := by
  rw [settingChanges_of_stable h]
  split
  · next hab => simp [hab, eventsFrom, risenBits, dataStableFrom]
  · exact ⟨by rw [eventsFrom, eventsFrom, List.append_nil, busEvent_of_stable h], by rw [dataStableFrom, h]; rfl⟩

theorem Transfers.setting {s t : State} {o : LineOrder} {bits : List Bool}
    (h : Path s t (settingChanges o s.levels t.levels))
    (hd : dataStable s.levels t.levels = true ∧ risenBits s.levels t.levels = bits) : Transfers s t bits := by
  obtain ⟨hd, rfl⟩ := hd
  exact ⟨_, h, settingChanges_stable hd o⟩

theorem Path.assignDir (i : Nat) (b : Bool) (s : State) :
    Path s (assignDir i b s) (settingChanges s.drawOrder s.levels (assignDir i b s).levels) :=
  Path.setDrivers _ _ s

section
variable {s : State} (ho : OpenDrain s)
include ho

theorem Transfers.releaseScl (hl : s.pindir.getLsbD 0 = true) : Transfers s (assignDir 0 false s) [s.levels.sda] :=
  have hs : s.levels.scl = false := by rw [levels_scl ho, hl]; rfl
  .setting (Path.assignDir _ _ s) (by
    rw [assignDir_zero_levels ho]
    simp [dataStable, risenBits, hs])

theorem Transfers.driveSclLow : Transfers s (assignDir 0 true s) [] :=
  .setting (Path.assignDir _ _ s) (by
    rw [assignDir_zero_levels ho]
    simp [dataStable, risenBits])

/-- With SCL low the master may place SDA at any level. -/
theorem Transfers.placeSda (hl : s.pindir.getLsbD 0 = true) (b : Bool) : Transfers s (assignDir 1 b s) [] :=
  have hs : s.levels.scl = false := by rw [levels_scl ho, hl]; rfl
  .setting (Path.assignDir _ _ s) (by
    rw [assignDir_one_levels ho]
    simp [dataStable, risenBits, hs])

/-- The target reacts without an event when SCL is low, and when it keeps its drive. -/
theorem Transfers.react (h : s.pindir.getLsbD 0 = true ∨ s.drawReact = s.tlow) : Transfers s (react s) [] :=
  .setting (Path.react s) (by
    rcases h with h | h <;> rw [react_levels ho, levels_openDrain ho, h] <;> simp [dataStable, risenBits])

theorem Transfers.assignSda (hl : s.pindir.getLsbD 0 = true) (b : Bool) : Transfers s (assign 1 b s) [] :=
  (Transfers.placeSda ho hl b).trans (.react (ho.congr (by simp)) (.inl (by simpa using hl)))

/-- Releasing SCL transfers the bit on SDA, when the target keeps its drive (R124). -/
theorem Transfers.assignSclHigh (hl : s.pindir.getLsbD 0 = true) (hk : s.drawReact = s.tlow) :
    Transfers s (assign 0 false s) [s.levels.sda] :=
  (Transfers.releaseScl ho hl).trans (.react (ho.congr (by simp)) (.inr (by simpa using hk)))

theorem Transfers.assignSclLow : Transfers s (assign 0 true s) [] :=
  (Transfers.driveSclLow ho).trans (.react (ho.congr (by simp)) (.inl (by simp)))

end

/-! ## The target's drive, reaction by reaction -/

/-- Does the target drive SDA low after `n` reactions from `s`? -/
def State.driveAfter (s : State) : Nat → Bool
  | 0 => s.tlow
  | n + 1 => s.env.reacts.nth Config.freeReact n

theorem driveAfter_of_advance {s t : State} (hl : t.tlow = s.drawReact) (hr : t.env.reacts = s.env.reacts.advance)
    (n : Nat) : t.driveAfter n = s.driveAfter (n + 1) := by
  cases n with
  | zero => exact hl.trans (drawReact_eq s)
  | succ n => rw [State.driveAfter, hr, Stream.nth_advance]; rfl

@[simp] theorem assign_driveAfter (i : Nat) (b : Bool) (s : State) (n : Nat) :
    (assign i b s).driveAfter n = s.driveAfter (n + 1) :=
  driveAfter_of_advance (by simp) (by simp) n

@[simp] theorem react_driveAfter (s : State) (n : Nat) : (react s).driveAfter n = s.driveAfter (n + 1) :=
  driveAfter_of_advance (by simp) (by simp) n

theorem driveAfter_one (s : State) : s.driveAfter 1 = s.drawReact := (drawReact_eq s).symm

theorem driveAfter_congr {s t : State} (hl : t.tlow = s.tlow) (hr : t.env.reacts = s.env.reacts) (n : Nat) :
    t.driveAfter n = s.driveAfter n := by
  cases n with
  | zero => exact hl
  | succ n => rw [State.driveAfter, hr]; rfl

@[simp] theorem clockInBit_driveAfter (s : State) (n : Nat) : (clockInBit s).driveAfter n = s.driveAfter (n + 2) := by
  simp only [clockInBit, assign_driveAfter, react_driveAfter]
  exact driveAfter_congr (by simp) (by simp) _

theorem TargetQuiet.driveAfter {n k : Nat} {s : State} (h : TargetQuiet n s) (hk : k ≤ n) : s.driveAfter k = false := by
  obtain ⟨hl, hr⟩ := h
  cases k with
  | zero => exact hl
  | succ k => exact hr k hk

theorem TargetQuiet.of_driveAfter {n : Nat} {s : State} (h : ∀ k, k ≤ n → s.driveAfter k = false) : TargetQuiet n s :=
  ⟨h 0 (Nat.zero_le _), fun k hk => h (k + 1) hk⟩

theorem TargetQuiet.assign {n : Nat} {s : State} (h : TargetQuiet (n + 1) s) (i : Nat) (b : Bool) :
    TargetQuiet n (assign i b s) :=
  .of_driveAfter fun k hk => by rw [assign_driveAfter]; exact h.driveAfter (Nat.succ_le_succ hk)

/-- A quiet target keeps its drive when it reacts. -/
theorem TargetQuiet.keeps {n : Nat} {s : State} (h : TargetQuiet (n + 1) s) : s.drawReact = s.tlow := by
  rw [← driveAfter_one, h.driveAfter (by omega)]
  exact h.1.symm

/-! ## CLKOUT8 on the lines -/

/-- One bit out is one bit transfer, when the target is quiet during its three assignments (R125). -/
theorem Transfers.clockOutBit {s : State} (ho : OpenDrain s) (hl : s.pindir.getLsbD 0 = true) (hq : TargetQuiet 3 s)
    (bit : Bool) : Transfers s (clockOutBit bit s) [bit] := by
  have hq' := hq.assign 1 (!bit)
  have hsda : (assign 1 (!bit) s).levels.sda = bit := by
    rw [levels_openDrain (ho.congr (by simp)), hq'.1]
    simp
  have place := Transfers.assignSda ho hl (!bit)
  have rise := Transfers.assignSclHigh (s := assign 1 (!bit) s) (ho.congr (by simp)) (by simpa using hl) hq'.keeps
  have fall := Transfers.assignSclLow (s := assign 0 false (assign 1 (!bit) s)) (ho.congr (by simp))
  rw [hsda] at rise
  exact (place.trans rise).trans fall

theorem TargetQuiet.clockOutBit {n : Nat} {s : State} (h : TargetQuiet (n + 3) s) (bit : Bool) :
    TargetQuiet n (clockOutBit bit s) :=
  ((h.assign 1 (!bit)).assign 0 false).assign 0 true

theorem Transfers.clockOut (bits : List Bool) {s : State} (ho : OpenDrain s) (hl : s.pindir.getLsbD 0 = true)
    (hq : TargetQuiet (3 * bits.length) s) : Transfers s (clockOut bits s) bits := by
  induction bits generalizing s with
  | nil => exact .refl s
  | cons bit bits ih =>
    have quiet : TargetQuiet 3 s := .of_driveAfter fun k hk => hq.driveAfter (by rw [List.length_cons]; omega)
    obtain ⟨low, _⟩ := clockOutBit_pindir bit s
    exact (Transfers.clockOutBit ho hl quiet bit).trans (ih (ho.congr (by simp)) low (TargetQuiet.clockOutBit hq bit))

/-- Settles O49: each of the eight bits is placed with SCL low and transferred when SCL rises. -/
theorem clkOut8ShiftsOutMsbFirst : Obligations.ClkOut8ShiftsOutMsbFirst := by
  intro s v hl hm ho hq
  refine ⟨clockOut (bitsMsbFirst v) s, ?_, (Transfers.clockOut (bitsMsbFirst v) ho hl hq).onWave⟩
  rw [exec, execClkOut8, shiftRefusal_eq_none.mpr ⟨hl, hm⟩, unlessRefused_none]

/-! ## CLKIN8: the samples -/

/-- What the `k`-th sample of a shift-in from `s` is: SDA as the target leaves it, one reaction after each line change
(R126, R127, log 8). -/
def State.sample (s : State) (k : Nat) : Bool := !s.driveAfter (2 * k)

theorem clockInBit_sample (s : State) (k : Nat) : (clockInBit s).sample k = s.sample (k + 1) := by
  rw [State.sample, clockInBit_driveAfter]; rfl

theorem shiftIn_bit (x : Byte) (bit : Bool) {i : Nat} (hi : i < 8) :
    (shiftIn x bit).getLsbD i = if i = 0 then bit else x.getLsbD (i - 1) := by
  rw [shiftIn, BitVec.getLsbD_or, BitVec.getLsbD_shiftLeft, BitVec.getLsbD_setWidth, BitVec.getLsbD_ofBool]
  cases i <;> simp [hi]

/-- With SDA released, one bit in shifts the first sample into RXSH (R31, R126). -/
theorem clockInBit_rxsh {s : State} (hr : s.pindir.getLsbD 1 = false) :
    (clockInBit s).rxsh = shiftIn s.rxsh (s.sample 0) := by
  have hsda : (assignDir 0 false s).levels.sda = s.sample 0 := by
    rw [levels_sda_released (by simpa using hr), assignDir_tlow]
    rfl
  simp [clockInBit, sampleSda, hsda]

/-- After `n` bits in, RXSH holds the `n` samples, the last at bit 0, above them what it held (R31). -/
theorem timesClockInBit_rxsh (n : Nat) {s : State} (hr : s.pindir.getLsbD 1 = false) {i : Nat} (hi : i < 8) :
    (times n clockInBit s).rxsh.getLsbD i = if i < n then s.sample (n - 1 - i) else s.rxsh.getLsbD (i - n) := by
  induction n generalizing s with
  | zero => simp [times]
  | succ n ih =>
    obtain ⟨_, released, _⟩ := clockInBit_pindir s
    rw [times, ih (released.trans hr), clockInBit_rxsh hr, shiftIn_bit _ _ (by omega), clockInBit_sample]
    rcases Nat.lt_trichotomy i n with h | rfl | h
    · rw [if_pos h, if_pos (by omega), show n - 1 - i + 1 = n + 1 - 1 - i by omega]
    · simp
    · rw [if_neg (by omega), if_neg (by omega), if_neg (by omega), Nat.sub_sub]

/-- The samples of CLKIN1 and CLKIN8 are taken after SDA is released, which is the target's first reaction. -/
theorem clockIn_rxsh (n : Nat) (s : State) {i : Nat} (hi : i < 8) (hn : i < n) :
    (clockIn n s).rxsh.getLsbD i = (assign 1 false s).sample (n - 1 - i) := by
  rw [clockIn, timesClockInBit_rxsh n (by simp) hi, if_pos hn]

theorem assign_sample (i : Nat) (b : Bool) (s : State) (k : Nat) :
    (assign i b s).sample k = !s.env.reacts.nth Config.freeReact (2 * k) := by
  rw [State.sample, assign_driveAfter]; rfl

/-! ## CLKIN8 on the lines -/

/-- The target keeps its drive over the reaction after each of `n` samples: SDA is stable while SCL is high. -/
def HoldsSamples (n : Nat) (s : State) : Prop := ∀ k, k < n → s.driveAfter (2 * k + 1) = s.driveAfter (2 * k)

theorem HoldsSamples.clockInBit {n : Nat} {s : State} (h : HoldsSamples (n + 1) s) : HoldsSamples n (clockInBit s) :=
  fun k hk => by
    rw [clockInBit_driveAfter, clockInBit_driveAfter]
    exact h (k + 1) (Nat.succ_lt_succ hk)

theorem HoldsSamples.keeps {n : Nat} {s : State} (h : HoldsSamples (n + 1) s) : s.drawReact = s.tlow :=
  (driveAfter_one s).symm.trans (h 0 n.succ_pos)

/-- One bit in is one bit transfer, of the sample (R126). -/
theorem Transfers.clockInBit {s : State} (ho : OpenDrain s) (hl : s.pindir.getLsbD 0 = true)
    (hr : s.pindir.getLsbD 1 = false) (hk : s.drawReact = s.tlow) : Transfers s (clockInBit s) [s.sample 0] := by
  have rise := Transfers.releaseScl ho hl
  have take : Transfers (assignDir 0 false s) (sampleSda (assignDir 0 false s)) [] := .still rfl rfl rfl rfl
  have hold := Transfers.react (s := sampleSda (assignDir 0 false s)) (ho.congr (by simp))
    (.inr (by simpa [State.drawReact] using hk))
  have fall := Transfers.assignSclLow (s := Machine.react (sampleSda (assignDir 0 false s))) (ho.congr (by simp))
  rw [levels_sda_released hr] at rise
  exact ((rise.trans take).trans hold).trans fall

theorem Transfers.timesClockInBit (n : Nat) {s : State} (ho : OpenDrain s) (hl : s.pindir.getLsbD 0 = true)
    (hr : s.pindir.getLsbD 1 = false) (hk : HoldsSamples n s) :
    Transfers s (times n Machine.clockInBit s) ((List.range n).map s.sample) := by
  induction n generalizing s with
  | zero => exact .refl s
  | succ n ih =>
    obtain ⟨low, released, _⟩ := clockInBit_pindir s
    have later := ih (ho.congr (by simp)) low (released.trans hr) hk.clockInBit
    rw [List.range_succ_eq_map, List.map_cons, List.map_map]
    rw [funext (clockInBit_sample s)] at later
    exact (Transfers.clockInBit ho hl hr hk.keeps).trans later

theorem Transfers.clockIn (n : Nat) {s : State} (ho : OpenDrain s) (hl : s.pindir.getLsbD 0 = true)
    (hk : HoldsSamples n (assign 1 false s)) :
    Transfers s (clockIn n s) ((List.range n).map (assign 1 false s).sample) :=
  (Transfers.assignSda ho hl false).trans
    (.timesClockInBit n (ho.congr (by simp)) (by simpa using hl) (by simp) hk)

theorem bitsMsbFirst_eq_map_range (v : Byte) : bitsMsbFirst v = (List.range 8).map fun k => v.getLsbD (7 - k) := rfl

/-! ## CLKIN8: the frame -/

/-- `t` is `s` but for what shifting bits changes: the pin directions, RXSH, the target's drive, the line history, and the
reactions and orders drawn. -/
def ShiftedFrom (s t : State) : Prop :=
  t = { s with pindir := t.pindir, rxsh := t.rxsh, tlow := t.tlow, wave := t.wave,
               env := { s.env with reacts := t.env.reacts, orders := t.env.orders } }

theorem ShiftedFrom.trans {s t u : State} (h : ShiftedFrom s t) (g : ShiftedFrom t u) : ShiftedFrom s u :=
  Eq.trans g (by rw [h])

theorem ShiftedFrom.recordChange (a : Levels) (s : State) : ShiftedFrom s (recordChange a s) := by
  rcases recordChange_cases a s with h | h <;> rw [h] <;> rfl

theorem ShiftedFrom.assignDir (i : Nat) (b : Bool) (s : State) : ShiftedFrom s (assignDir i b s) :=
  ShiftedFrom.trans (t := { s with pindir := withBit s.pindir i b }) rfl (.recordChange _ _)

theorem ShiftedFrom.react (s : State) : ShiftedFrom s (react s) :=
  ShiftedFrom.trans (t := { s.takeReact with tlow := s.drawReact }) rfl (.recordChange _ _)

theorem ShiftedFrom.assign (i : Nat) (b : Bool) (s : State) : ShiftedFrom s (assign i b s) :=
  (ShiftedFrom.assignDir i b s).trans (.react _)

theorem ShiftedFrom.clockInBit (s : State) : ShiftedFrom s (clockInBit s) :=
  have take : ShiftedFrom (Machine.assignDir 0 false s) (sampleSda (Machine.assignDir 0 false s)) := rfl
  (((ShiftedFrom.assignDir 0 false s).trans take).trans (.react _)).trans (.assign 0 true _)

theorem ShiftedFrom.timesClockInBit (n : Nat) (s : State) : ShiftedFrom s (times n Machine.clockInBit s) := by
  induction n generalizing s with
  | zero => rfl
  | succ n ih => exact (ShiftedFrom.clockInBit s).trans (ih _)

theorem ShiftedFrom.clockIn (n : Nat) (s : State) : ShiftedFrom s (clockIn n s) :=
  (ShiftedFrom.assign 1 false s).trans (.timesClockInBit n _)

/-- CLKIN8's answer, after shifting bits, adds the data byte and the drawn status byte to RSPQ (R127). -/
theorem ShiftedFrom.respondByte {s t : State} (h : ShiftedFrom s t) :
    respondByte t = { s with
      pindir := (respondByte t).pindir, rxsh := (respondByte t).rxsh,
      rspq := s.rspq ++ [(respondByte t).rxsh, s.env.draws.nth Config.freeByte 0],
      tlow := (respondByte t).tlow, wave := (respondByte t).wave,
      env := { s.env with
        reacts := (respondByte t).env.reacts, orders := (respondByte t).env.orders, draws := s.env.draws.advance } } := by
  rw [← drawByte_eq, h]
  rfl

/-- Settles O51: the samples are the target's drive when SCL rises; RXSH holds them bit 7 first, and they are what the
lines transfer. -/
theorem clkIn8ShiftsInMsbFirst : Obligations.ClkIn8ShiftsInMsbFirst := by
  intro s hl hm
  have drivers := clockIn_pindir 8 s hl
  rw [← respondByte_pindir (clockIn 8 s)] at drivers
  obtain ⟨low, released, high⟩ := drivers
  have samples : ∀ k, k < 8 → (clockIn 8 s).rxsh.getLsbD (7 - k) = (assign 1 false s).sample k := fun k hk => by
    rw [clockIn_rxsh 8 s (by omega) (by omega), show 8 - 1 - (7 - k) = k by omega]
  refine ⟨respondByte (clockIn 8 s), ?_, ?frame, low, released, high, fun k hk => ?rxsh, fun ho hk => ?lines⟩
  · rw [exec, execClkIn8, shiftRefusal_eq_none.mpr ⟨hl, hm⟩, unlessRefused_none]
  case frame => exact ShiftedFrom.respondByte (.clockIn 8 s)
  case rxsh => rw [respondByte_rxsh, samples k hk, assign_sample]
  case lines =>
    have bits : bitsMsbFirst (clockIn 8 s).rxsh = (List.range 8).map (assign 1 false s).sample := by
      rw [bitsMsbFirst_eq_map_range]
      exact List.map_congr_left fun k hk => samples k (List.mem_range.mp hk)
    have shifted := Transfers.clockIn 8 ho hl fun k hk' => by
      rw [assign_driveAfter, assign_driveAfter]; exact hk k hk'
    have answered : Transfers (clockIn 8 s) (respondByte (clockIn 8 s)) [] := .still (by simp) (by simp) (by simp) (by simp)
    rw [respondByte_rxsh, bits]
    exact List.append_nil ((List.range 8).map _) ▸ (shifted.trans answered).onWave

end Sys2Proof.Machine

/-! PROOFS. The family of 30_encoding: host words and commands decode as they are encoded (R71, R78, R80 to R89), a step runs
the instruction placed where it fetches (R129), Stage P under Stage S never refuses (R152 (g)), and the bits CLKIN1 and
READBYTE receive (R90, R126, R172). -/

namespace Sys2Proof.Machine

/-! ## Host words -/

/-- A word spells an operation: it passes the test of the operation's row of R71, with the operands at the row's bits. -/
def Spells (w : Word) : Instr → Prop
  | .start => w &&& 0xFFFFFFFF#32 = 0x01000000#32
  | .stop => w &&& 0xFFFFFFFF#32 = 0x02000000#32
  | .sendByte v => w &&& 0xFFFFFF00#32 = 0x03000000#32 ∧ v = w.extractLsb' 0 8
  | .readByte l => w &&& 0xFFFFFFFE#32 = 0x04000000#32 ∧ l = w.getLsbD 0
  | .setClk d => w &&& 0xFFFF0000#32 = 0x05000000#32 ∧ d = w.extractLsb' 0 16
  | .setAddr a r => w &&& 0xFFFFFE80#32 = 0x06000000#32 ∧ a = w.extractLsb' 0 7 ∧ r = w.getLsbD 8
  | _ => False

/-- START's row masks no bit out. -/
theorem spells_start {w : Word} : Spells w .start ↔ w = 0x01000000#32 := iff_of_eq (congrArg (· = _) BitVec.and_allOnes)

/-- Nor does STOP's. -/
theorem spells_stop {w : Word} : Spells w .stop ↔ w = 0x02000000#32 := iff_of_eq (congrArg (· = _) BitVec.and_allOnes)

theorem spells_of_decodeHost {w : Word} {i : Instr} (h : decodeHost w = .operation i) : Spells w i := by
  unfold decodeHost at h
  split at h
  · next hw => cases h; exact spells_start.mpr hw
  split at h
  · next hw => cases h; exact spells_stop.mpr hw
  split at h
  · next hw => cases h; exact ⟨hw, rfl⟩
  split at h
  · next hw => cases h; exact ⟨hw, rfl⟩
  split at h
  · next hw => cases h; exact ⟨hw, rfl⟩
  split at h
  · next hw => cases h; exact ⟨hw, rfl, rfl⟩
  · split at h <;> cases h

/-- The decoder answers an operation on exactly the words that spell it (R71). -/
theorem decodeHost_eq_operation {w : Word} {i : Instr} : decodeHost w = .operation i ↔ Spells w i := by
  refine ⟨spells_of_decodeHost, fun h => ?_⟩
  cases i
  case start => rw [spells_start.mp h]; rfl
  case stop => rw [spells_stop.mp h]; rfl
  case sendByte v => obtain ⟨hw, rfl⟩ := h; exact decodeHost_sendByte hw
  case readByte l => obtain ⟨hw, rfl⟩ := h; exact decodeHost_readByte hw
  case setClk d => obtain ⟨hw, rfl⟩ := h; exact decodeHost_setClk hw
  case setAddr a r => obtain ⟨hw, rfl, rfl⟩ := h; exact decodeHost_setAddr hw
  all_goals exact h.elim

/-- Settles O2: each row is one case of `Spells`. -/
theorem hostWordDecodesByMatchAndMask : Obligations.HostWordDecodesByMatchAndMask := fun _ =>
  ⟨decodeHost_eq_operation, decodeHost_eq_operation, fun _ => decodeHost_eq_operation, fun _ => decodeHost_eq_operation,
    fun _ => decodeHost_eq_operation, fun _ _ => decodeHost_eq_operation, fun _ => decodeHost_isHost⟩

/-! ### The word of an operation -/

/-- Words that pass the same row's test and agree on the bits the mask leaves out are equal. -/
theorem eq_of_masked {w u m c : Word} (hw : w &&& m = c) (hu : u &&& m = c)
    (operands : ∀ i, i < 32 → m.getLsbD i = false → w.getLsbD i = u.getLsbD i) : w = u := by
  apply BitVec.eq_of_getLsbD_eq
  intro i hi
  cases hm : m.getLsbD i with
  | false => exact operands i hi hm
  | true =>
    have bit := congrArg (BitVec.getLsbD · i) (hw.trans hu.symm)
    simpa [hm] using bit

theorem getLsbD_eq_of_extract {w u : Word} {n i : Nat} (h : w.extractLsb' 0 n = u.extractLsb' 0 n) (hi : i < n) :
    w.getLsbD i = u.getLsbD i := by
  have bit := congrArg (BitVec.getLsbD · i) h
  simpa [hi] using bit

/-- One word at most spells an operation. -/
theorem Spells.unique {w u : Word} {i : Instr} (hw : Spells w i) (hu : Spells u i) : w = u := by
  cases i
  case start => exact (spells_start.mp hw).trans (spells_start.mp hu).symm
  case stop => exact (spells_stop.mp hw).trans (spells_stop.mp hu).symm
  case sendByte v =>
    obtain ⟨hw, rfl⟩ := hw
    obtain ⟨hu, hv⟩ := hu
    have out : ∀ i, i < 32 → (0xFFFFFF00#32).getLsbD i = false → i < 8 := by decide
    exact eq_of_masked hw hu fun i hi hm => getLsbD_eq_of_extract hv (out i hi hm)
  case readByte l =>
    obtain ⟨hw, rfl⟩ := hw
    obtain ⟨hu, hl⟩ := hu
    have out : ∀ i, i < 32 → (0xFFFFFFFE#32).getLsbD i = false → i = 0 := by decide
    exact eq_of_masked hw hu fun i hi hm => out i hi hm ▸ hl
  case setClk d =>
    obtain ⟨hw, rfl⟩ := hw
    obtain ⟨hu, hd⟩ := hu
    have out : ∀ i, i < 32 → (0xFFFF0000#32).getLsbD i = false → i < 16 := by decide
    exact eq_of_masked hw hu fun i hi hm => getLsbD_eq_of_extract hd (out i hi hm)
  case setAddr a r =>
    obtain ⟨hw, rfl, rfl⟩ := hw
    obtain ⟨hu, ha, hr⟩ := hu
    have out : ∀ i, i < 32 → (0xFFFFFE80#32).getLsbD i = false → i < 7 ∨ i = 8 := by decide
    refine eq_of_masked hw hu fun i hi hm => ?_
    rcases out i hi hm with h | rfl
    · exact getLsbD_eq_of_extract ha h
    · exact hr
  all_goals exact hw.elim

theorem decodeHost_encodeHost {w : Word} {i : Instr} (h : encodeHost i = some w) : decodeHost w = .operation i := by
  have law : Laws.Encoding.Statement i → decodeHost w = .operation i := fun statement =>
    (statement Opcodes.standard Opcodes.standard_distinct).1 w h
  cases i
  case start => exact law Laws.Encoding.start
  case stop => exact law Laws.Encoding.stop
  case sendByte v => exact law (Laws.Encoding.sendByte v)
  case readByte l => exact law (Laws.Encoding.readByte l)
  case setClk d => exact law (Laws.Encoding.setClk d)
  case setAddr a r => exact law (Laws.Encoding.setAddr a r)
  all_goals cases h

theorem encodeHost_eq_none {i : Instr} : encodeHost i = none ↔ i.isHost = false := by
  cases i <;> simp [encodeHost, Instr.isHost]

/-- Settles O3: an operation has a word, that word spells it, and no other word does. -/
theorem hostDecodeInvertsEncode : Obligations.HostDecodeInvertsEncode := by
  refine fun w i => ⟨fun h => ?_, decodeHost_encodeHost⟩
  cases he : encodeHost i with
  | none => exact absurd (decodeHost_isHost h) (by simp [encodeHost_eq_none.mp he])
  | some u =>
    have hu : Spells u i := spells_of_decodeHost (decodeHost_encodeHost he)
    rw [hu.unique (spells_of_decodeHost h)]

/-- A word that passes no row's test is reserved (R78). -/
theorem decodeHost_reserved {w : Word} (h : ∀ i, ¬ Spells w i) : ∃ why, decodeHost w = .reserved why := by
  cases hd : decodeHost w with
  | operation i => exact absurd (spells_of_decodeHost hd) (h i)
  | reserved why => exact ⟨why, rfl⟩

/-! ## Commands -/

section
variable {o : Opcodes} {b : Byte} {l rest : List Byte} {i : Instr} {why : Reject}

theorem decodePin_bytes (h : decodePin l = .command i rest) : o.setLow :: l = encodeCommand o i ++ rest := by
  unfold decodePin at h
  split at h <;> cases h
  rfl

theorem decodeClkOut_bytes (h : decodeClkOut l = .command i rest) : o.clkOut :: l = encodeCommand o i ++ rest := by
  unfold decodeClkOut at h
  split at h
  · split at h <;> cases h
    next hz => rw [hz.1, hz.2]; rfl
  · cases h

theorem decodeClkIn_bytes (h : decodeClkIn l = .command i rest) : o.clkInBits :: l = encodeCommand o i ++ rest := by
  unfold decodeClkIn at h
  split at h
  · split at h
    · next hn => cases h; rw [hn]; rfl
    · split at h <;> cases h
      next hn => rw [hn]; rfl
  · cases h

theorem decodeSetDiv_bytes (h : decodeSetDiv l = .command i rest) : o.setDiv :: l = encodeCommand o i ++ rest := by
  unfold decodeSetDiv at h
  split at h <;> cases h
  next lo hi =>
    obtain ⟨hlo, hhi⟩ := bytes_of_half hi lo
    rw [encodeCommand, hlo, hhi]
    rfl

/-- The bytes a decoded command was read from are the command's encoding (R81 to R88). -/
theorem decodeCommand_bytes (h : decodeCommand o l = .command i rest) : l = encodeCommand o i ++ rest := by
  cases l with
  | nil => cases h
  | cons b l =>
    simp only [decodeCommand] at h
    split at h
    · next hb => rw [hb]; exact decodePin_bytes h
    split at h
    · next hb => rw [hb]; exact decodeClkOut_bytes h
    split at h
    · next hb => rw [hb]; exact decodeClkIn_bytes h
    split at h
    · next hb => cases h; rw [hb]; rfl
    split at h
    · next hb => cases h; rw [hb]; rfl
    split at h
    · next hb => cases h; rw [hb]; rfl
    split at h
    · next hb => cases h; rw [hb]; rfl
    split at h
    · next hb => rw [hb]; exact decodeSetDiv_bytes h
    · cases h

theorem decodePin_ne_reserved : decodePin l ≠ .reserved why := by
  unfold decodePin
  split <;> nofun

theorem decodeSetDiv_ne_reserved : decodeSetDiv l ≠ .reserved why := by
  unfold decodeSetDiv
  split <;> nofun

theorem decodeClkOut_reserved : (∃ why, decodeClkOut l = .reserved why) ↔
    ∃ l0 l1 v rest, l = l0 :: l1 :: v :: rest ∧ ¬ (l0 = 0 ∧ l1 = 0) := by
  constructor
  · rintro ⟨why, h⟩
    unfold decodeClkOut at h
    split at h
    · split at h <;> cases h
      next hz => exact ⟨_, _, _, _, rfl, hz⟩
    · cases h
  · rintro ⟨l0, l1, v, rest, rfl, hz⟩
    exact ⟨_, if_neg hz⟩

theorem decodeClkIn_reserved : (∃ why, decodeClkIn l = .reserved why) ↔
    ∃ n rest, l = n :: rest ∧ n ≠ 0 ∧ n ≠ 7 := by
  constructor
  · rintro ⟨why, h⟩
    unfold decodeClkIn at h
    split at h
    · split at h
      · cases h
      · split at h <;> cases h
        next h0 h7 => exact ⟨_, _, rfl, h0, h7⟩
    · cases h
  · rintro ⟨n, rest, rfl, h0, h7⟩
    exact ⟨_, (if_neg h0).trans (if_neg h7)⟩

theorem decodeCommand_of_notMem (h : b ∉ o.all) : decodeCommand o (b :: l) = .reserved .commandOpcode := by
  simp only [Opcodes.all, List.mem_cons, List.not_mem_nil, or_false, not_or] at h
  simp [decodeCommand, h]

/-- A reserved command begins with no opcode, or with one of the two whose length field can be wrong (R88, R89). -/
theorem decodeCommand_reserved (ho : o.Distinct) (h : decodeCommand o (b :: l) = .reserved why) :
    b ∉ o.all ∨ (b = o.clkOut ∧ decodeClkOut l = .reserved why) ∨
      (b = o.clkInBits ∧ decodeClkIn l = .reserved why) := by
  by_cases hb : b ∈ o.all
  · simp only [Opcodes.all, List.mem_cons, List.not_mem_nil, or_false] at hb
    rcases hb with rfl | rfl | rfl | rfl | rfl | rfl | rfl | rfl
    · exact absurd (decodeCommand_setLow.symm.trans h) decodePin_ne_reserved
    · exact .inr (.inl ⟨rfl, (decodeCommand_clkOut ho).symm.trans h⟩)
    · exact .inr (.inr ⟨rfl, (decodeCommand_clkInBits ho).symm.trans h⟩)
    · cases (decodeCommand_flush ho).symm.trans h
    · cases (decodeCommand_div5Off ho).symm.trans h
    · cases (decodeCommand_adaptOff ho).symm.trans h
    · cases (decodeCommand_ph3On ho).symm.trans h
    · exact absurd ((decodeCommand_setDiv ho).symm.trans h) decodeSetDiv_ne_reserved
  · exact .inl hb

end

/-- Settles O4: the encoding law one way; the other way each decoder names the bytes it read. -/
theorem commandDecodeInvertsEncode : Obligations.CommandDecodeInvertsEncode := by
  intro o ho bytes i rest
  constructor
  · intro h
    exact ⟨(decodeCommand_command h).1, decodeCommand_bytes h⟩
  · rintro ⟨hi, rfl⟩
    exact decodeCommand_encode ho hi rest

/-- Settles O6: whatever command is cut, the decoder waits for the bytes that are missing. -/
theorem cutCommandIsIncomplete : Obligations.CutCommandIsIncomplete :=
  fun _ ho _ _ hi hn => take_incomplete ho hi hn

/-- Settles O7: the first byte decides which of the three kinds a reserved command is. -/
theorem reservedCommandsAreExactly : Obligations.ReservedCommandsAreExactly := by
  intro o ho bytes
  constructor
  · rintro ⟨why, h⟩
    cases bytes with
    | nil => cases h
    | cons b l =>
      rcases decodeCommand_reserved ho h with hb | ⟨rfl, hd⟩ | ⟨rfl, hd⟩
      · exact .inl ⟨b, l, rfl, hb⟩
      · obtain ⟨l0, l1, v, rest, rfl, hz⟩ := decodeClkOut_reserved.mp ⟨why, hd⟩
        exact .inr (.inl ⟨l0, l1, v, rest, rfl, hz⟩)
      · obtain ⟨n, rest, rfl, hn⟩ := decodeClkIn_reserved.mp ⟨why, hd⟩
        exact .inr (.inr ⟨n, rest, rfl, hn⟩)
  · rintro (⟨b, rest, rfl, hb⟩ | ⟨l0, l1, v, rest, rfl, hz⟩ | ⟨n, rest, rfl, hn⟩)
    · exact ⟨_, decodeCommand_of_notMem hb⟩
    · rw [decodeCommand_clkOut ho]
      exact decodeClkOut_reserved.mpr ⟨l0, l1, v, rest, rfl, hz⟩
    · rw [decodeCommand_clkInBits ho]
      exact decodeClkIn_reserved.mpr ⟨n, rest, rfl, hn⟩

/-! ## Every instruction -/

theorem encode_host {o : Opcodes} {i : Instr} {w : Word} (h : encodeHost i = some w) : encode o i = .hostWord w := by
  simp only [encode, h]

theorem encode_command {o : Opcodes} {i : Instr} (h : i.isHost = false) : encode o i = .command (encodeCommand o i) := by
  simp only [encode, encodeHost_eq_none.mpr h]

theorem decode_hostWord {o : Opcodes} {i : Instr} {w : Word} (h : decodeHost w = .operation i) :
    decode o (.hostWord w) = some i := by
  simp only [decode, h]

theorem decode_command {o : Opcodes} {i : Instr} {bytes : List Byte} (h : decodeCommand o bytes = .command i []) :
    decode o (.command bytes) = some i := by
  simp only [decode, h]

/-- Settles O5: a host operation is its word's, a command is its bytes'. -/
theorem decodeInvertsEncode : Obligations.DecodeInvertsEncode := by
  intro o ho i
  cases he : encodeHost i with
  | some w => rw [encode_host he, decode_hostWord (decodeHost_encodeHost he)]
  | none =>
    have hi := encodeHost_eq_none.mp he
    rw [encode_command hi, decode_command (List.append_nil (encodeCommand o i) ▸ decodeCommand_encode ho hi [])]

/-- Settles O1, word by word. -/
theorem specWordsDecode : Obligations.SpecWordsDecode :=
  ⟨by decide, by decide, by decide, by decide, by decide, by decide, by decide, by decide, by decide, by decide⟩

/-- Settles O33, field by field. -/
theorem resultFieldsLieWhereTheSpecPutsThem : Obligations.ResultFieldsLieWhereTheSpecPutsThem := fun f fatalf busf =>
  ⟨resultData_pack f fatalf busf, resultRaw1_pack f fatalf busf, resultRspn_pack f fatalf busf,
    resultNack_pack f fatalf busf, resultBit19_pack f fatalf busf, resultErr_pack f fatalf busf,
    resultFatalf_pack f fatalf busf, resultBusf_pack f fatalf busf, resultTop_pack f fatalf busf⟩

/-! ## Steps -/

theorem hostTurn_reserved {run : Instr → State → Step} {s : State} {w : Word} {ws : List Word} {why : Reject}
    (hw : s.env.words = w :: ws) (hd : decodeHost w = .reserved why) :
    hostTurn run s = .refused (.reservedHostWord why) := by
  simp only [hostTurn, hw, hd]

theorem step_of_engineTurn {s : State} (h : s.drawTurn = .engine) : step s = engineStepWith exec s.takeTurn := by
  unfold step
  rw [h]
  rfl

theorem engineStepWith_command {run : Instr → State → Step} {s : State} {i : Instr} {rest : List Byte}
    (h : decodeCommand s.params.opcodes s.cmdq = .command i rest) :
    engineStepWith run s = run i { s with cmdq := rest } := by
  simp only [engineStepWith, fetchCommand, h]

theorem engineStepWith_reserved {run : Instr → State → Step} {s : State} {why : Reject}
    (h : decodeCommand s.params.opcodes s.cmdq = .reserved why) :
    engineStepWith run s = .refused (.reservedCommand why) := by
  simp only [engineStepWith, fetchCommand, h]

theorem engineStepWith_incomplete {run : Instr → State → Step} {s : State}
    (h : decodeCommand s.params.opcodes s.cmdq = .incomplete) : engineStepWith run s = .next s := by
  simp only [engineStepWith, fetchCommand, h]

/-- Settles O9: Stage P's turn fetches the command and executes it. -/
theorem stepRunsCommand : Obligations.StepRunsCommand := by
  intro s i rest ht hd
  exact (step_of_engineTurn ht).trans (engineStepWith_command (s := s.takeTurn) hd)

/-- Settles O11: such a word spells no operation. -/
theorem reservedHostWordIsRefused : Obligations.ReservedHostWordIsRefused := by
  intro s w ws ht hw h1 h2 h3 h4 h5 h6
  have noRow : ∀ i, ¬ Spells w i := by
    intro i h
    cases i
    case start => exact h1 (spells_start.mp h)
    case stop => exact h2 (spells_stop.mp h)
    case sendByte v => exact h3 h.1
    case readByte l => exact h4 h.1
    case setClk d => exact h5 h.1
    case setAddr a r => exact h6 h.1
    all_goals exact h
  obtain ⟨why, hd⟩ := decodeHost_reserved noRow
  exact ⟨why, (step_of_hostTurn ht).trans (hostTurn_reserved (s := s.takeTurn) hw hd)⟩

/-- Settles O12: both are what Stage P does with what it fetches. -/
theorem engineRefusesReservedAndWaitsForBytes : Obligations.EngineRefusesReservedAndWaitsForBytes := by
  intro s ht
  rw [step_of_engineTurn ht]
  exact ⟨fun _ h => engineStepWith_reserved h, fun h => engineStepWith_incomplete h⟩

/-- Settles O10: the word is at the head of the host's requests, or the bytes at the front of CMDQ, and the turn is that
agent's. -/
theorem placedInstructionRunsNext : Obligations.PlacedInstructionRunsNext := by
  intro s i ho
  cases he : encodeHost i with
  | some w =>
    rw [encode_host he]
    exact stepRunsHostOperation ((s.askWord w).scriptTurn .host) w s.env.words i rfl rfl (decodeHost_encodeHost he)
  | none =>
    have hi := encodeHost_eq_none.mp he
    rw [encode_command hi]
    exact stepRunsCommand (placeEncoding (.command (encodeCommand s.params.opcodes i)) s) i s.cmdq rfl
      (decodeCommand_encode ho hi s.cmdq)

/-! ## Stage P never refuses -/

/-- What a step that stops can be: a reserved word, a host operation that is refused, or Stage P's refusal. -/
theorem step_refused {s : State} {r : Refusal} (h : step s = .refused r) :
    (∃ why, r = .reservedHostWord why) ∨
    (∃ ws i, i.isHost = true ∧ exec i { s.takeTurn with env := { s.takeTurn.env with words := ws } } = .refused r) ∨
    engineStep s.takeTurn = .refused r := by
  unfold step takeStep at h
  split at h
  · unfold hostTurn at h
    split at h
    · cases h
    · next w ws hw =>
      split at h
      · next i hd => exact .inr (.inl ⟨ws, i, decodeHost_isHost hd, h⟩)
      · next why _ => cases h; exact .inl ⟨why, rfl⟩
  · rw [engineStepWith_exec] at h
    exact .inr (.inr h)
  · cases h
  · cases h

theorem engineStep_not_refused {s : State} {r : Refusal} (h : EngineSafe s) : engineStep s ≠ .refused r := by
  obtain ⟨q, cut, hs, _⟩ := h.safeCut
  obtain ⟨t, ht, _⟩ := engineStep_ready hs.distinct hs.ready
  rw [ht]
  nofun

/-- An operation that admission lets through and that then completes is refused by admission alone. -/
theorem unlessRefused_ofHost {c : Bool} {adm : BusState → Bool} {s : State} {k : Step} {r : Refusal}
    (h : unlessRefused (admission c adm s) k = .refused r) (hk : admission c adm s = none → ∃ t, k = .next t) :
    r.ofHost = true := by
  rcases unlessRefused_eq_refused.mp h with ha | ⟨ha, hr⟩
  · exact admission_ofHost ha
  · obtain ⟨t, ht⟩ := hk ha
    cases ht.symm.trans hr

theorem hostOperation_refused_ofHost {i : Instr} {s : State} {r : Refusal} (hi : i.isHost = true) (hs : EngineSafe s)
    (h : exec i s = .refused r) : r.ofHost = true := by
  cases i <;> try cases hi
  case start => exact unlessRefused_ofHost h fun _ => ⟨_, rfl⟩
  case stop => exact unlessRefused_ofHost h fun _ => ⟨_, rfl⟩
  case setClk d => exact unlessRefused_ofHost h fun _ => ⟨_, rfl⟩
  case setAddr a rd => cases h
  case sendByte v =>
    refine unlessRefused_ofHost h fun ha => ?_
    obtain ⟨hf, hc, hb⟩ := admission_eq_none.mp ha
    obtain ⟨t, ht⟩ := execSendByte_completes hs hf (hc rfl) hb v
    exact ⟨t, (unlessRefused_eq_next.mp ht).2⟩
  case readByte last =>
    refine unlessRefused_ofHost h fun ha => ?_
    obtain ⟨hf, hc, hb⟩ := admission_eq_none.mp ha
    obtain ⟨t, ht⟩ := execReadByte_completes hs hf (hc rfl) hb last
    exact ⟨t, (unlessRefused_eq_next.mp ht).2⟩

/-- Settles O20: a safe Stage P goes on, on its own turn and inside SENDBYTE and READBYTE, so only the host's request is
left to refuse. -/
theorem engineNeverRefuses : Obligations.EngineNeverRefuses := by
  intro s r hs h
  have turn : ∀ e, EngineSafe { s with env := e } := fun e => hs.congr ⟨rfl, rfl, rfl, rfl⟩ rfl rfl rfl
  rcases step_refused h with ⟨why, rfl⟩ | ⟨ws, i, hi, hx⟩ | hx
  · rfl
  · exact hostOperation_refused_ofHost hi (turn _) hx
  · exact absurd hx (engineStep_not_refused (turn _))

/-! ## CLKIN1 -/

/-- CLKIN1's answer, after shifting a bit, adds its one byte to RSPQ (R126). -/
theorem ShiftedFrom.respondBit {s t : State} (h : ShiftedFrom s t) :
    respondBit t = { s with
      pindir := (respondBit t).pindir, rxsh := (respondBit t).rxsh,
      rspq := s.rspq ++ [clkIn1Response (s.env.draws.nth Config.freeByte 0) t.rxsh],
      tlow := (respondBit t).tlow, wave := (respondBit t).wave,
      env := { s.env with
        reacts := (respondBit t).env.reacts, orders := (respondBit t).env.orders, draws := s.env.draws.advance } } := by
  rw [← drawByte_eq, h]
  rfl

theorem clkIn1Response_bit (drawn rxsh : Byte) {i : Nat} (hi : i < 8) :
    (clkIn1Response drawn rxsh).getLsbD i = if i = 0 then rxsh.getLsbD 0 else drawn.getLsbD i := by
  simp only [clkIn1Response, BitVec.getLsbD_or, BitVec.getLsbD_and]
  interval_cases i <;> simp

theorem clockIn_one_rxsh (s : State) :
    (clockIn 1 s).rxsh = shiftIn s.rxsh !s.env.reacts.nth Config.freeReact 0 := by
  rw [clockIn, times, times, clockInBit_rxsh (by simp), assign_sample, assign_rxsh]

/-- Settles O50: the sample is the target's drive when SCL rises; RXSH and the response byte hold it at bit 0, and it is
what the lines transfer. -/
theorem clkIn1SamplesSda : Obligations.ClkIn1SamplesSda := by
  intro s hl hm sample
  have drivers := clockIn_pindir 1 s hl
  rw [← respondBit_pindir (clockIn 1 s)] at drivers
  obtain ⟨low, released, high⟩ := drivers
  have sampled : (clockIn 1 s).rxsh = shiftIn s.rxsh sample := clockIn_one_rxsh s
  refine ⟨respondBit (clockIn 1 s), clkIn1Response (s.env.draws.nth Config.freeByte 0) (clockIn 1 s).rxsh, ?_, ?frame,
    low, released, high, ?rxsh, ?bit0, fun i h1 h8 => ?drawn, fun ho hk => ?lines⟩
  · rw [exec, execClkIn1, shiftRefusal_eq_none.mpr ⟨hl, hm⟩, unlessRefused_none]
  case frame => exact ShiftedFrom.respondBit (.clockIn 1 s)
  case rxsh => exact (respondBit_rxsh _).trans sampled
  case bit0 => rw [clkIn1Response_bit _ _ (by omega), if_pos rfl, sampled, shiftIn_bit _ _ (by omega), if_pos rfl]
  case drawn => rw [clkIn1Response_bit _ _ h8, if_neg (by omega)]
  case lines =>
    have hold : HoldsSamples 1 (assign 1 false s) := fun k hk' => by
      obtain rfl : k = 0 := by omega
      rw [assign_driveAfter, assign_driveAfter]
      exact hk
    have shifted := Transfers.clockIn 1 ho hl hold
    have answered : Transfers (clockIn 1 s) (respondBit (clockIn 1 s)) [] := .still (by simp) (by simp) (by simp) (by simp)
    have bits : (List.range 1).map (assign 1 false s).sample ++ [] = [sample] :=
      congrArg ([·]) (assign_sample 1 false s 0)
    exact (bits ▸ shifted.trans answered).onWave

/-! ## READBYTE through both stages -/

/-- With nothing queued Stage P has no step. -/
theorem runEngine_idle {n : Nat} {s : State} (hq : s.cmdq = []) : runEngine n s = .next s := by
  have idle : engineStep s = .next s := engineStepWith_incomplete (hq ▸ decodeCommand_nil)
  induction n with
  | zero => rfl
  | succ n ih => rw [runEngine, idle, andThen_next, ih]

/-- Stage P executes the first of a list of commands that is all that is queued, and the others stay queued (R129). -/
theorem runEngine_command {n : Nat} {s t : State} {i : Instr} {l : List Instr} (ho : s.params.opcodes.Distinct)
    (hi : i.isHost = false) (hq : s.cmdq = encodeCommands s.params.opcodes (i :: l))
    (hx : exec i { s with cmdq := encodeCommands s.params.opcodes l } = .next t) :
    runEngine (n + 1) s = runEngine n t ∧ t.cmdq = encodeCommands t.params.opcodes l ∧ t.params = s.params := by
  rw [← engineExec_eq_exec hi] at hx
  obtain ⟨same, htq, _⟩ := engineExec_next hx
  have hp : t.params = s.params := same.params
  have fetched : decodeCommand s.params.opcodes s.cmdq = .command i (encodeCommands s.params.opcodes l) := by
    rw [hq, encodeCommands_cons, decodeCommand_encode ho hi]
  refine ⟨?_, htq.trans (by rw [hp]), hp⟩
  rw [runEngine, engineStep, engineStepWith_command fetched, hx, andThen_next]

/-- Stage P executes FLUSH (R128). -/
theorem runEngine_flush {n : Nat} {s : State} {l : List Instr} (ho : s.params.opcodes.Distinct)
    (hq : s.cmdq = encodeCommands s.params.opcodes (.flush :: l)) :
    ∃ t, runEngine (n + 1) s = runEngine n t ∧ t.cmdq = encodeCommands t.params.opcodes l ∧ t.params = s.params ∧
      t.rspa = s.rspa ++ s.rspq ∧ t.rspq = [] := by
  obtain ⟨run, htq, hp⟩ := runEngine_command (n := n) ho rfl hq rfl
  exact ⟨_, run, htq, hp, rfl, rfl⟩

/-- Stage P never refuses one of the bus patterns (R121, R122). -/
theorem exec_pat (p : Params) (d : BitVec 2) (s : State) :
    exec (pat p d) s = .next (react (setDrivers (p.auxDir ++ d) (p.auxVal ++ 0#2) s)) := by
  have h1 : (p.auxVal ++ 0#2).getLsbD 1 = false := by rw [BitVec.getLsbD_append]; simp
  have h0 : (p.auxVal ++ 0#2).getLsbD 0 = false := by rw [BitVec.getLsbD_append]; simp
  have openDrain : openDrainMasks (p.auxDir ++ d) (p.auxVal ++ 0#2) = true := by
    simp only [openDrainMasks, drivesHigh, h1, h0, Bool.and_false, Bool.not_false, Bool.and_self]
  rw [pat, encodePinCommand, exec, execPin, if_pos openDrain]

/-- Stage P executing what READBYTE emits: the two bytes of CLKIN8 become readable, the data byte holding what the target
leaves on SDA at the eight rises of SCL (R127, R128, R172). The first reaction is the PIN's (log 8). -/
theorem runEngine_readCommands {s : State} (n : Nat) (ho : s.params.opcodes.Distinct)
    (hm : s.shiftReady.modesSet = true) (hq : s.cmdq = encodeCommands s.params.opcodes (readCommands s.params))
    (hrq : s.rspq = []) (hra : s.rspa = []) :
    ∃ u d, runEngine (n + 4) s = .next u ∧ u.rspa = [d, s.env.draws.nth Config.freeByte 0] ∧ u.cmdq = [] ∧
      ∀ j, j < 8 → d.getLsbD (7 - j) = !s.env.reacts.nth Config.freeReact (2 * j + 1) := by
  obtain ⟨run1, hq1, hp1⟩ := runEngine_command (n := n + 3) ho rfl hq (exec_pat _ _ _)
  generalize ht : react (setDrivers _ _ { s with cmdq := _ }) = t at run1 hq1 hp1
  have low : t.pindir.getLsbD 0 = true := by
    rw [← ht, react_pindir, setDrivers_pindir, BitVec.getLsbD_append]
    rfl
  have modes : t.shiftReady.modesSet = true := by simpa [← ht, State.shiftReady, ShiftReady.modesSet] using hm
  have reacts : t.env.reacts = s.env.reacts.advance := by simp [← ht]
  have draws : t.env.draws = s.env.draws := by simp [← ht]
  have responses : t.rspq = [] ∧ t.rspa = [] := by simp [← ht, hrq, hra]
  obtain ⟨u, hx, frame, _, _, _, samples, _⟩ := clkIn8ShiftsInMsbFirst
    { t with cmdq := encodeCommands t.params.opcodes [.flush, .flush] } low modes
  obtain ⟨run2, hq2, hp2⟩ := runEngine_command (n := n + 2) (hp1 ▸ ho) rfl hq1 hx
  have released : u.rspa ++ u.rspq = [u.rxsh, s.env.draws.nth Config.freeByte 0] := by
    rw [congrArg State.rspa frame, congrArg State.rspq frame, responses.1, responses.2, ← draws]
    rfl
  have ho2 : u.params.opcodes.Distinct := by rw [hp2, hp1]; exact ho
  obtain ⟨v, run3, hq3, hp3, hva, hvq⟩ := runEngine_flush (n := n + 1) ho2 hq2
  obtain ⟨w, run4, hq4, _, hwa, _⟩ := runEngine_flush (n := n) (hp3 ▸ ho2) hq3
  refine ⟨w, u.rxsh, (((run1.trans run2).trans run3).trans run4).trans (runEngine_idle hq4), ?_, hq4, fun j hj => ?_⟩
  · rw [hwa, hva, hvq, List.append_nil, released]
  · rw [samples j hj, reacts, Stream.nth_advance]

theorem encodeCommands_ackPattern (p : Params) (last : Bool) :
    encodeCommands p.opcodes [ackPattern p last] = patBytes p (if last then 0b01#2 else 0b11#2) := by
  cases last <;> rfl

/-- READBYTE once both bytes are read and its last write is good: the status byte decides between the error and the ACK or
NACK command (R90, R172). -/
theorem readTail_two (last : Bool) (d status : Byte) {s : State} (hf : s.fatal = false) (hw : s.drawWrite = .ok) :
    ∃ t, readTail last (some [d, status]) s = t ∧ t.bus = .dataPhase ∧ t.fatal = false ∧
      t.result = packResult { data := d, raw1 := status, rspn := 2,
                              err := if status &&& s.params.statusErrMask = 0 then 0 else 5 } false 3 ∧
      t.cmdq = s.cmdq ++ (if status &&& s.params.statusErrMask = 0
        then patBytes s.params (if last then 0b01#2 else 0b11#2) else []) := by
  refine ⟨_, rfl, ?_⟩
  by_cases hs : status &&& s.params.statusErrMask = 0
  · have passes : shiftFailed s.params status = false := bne_eq_false_iff_eq.mpr hs
    rw [readTail, passes, if_neg Bool.false_ne_true, emitThen_ok _ _ hw, encodeCommands_ackPattern, if_pos hs, if_pos hs]
    exact ⟨rfl, hf, by simp [finishRead, hf, BusState.code], rfl⟩
  · have fails : shiftFailed s.params status = true := bne_iff_ne.mpr hs
    rw [readTail, fails, if_pos rfl, if_neg hs, if_neg hs, List.append_nil]
    exact ⟨rfl, hf, by simp [readFails, hf, BusState.code, ErrorKind.code], rfl⟩

theorem execReadByte_of_admitted {s : State} (hf : s.fatal = false) (hc : s.clkcfg = true) (hb : readBus s.bus = true)
    (hw : s.drawWrite = .ok) (last : Bool) :
    execReadByte last s = andThen (engineRuns (sent (readCommands s.params) s)) fun u =>
      .next (readTail last (linkRead 2 u).1 (linkRead 2 u).2) := by
  rw [execReadByte, admission_eq_none.mpr ⟨hf, fun _ => hc, hb⟩, unlessRefused_none, emitOr_ok _ _ hw]
  rfl

/-- Settles O58: Stage P executes the four commands, the read takes both their bytes, and the status byte decides between
the error and the ACK or NACK command. -/
theorem readByteReceivesTheTargetsByte : Obligations.ReadByteReceivesTheTargetsByte := by
  intro s last k m ⟨_, _, _, ho⟩ hf hc hb hm hq hrq hra hw0 hw1 hpace hread status
  have queued : (sent (readCommands s.params) s).takePace.cmdq =
      encodeCommands s.params.opcodes (readCommands s.params) := congrArg (· ++ _) hq
  obtain ⟨u, d, hrun, hrspa, huq, bits⟩ :=
    runEngine_readCommands (s := (sent (readCommands s.params) s).takePace) k ho hm queued hrq hra
  obtain ⟨same, _, _⟩ := runEngine_next hrun
  have runs : engineRuns (sent (readCommands s.params) s) = .next u := by rw [← hrun, ← hpace]; rfl
  have params : u.params = s.params := same.params
  have taken : linkRead 2 u = (some [d, status], { u.takeRead with rspa := [] }) := by
    have read : u.drawRead = .bytes (m + 2) := by rw [State.drawRead, same.reads]; exact hread
    rw [linkRead_bytes read, Nat.min_eq_right (by omega), hrspa]
    rfl
  have write : u.drawWrite = .ok := by
    rw [drawWrite_eq, same.writes, ← hw1]
    exact Stream.nth_advance _ _ _
  obtain ⟨t, ht, hbus, hfatal, hresult, hcmdq⟩ :=
    readTail_two last d status (s := { u.takeRead with rspa := [] }) (same.fatal.trans hf) write
  refine ⟨t, ?_, hbus, hfatal, ?_⟩
  · rw [exec, execReadByte_of_admitted hf hc hb ((drawWrite_eq s).trans hw0), runs, andThen_next, taken, ht]
  · simp only [takeRead_cmdq, takeRead_params, huq, params, List.nil_append] at hresult hcmdq
    rw [hresult, resultData_pack, resultRaw1_pack, resultRspn_pack, resultNack_pack, resultErr_pack]
    exact ⟨bits, rfl, rfl, rfl, rfl, hcmdq⟩

end Sys2Proof.Machine

/-! PROOFS. The family of 40_clock_divisor: SETCLK (R102), the commands it queues (R103 to R106), and the arithmetic of the
divisor (R100, R101). -/

namespace Sys2Proof.Machine

/-! ## SETCLK -/

/-- The fields `raise AdapterIoFailed` packs make the statements' word, in every BUS state (R227). -/
theorem packResult_adapterIoFailed (b : BusState) :
    packResult { err := ErrorKind.adapterIoFailed.code } true b.code = fatalResult b := by
  cases b <;> decide

/-- The fatal error writes FATAL and RESULT and nothing else (R227). -/
theorem raiseFatal_eq (s : State) : raiseFatal s = { s with fatal := true, result := fatalResult s.bus } :=
  congrArg (fun r => { s with fatal := true, result := r }) (packResult_adapterIoFailed s.bus)

theorem execSetClk_of_admitted {s : State} (hf : s.fatal = false) (hb : s.bus = .idle) (d : Half) :
    execSetClk d s =
      .next (emitThen (encodeClockConfig d) (fun t => writeResult {} { t with clkcfg := true }) s) := by
  rw [execSetClk, admission_idleBus hf hb, unlessRefused_none]

/-- A RESULT with no field set, no fatal error and BUS = Idle is the zero word. -/
theorem writeResult_idle {s : State} (hf : s.fatal = false) (hb : s.bus = .idle) :
    writeResult {} s = { s with result := 0x00000000#32 } := by
  have zero : packResult {} false BusState.idle.code = 0x00000000#32 := by decide
  rw [writeResult, hf, hb, zero]

/-- Settles O31: once admitted, SETCLK is one Emit of the clock configuration; its two outcomes are the two next states. -/
theorem setClkEmitsClockConfiguration : Obligations.SetClkEmitsClockConfiguration := by
  refine ⟨fun s d hf => exec_of_fatal hf rfl nofun, fun s d => execSetClk_notIdle (d := d),
    fun d => decodeHost_encodeHost rfl, fun s d hf hb => ⟨fun hw => ?written, fun k hw => ?failed⟩⟩
  all_goals rw [exec, execSetClk_of_admitted hf hb]
  case written =>
    rw [emitThen_ok _ _ hw]
    exact congrArg _ (writeResult_idle hf hb)
  case failed =>
    have word : fatalResult s.bus = 0x01200000#32 := by rw [hb]; decide
    rw [emitThen_fail _ _ hw, raiseFatal_eq, ← word]
    rfl

/-! ## The commands -/

/-- Settles O41: each meaning is one register update, and each first byte selects its own command. -/
theorem clockCommandsSetTheirRegister : Obligations.ClockCommandsSetTheirRegister := by
  refine fun s => ⟨⟨rfl, rfl, rfl, fun lo hi => rfl⟩, fun ho rest => ?_⟩
  exact ⟨decodeCommand_div5Off ho, decodeCommand_adaptOff ho, decodeCommand_ph3On ho, fun lo hi => decodeCommand_setDiv ho⟩

/-! ## The divisor -/

theorem divisorOf_of_pos {fm fs : Nat} (h : 0 < fs) :
    divisorOf fm fs = some (BitVec.ofInt 16 ((fm / (2 * fs) : Nat) - 1 : Int)) :=
  if_neg h.ne'

/-- Settles O42: the divisor is read back as the remainder it was truncated to, which is not negative. -/
theorem divisorOfIsFloorLessOneTruncated : Obligations.DivisorOfIsFloorLessOneTruncated := by
  refine ⟨fun fm => rfl, fun fm fs h => ⟨_, divisorOf_of_pos h, ?_⟩⟩
  rw [BitVec.toNat_ofInt]
  exact Int.toNat_of_nonneg (Int.emod_nonneg _ (by decide))

/-- In the supported range of R100 nothing is truncated: the divisor is the quotient less one. -/
theorem divisorOf_toNat {fm fs : Nat} {d : Half} (h : 0 < fs) (hlow : 1 ≤ fm / (2 * fs)) (hhigh : fm / (2 * fs) ≤ 65536)
    (hd : divisorOf fm fs = some d) : d.toNat + 1 = fm / (2 * fs) := by
  obtain ⟨d', hd', value⟩ := divisorOfIsFloorLessOneTruncated.2 fm fs h
  obtain rfl : d' = d := Option.some.inj (hd'.symm.trans hd)
  rw [Int.emod_eq_of_lt (by omega) (by omega)] at value
  omega

theorem fsclOf_mul_le (fm : Nat) (d : Half) : fsclOf fm d * (2 * (d.toNat + 1)) ≤ fm := Nat.div_mul_le_self _ _

section
variable {fm fs : Nat} {d : Half} (hd : d.toNat + 1 = fm / (2 * fs))
include hd

/-- The division of R100 with its remainder, read from the divisor. -/
theorem mul_divisor_add_mod : fs * (2 * (d.toNat + 1)) + fm % (2 * fs) = fm := by
  calc fs * (2 * (d.toNat + 1)) + fm % (2 * fs)
    _ = 2 * fs * (fm / (2 * fs)) + fm % (2 * fs) := by rw [hd, Nat.mul_left_comm, Nat.mul_assoc]
    _ = fm := Nat.div_add_mod fm (2 * fs)

/-- Dividing by the quotient gives back no less than what was divided by. -/
theorem le_fsclOf : fs ≤ fsclOf fm d :=
  (Nat.le_div_iff_mul_le (by omega)).mpr ((Nat.le_add_right _ _).trans_eq (mul_divisor_add_mod hd))

theorem fsclOf_of_dvd (h : 2 * fs ∣ fm) : fsclOf fm d = fs := by
  have whole := mul_divisor_add_mod hd
  rw [Nat.mod_eq_zero_of_dvd h, Nat.add_zero] at whole
  exact Nat.div_eq_of_eq_mul_left (by omega) whole.symm

/-- The excess of the round trip over `fs`, taken back through the divisor, is within the remainder of the division. -/
theorem fsclOf_excess_le : (fsclOf fm d - fs) * (2 * (d.toNat + 1)) ≤ fm % (2 * fs) := by
  rw [Nat.sub_mul, Nat.sub_le_iff_le_add', mul_divisor_add_mod hd]
  exact fsclOf_mul_le fm d

/-- The bound of R101. -/
theorem fsclOf_excess_lt (h : 0 < fs) : (fsclOf fm d - fs) * (fm - 2 * fs) < 2 * fs * fs := by
  have remainder : fm % (2 * fs) < 2 * fs := Nat.mod_lt fm (by omega)
  have width : fm - 2 * fs ≤ 2 * (d.toNat + 1) * fs := by
    have whole := mul_divisor_add_mod hd
    rw [Nat.mul_comm fs] at whole
    omega
  calc (fsclOf fm d - fs) * (fm - 2 * fs)
    _ ≤ (fsclOf fm d - fs) * (2 * (d.toNat + 1) * fs) := Nat.mul_le_mul_left _ width
    _ = (fsclOf fm d - fs) * (2 * (d.toNat + 1)) * fs := (Nat.mul_assoc _ _ _).symm
    _ ≤ fm % (2 * fs) * fs := Nat.mul_le_mul_right _ (fsclOf_excess_le hd)
    _ < 2 * fs * fs := Nat.mul_lt_mul_of_pos_right remainder h

/-- The frequency of the round trip divides into the same quotient (conflict C5). -/
theorem div_fsclOf (h : 0 < fs) : fm / (2 * fsclOf fm d) = fm / (2 * fs) := by
  have low := le_fsclOf hd
  apply Nat.le_antisymm
  · exact Nat.div_le_div_left (by omega) (by omega)
  · rw [← hd, Nat.le_div_iff_mul_le (by omega)]
    calc (d.toNat + 1) * (2 * fsclOf fm d)
      _ = fsclOf fm d * (2 * (d.toNat + 1)) := by ring
      _ ≤ fm := fsclOf_mul_le fm d

end

/-- Settles O43: in the supported range the divisor is the quotient less one, and the bounds are those of floor division. -/
theorem divisorRoundTripIsBounded : Obligations.DivisorRoundTripIsBounded := by
  intro fm fs d h hlow hhigh hdiv
  have hd := divisorOf_toNat h hlow hhigh hdiv
  have fixed : divisorOf fm (fsclOf fm d) = divisorOf fm fs := by
    rw [divisorOf_of_pos (h.trans_le (le_fsclOf hd)), div_fsclOf hd h, divisorOf_of_pos h]
  exact ⟨rfl, le_fsclOf hd, fsclOf_of_dvd hd, fun _ => fsclOf_excess_lt hd h, fixed.trans hdiv⟩

end Sys2Proof.Machine

/-! PROOFS. The family of 41_pin_commands: the levels of the lines and their history (R123, R124, R130), PIN and its
repetition (R122, R131), the shift commands and their refusals (R125 to R127, U27), FLUSH (R128), and the bits SENDBYTE
sends and samples through both stages (R170, R171). -/

namespace Sys2Proof.Machine

/-! ## The lines and their history -/

/-- Settles O17: whoever's turn it is, a step moves the lines one at a time and records each move (R124, R130). -/
theorem stepKeepsWaveCurrent : Obligations.StepKeepsWaveCurrent :=
  fun _ _ h hx => (step_inside hx).moves.waveCurrent h

/-- The master drives a line low with direction 1 and value 0 (R120, R123). -/
theorem masterLow_iff {s : State} {i : Nat} :
    s.masterLow i = true ↔ s.pindir.getLsbD i = true ∧ s.pinval.getLsbD i = false := by
  rw [State.masterLow, Bool.and_eq_true, Bool.not_eq_true']

theorem levels_sda_low_iff {s : State} : s.levels.sda = false ↔ s.masterLow 1 = true ∨ s.tlow = true := by
  rw [State.levels, Bool.not_eq_false', Bool.or_eq_true]

theorem levels_scl_low_iff {s : State} : s.levels.scl = false ↔ s.masterLow 0 = true := by
  rw [State.levels, Bool.not_eq_false']

/-- Settles O45: SDA and SCL are read off `levels`, and lines 7 to 2 have no pull-up and no target (R33, R123). -/
theorem lineLevelsAreWiredAnd : Obligations.LineLevelsAreWiredAnd := by
  intro s aux
  refine ⟨?sda, ?scl, fun i hi => ?aux⟩
  case sda => exact levels_sda_low_iff.trans (or_congr_left masterLow_iff)
  case scl => exact levels_scl_low_iff.trans masterLow_iff
  case aux => rw [State.line, if_neg (by omega), if_neg (by omega)]

/-! ## PIN -/

/-- What a PIN that is not refused leaves: its masks on the drivers, and the target's reaction (R122, R129, log 8). -/
def pinned (dir val : Byte) (s : State) : State := react (setDrivers dir val s)

section
variable {s : State} {dir val : Byte}

theorem exec_pin (h : openDrainMasks dir val = true) : exec (.pin dir val) s = .next (pinned dir val s) := by
  rw [exec, execPin, if_pos h, pinned]

theorem exec_pin_refused (h : openDrainMasks dir val = false) :
    exec (.pin dir val) s = .refused .busLineDrivenHigh := by
  rw [exec, execPin, if_neg (Bool.eq_false_iff.mp h)]

theorem openDrainMasks_iff : openDrainMasks dir val = true ↔
    (dir.getLsbD 1 && val.getLsbD 1) = false ∧ (dir.getLsbD 0 && val.getLsbD 0) = false := by
  rw [openDrainMasks, drivesHigh, drivesHigh, Bool.and_eq_true, Bool.not_eq_true', Bool.not_eq_true']

theorem openDrainMasks_eq_false : openDrainMasks dir val = false ↔
    (dir.getLsbD 1 && val.getLsbD 1) = true ∨ (dir.getLsbD 0 && val.getLsbD 0) = true := by
  rw [openDrainMasks, drivesHigh, drivesHigh, Bool.and_eq_false_iff, Bool.not_eq_false', Bool.not_eq_false']

@[simp] theorem pinned_pindir : (pinned dir val s).pindir = dir := by simp [pinned]
@[simp] theorem pinned_pinval : (pinned dir val s).pinval = val := by simp [pinned]
@[simp] theorem pinned_tlow : (pinned dir val s).tlow = s.drawReact := by simp [pinned, State.drawReact]
@[simp] theorem pinned_rxsh : (pinned dir val s).rxsh = s.rxsh := by simp [pinned]
@[simp] theorem pinned_reacts : (pinned dir val s).env.reacts = s.env.reacts.advance := by simp [pinned]

/-- Beyond the masks, a PIN changes what the lines' moves change and nothing else (R122). -/
theorem pinned_frame : ShiftedFrom { s with pindir := dir, pinval := val } (pinned dir val s) :=
  (ShiftedFrom.recordChange s.levels _).trans (.react _)

/-- A PIN moves the lines from what they were to what its masks make of them, in the order drawn, when the target keeps
its drive (R130, log 8). -/
theorem pinned_wave (hk : s.drawReact = s.tlow) :
    (pinned dir val s).wave = s.wave ++ settingChanges s.drawOrder s.levels (pinned dir val s).levels := by
  have same : (pinned dir val s).levels = (setDrivers dir val s).levels :=
    levels_eq (by simp) (by simp) (by simp [hk])
  have still : (pinned dir val s).wave = (setDrivers dir val s).wave := by
    rw [pinned, (Path.react _).wave, ← pinned, same, settingChanges, if_pos rfl, List.append_nil]
  rw [still, (Path.setDrivers dir val s).wave, same]

/-- The same PIN again moves nothing, when the target keeps its drive (R131). -/
theorem pinned_again_wave (hd : s.pindir = dir) (hv : s.pinval = val) (hk : s.drawReact = s.tlow) :
    (pinned dir val s).wave = s.wave := by
  have same : (pinned dir val s).levels = s.levels := levels_eq (by simp [hd]) (by simp [hv]) (by simp [hk])
  rw [pinned_wave hk, same, settingChanges, if_pos rfl, List.append_nil]

end

/-- Settles O44: a PIN is refused exactly when its masks drive SDA or SCL high, and otherwise writes them whole. -/
theorem pinSetsTheDrivers : Obligations.PinSetsTheDrivers := by
  intro s dir val
  refine ⟨fun h1 h0 => ⟨_, exec_pin (openDrainMasks_iff.mpr ⟨h1, h0⟩), ?frame, pinned_tlow.trans (drawReact_eq s)⟩,
    fun h => exec_pin_refused (openDrainMasks_eq_false.mpr h), fun rest => decodeCommand_setLow⟩
  case frame =>
    have frame := pinned_frame (s := s) (dir := dir) (val := val)
    rw [ShiftedFrom, pinned_pindir, pinned_rxsh, pinned_reacts] at frame
    exact frame

/-- The target keeps its drive over its next `n` reactions. -/
def TargetKeeps (n : Nat) (s : State) : Prop := ∀ k, k < n → s.env.reacts.nth Config.freeReact k = s.tlow

theorem TargetKeeps.drawReact {n : Nat} {s : State} (h : TargetKeeps (n + 1) s) : s.drawReact = s.tlow :=
  (drawReact_eq s).trans (h 0 n.succ_pos)

theorem TargetKeeps.pinned {n : Nat} {s : State} (h : TargetKeeps (n + 1) s) (dir val : Byte) :
    TargetKeeps n (pinned dir val s) := fun k hk => by
  rw [pinned_reacts, Stream.nth_advance, pinned_tlow, h.drawReact]
  exact h (k + 1) (Nat.succ_lt_succ hk)

/-- However often a PIN follows that finds its own masks on the drivers, the drivers and the lines stay (R131). -/
theorem execTimes_pin_still {dir val : Byte} (hm : openDrainMasks dir val = true) (n : Nat) {s : State}
    (hd : s.pindir = dir) (hv : s.pinval = val) (hk : TargetKeeps n s) :
    ∃ u, execTimes n (.pin dir val) s = .next u ∧
      u.pindir = s.pindir ∧ u.pinval = s.pinval ∧ u.tlow = s.tlow ∧ u.wave = s.wave := by
  induction n generalizing s with
  | zero => exact ⟨s, rfl, rfl, rfl, rfl, rfl⟩
  | succ n ih =>
    obtain ⟨u, hu, hud, huv, hul, huw⟩ := ih pinned_pindir pinned_pinval (hk.pinned dir val)
    refine ⟨u, by rw [execTimes, exec_pin hm, andThen_next, hu], ?_, ?_, ?_, ?_⟩
    · rw [hud, pinned_pindir, hd]
    · rw [huv, pinned_pinval, hv]
    · rw [hul, pinned_tlow, hk.drawReact]
    · rw [huw, pinned_again_wave hd hv hk.drawReact]

/-- Settles O46: the first PIN leaves its own masks on the drivers, and every later one finds them there. -/
theorem pinRepetitionIsIdempotent : Obligations.PinRepetitionIsIdempotent := by
  intro s dir val n hm (hk : TargetKeeps (n + 1) s)
  obtain ⟨u, hu, hd, hv, hl, hw⟩ := execTimes_pin_still hm n pinned_pindir pinned_pinval (hk.pinned dir val)
  exact ⟨_, u, exec_pin hm, by rw [execTimes, exec_pin hm, andThen_next, hu], hd, hv, levels_eq hd hv hl, hw⟩

/-- Settles O47: the eight changes, one by one; and a PIN whose target keeps its drive records its own change alone. -/
theorem bothLinesChangeInEitherOrder : Obligations.BothLinesChangeInEitherOrder := by
  refine ⟨by decide, by decide, by decide, by decide, by decide, by decide, by decide, by decide,
    fun s dir val hm hk => ⟨_, exec_pin hm, pinned_wave ((drawReact_eq s).trans hk)⟩⟩

/-! ## The shift commands -/

section
variable {s : State}

theorem shiftRefusal_sclNotLow (h : s.pindir.getLsbD 0 = false) : shiftRefusal s = some .sclNotLow := by
  rw [shiftRefusal, h, Bool.not_false, if_pos rfl]

theorem shiftRefusal_clockModesNotSet (h : s.pindir.getLsbD 0 = true) (hm : s.shiftReady.modesSet = false) :
    shiftRefusal s = some .clockModesNotSet := by
  have modes : s.modesSet = false := hm
  rw [shiftRefusal, h, modes, Bool.not_true, if_neg Bool.false_ne_true, Bool.not_false, if_pos rfl]

/-- The three shift commands are refused for one and the same reason (R125 to R127). -/
theorem exec_shift_refused {r : Refusal} (h : shiftRefusal s = some r) (v : Byte) :
    exec (.clkOut8 v) s = .refused r ∧ exec .clkIn1 s = .refused r ∧ exec .clkIn8 s = .refused r := by
  refine ⟨?_, ?_, ?_⟩
  · rw [exec, execClkOut8, h, unlessRefused_some]
  · rw [exec, execClkIn1, h, unlessRefused_some]
  · rw [exec, execClkIn8, h, unlessRefused_some]

theorem modesSet_eq_false (h : s.ph3 = false ∨ s.div5 = true ∨ s.adapt = true) : s.shiftReady.modesSet = false := by
  rw [ShiftReady.modesSet, State.shiftReady]
  rcases h with h | h | h <;> simp [h]

theorem exec_clkOut8 (hl : s.pindir.getLsbD 0 = true) (hm : s.shiftReady.modesSet = true) (v : Byte) :
    exec (.clkOut8 v) s = .next (clockOut (bitsMsbFirst v) s) := by
  rw [exec, execClkOut8, shiftRefusal_eq_none.mpr ⟨hl, hm⟩, unlessRefused_none]

end

/-- Settles O54: SCL is tested first, then the clock modes, and the same for all three commands (log 11). -/
theorem shiftCommandsRefusedWhenNotReady : Obligations.ShiftCommandsRefusedWhenNotReady := fun _ v =>
  ⟨fun h => exec_shift_refused (shiftRefusal_sclNotLow h) v,
    fun h hm => exec_shift_refused (shiftRefusal_clockModesNotSet h (modesSet_eq_false hm)) v⟩

theorem ShiftedFrom.clockOut (bits : List Bool) (s : State) : ShiftedFrom s (clockOut bits s) := by
  induction bits generalizing s with
  | nil => rfl
  | cons bit bits ih =>
    exact (((ShiftedFrom.assign 1 (!bit) s).trans (.assign 0 false _)).trans (.assign 0 true _)).trans (ih _)

/-- Settles O48: every bit ends with SCL driven low and SDA as the bit placed it, and the last of them is bit 0. -/
theorem clkOut8LeavesTheLastBitOnSda : Obligations.ClkOut8LeavesTheLastBitOnSda := by
  intro s v
  refine ⟨fun hl hm => ?completes, fun hl hm => (exec_shift_refused (shiftRefusal_clockModesNotSet hl hm) v).1⟩
  case completes =>
    obtain ⟨low, last, high⟩ := clockOut_pindir (bitsMsbFirst v) s hl
    have frame := ShiftedFrom.clockOut (bitsMsbFirst v) s
    rw [ShiftedFrom, clockOut_rxsh] at frame
    exact ⟨_, exec_clkOut8 hl hm v, frame, low, last _ rfl, high⟩

/-! ## FLUSH -/

/-- Settles O52: with nothing pending there is nothing to append, and FLUSH's one byte is its opcode. -/
theorem flushReleasesResponses : Obligations.FlushReleasesResponses := by
  refine fun s => ⟨rfl, fun hq => ?_, fun ho rest => decodeCommand_flush ho⟩
  rw [exec, execFlush, hq, List.append_nil, ← hq]

/-! ## SENDBYTE through both stages -/

theorem clockOut_append (l m : List Bool) (s : State) : clockOut (l ++ m) s = clockOut m (clockOut l s) := by
  induction l generalizing s with
  | nil => rfl
  | cons bit l ih => exact ih _

/-- Each bit out takes three of the target's reactions (log 8). -/
theorem clockOut_driveAfter (bits : List Bool) (s : State) (n : Nat) :
    (clockOut bits s).driveAfter n = s.driveAfter (n + 3 * bits.length) := by
  induction bits generalizing s with
  | nil => rfl
  | cons bit bits ih =>
    rw [clockOut, ih, clockOutBit, assign_driveAfter, assign_driveAfter, assign_driveAfter, List.length_cons]
    rfl

/-- One bit out is one bit transfer whatever the target does once SCL has fallen again (R125). -/
theorem Transfers.clockOutBit_untilFall {s : State} (ho : OpenDrain s) (hl : s.pindir.getLsbD 0 = true)
    (hq : TargetQuiet 2 s) (bit : Bool) : Transfers s (Machine.clockOutBit bit s) [bit] := by
  have hq' := hq.assign 1 (!bit)
  have hsda : (assign 1 (!bit) s).levels.sda = bit := by
    rw [levels_openDrain (ho.congr (by simp)), hq'.1]
    simp
  have place := Transfers.assignSda ho hl (!bit)
  have rise := Transfers.assignSclHigh (s := assign 1 (!bit) s) (ho.congr (by simp)) (by simpa using hl) hq'.keeps
  have fall := Transfers.assignSclLow (s := assign 0 false (assign 1 (!bit) s)) (ho.congr (by simp))
  rw [hsda] at rise
  exact (place.trans rise).trans fall

/-- A target that answers once the last bit's SCL has fallen disturbs none of the bits (R125, R126). -/
theorem Transfers.clockOut_untilFall (bits : List Bool) (bit : Bool) {s : State} (ho : OpenDrain s)
    (hl : s.pindir.getLsbD 0 = true) (hq : TargetQuiet (3 * bits.length + 2) s) :
    Transfers s (Machine.clockOut (bits ++ [bit]) s) (bits ++ [bit]) := by
  obtain ⟨low, _⟩ := clockOut_pindir bits s hl
  have early : TargetQuiet (3 * bits.length) s := .of_driveAfter fun k hk => hq.driveAfter (by omega)
  have late : TargetQuiet 2 (Machine.clockOut bits s) := .of_driveAfter fun k hk => by
    rw [clockOut_driveAfter]
    exact hq.driveAfter (by omega)
  rw [clockOut_append]
  exact (Transfers.clockOut bits ho hl early).trans (Transfers.clockOutBit_untilFall (ho.congr (by simp)) low late bit)

/-- Moves of the lines that are seen on the history as bit transfers are those bit transfers. -/
theorem Moves.transfers {s t : State} {bits : List Bool} (h : Moves s t)
    (he : eventsFrom s.levels (t.changesSince s) = bits.map BusEvent.bitTransfer)
    (hd : dataStableFrom s.levels (t.changesSince s) = true) : Transfers s t bits := by
  obtain ⟨ch, hp, _⟩ := h
  rw [State.changesSince, hp.wave, List.drop_left] at he hd
  exact ⟨ch, hp, he, hd⟩

/-- Stage P executing `encodeClockInBit`: the target's drive at the rise of SCL, its first reaction (log 8), crosses the
bus and is bit 0 of the one byte that becomes readable (R126, R128). -/
theorem runEngine_clockInBit {s : State} (n : Nat) (ho : s.params.opcodes.Distinct) (hd : OpenDrain s)
    (hl : s.pindir.getLsbD 0 = true) (hm : s.shiftReady.modesSet = true)
    (hq : s.cmdq = encodeCommands s.params.opcodes encodeClockInBit) (hrq : s.rspq = []) (hra : s.rspa = [])
    (hold : s.driveAfter 2 = s.driveAfter 1) :
    ∃ u b, runEngine (n + 2) s = .next u ∧ u.rspa = [b] ∧ nackBit b = !s.driveAfter 1 ∧
      Transfers s u [!s.driveAfter 1] := by
  obtain ⟨t, b, hx, frame, _, _, _, _, hb, _, lines⟩ :=
    clkIn1SamplesSda { s with cmdq := encodeCommands s.params.opcodes [.flush] } hl hm
  obtain ⟨_, events, stable⟩ := lines hd hold
  obtain ⟨_, _, moves⟩ := engineExec_next (i := .clkIn1) hx
  obtain ⟨run1, hq1, hp1⟩ := runEngine_command (n := n + 1) ho rfl hq hx
  obtain ⟨run2, hq2, _⟩ := runEngine_command (n := n) (hp1 ▸ ho) rfl hq1 rfl
  refine ⟨_, b, (run1.trans run2).trans (runEngine_idle hq2), ?rspa, hb, ?lines⟩
  case rspa =>
    show t.rspa ++ t.rspq = [b]
    rw [congrArg State.rspa frame, congrArg State.rspq frame, hrq, hra]
    rfl
  case lines =>
    have fetched : Transfers s { s with cmdq := encodeCommands s.params.opcodes [.flush] } [] := .still rfl rfl rfl rfl
    exact (fetched.trans (moves.transfers (bits := [_]) events stable)).trans (.still rfl rfl rfl rfl)

/-- CLKOUT8 sends its byte, keeps what a shift command needs, and takes 24 of the target's reactions, the last of them
with SCL low again: there a target that stayed quiet may begin its answer (R125, log 8). -/
theorem exec_clkOut8_untilFall {s : State} (v : Byte) (hd : OpenDrain s) (hl : s.pindir.getLsbD 0 = true)
    (hm : s.shiftReady.modesSet = true) (quiet : TargetQuiet 23 s) :
    ∃ t, exec (.clkOut8 v) s = .next t ∧ t.shiftReady = s.shiftReady ∧ OpenDrain t ∧ t.rspq = s.rspq ∧ t.rspa = s.rspa ∧
      (∀ k, t.driveAfter k = s.driveAfter (k + 24)) ∧ Transfers s t (bitsMsbFirst v) := by
  obtain ⟨low, _⟩ := clockOut_pindir (bitsMsbFirst v) s hl
  refine ⟨_, exec_clkOut8 hl hm v, ?_, hd.congr (by simp), by simp, by simp, clockOut_driveAfter _ s, ?_⟩
  · simp only [State.shiftReady, low, hl, clockOut_div5, clockOut_adapt, clockOut_ph3]
  · exact Transfers.clockOut_untilFall ((bitsMsbFirst v).take 7) (v.getLsbD 0) hd hl quiet

/-- Stage P executing what SENDBYTE emits: the bits of `v` and then the target's answer cross the bus (R125, R126). The
answer is the target's 25th reaction, to CLKIN1's release of SDA (log 8). -/
theorem runEngine_sendCommands {s : State} (n : Nat) (v : Byte) (ho : s.params.opcodes.Distinct) (hd : OpenDrain s)
    (hl : s.pindir.getLsbD 0 = true) (hm : s.shiftReady.modesSet = true)
    (hq : s.cmdq = encodeCommands s.params.opcodes (sendCommands v)) (hrq : s.rspq = []) (hra : s.rspa = [])
    (quiet : TargetQuiet 23 s) (hold : s.driveAfter 26 = s.driveAfter 25) :
    ∃ u b, runEngine (n + 3) s = .next u ∧ u.rspa = [b] ∧ nackBit b = !s.driveAfter 25 ∧
      Transfers s u (bitsMsbFirst v ++ [!s.driveAfter 25]) := by
  obtain ⟨t, hx, ready, od, rspq, rspa, drive, out⟩ :=
    exec_clkOut8_untilFall (s := { s with cmdq := encodeCommands s.params.opcodes encodeClockInBit }) v hd hl hm quiet
  obtain ⟨run1, hq1, hp1⟩ := runEngine_command (n := n + 2) ho rfl hq hx
  obtain ⟨u, b, run2, hb, hn, answer⟩ := runEngine_clockInBit n (hp1 ▸ ho) od
    ((congrArg ShiftReady.sclLow ready).trans hl) (ready ▸ hm) hq1 (rspq.trans hrq) (rspa.trans hra)
    (by rw [drive, drive]; exact hold)
  rw [drive] at hn answer
  have fetched : Transfers s { s with cmdq := encodeCommands s.params.opcodes encodeClockInBit } [] :=
    .still rfl rfl rfl rfl
  exact ⟨u, b, run1.trans run2, hb, hn, (fetched.trans out).trans answer⟩

/-- An attempt of SENDBYTE that finds a byte readable takes it and ends the reads (R170). -/
theorem readAttempts_byte {n m : Nat} {s u : State} {b : Byte} (hx : engineRuns s = .next u)
    (hr : u.drawRead = .bytes (m + 1)) (hb : u.rspa = [b]) :
    readAttempts (n + 1) s = .next (some b, { u.takeRead with rspa := [] }) := by
  have taken : linkRead 1 u = (some [b], { u.takeRead with rspa := [] }) := by
    rw [linkRead_bytes hr, Nat.min_eq_right (by omega), hb]
    rfl
  rw [readAttempts, hx, andThen_next, taken]

theorem execSendByte_of_admitted {s : State} (hf : s.fatal = false) (hc : s.clkcfg = true) (hb : sendBus s.bus = true)
    (hw : s.drawWrite = .ok) (v : Byte) :
    execSendByte v s = andThen (readAttempts s.params.rdAttempts (sent (sendCommands v) s)) fun r =>
      .next (sendTail r.1 r.2) := by
  rw [execSendByte, admission_eq_none.mpr ⟨hf, fun _ => hc, hb⟩, unlessRefused_none, emitOr_ok _ _ hw]
  rfl

/-- SENDBYTE once it has its byte and its last write is good: the flag is the byte's bit 0, and the lines have not moved
(R170, R171). -/
theorem sendTail_byte {s : State} (b : Byte) (hw : s.drawWrite = .ok) :
    resultErr (sendTail (some b) s).result = 0 ∧ resultNack (sendTail (some b) s).result = nackBit b ∧
      (sendTail (some b) s).wave = s.wave := by
  rw [sendTail, emitThen_ok _ _ hw, finishSend, writeResult_result, resultErr_pack, resultNack_pack]
  exact ⟨rfl, rfl, rfl⟩

/-- Settles O57: Stage P executes the three commands, the first read takes their one byte, and the flag is its bit 0. -/
theorem sendByteTransmitsAndSamplesAck : Obligations.SendByteTransmitsAndSamplesAck := by
  intro s v k m ⟨_, hreads, _, ho⟩ hf hc hb hd hl hm hq hrq hra hw0 hw1 hpace hread quiet hold
  have queued : (sent (sendCommands v) s).takePace.cmdq =
      encodeCommands s.params.opcodes (sendCommands v) := congrArg (· ++ _) hq
  obtain ⟨u, b, hrun, hrspa, hn, lines⟩ :=
    runEngine_sendCommands (s := (sent (sendCommands v) s).takePace) k v ho hd hl hm queued hrq hra quiet hold
  obtain ⟨same, _, _⟩ := runEngine_next hrun
  obtain ⟨n, hreads⟩ := Nat.exists_eq_add_of_le' hreads
  have got : readAttempts s.params.rdAttempts (sent (sendCommands v) s) =
      .next (some b, { u.takeRead with rspa := [] }) := by
    rw [hreads]
    refine readAttempts_byte (m := m) ?_ ?_ hrspa
    · rw [← hrun, ← hpace]; rfl
    · rw [State.drawRead, same.reads]; exact hread
  have write : ({ u.takeRead with rspa := [] } : State).drawWrite = .ok := by
    rw [drawWrite_eq, ← hw1]
    exact (congrArg (Stream.nth _ · _) same.writes).trans (Stream.nth_advance _ _ _)
  obtain ⟨herr, hnack, hwave⟩ := sendTail_byte b write
  obtain ⟨_, events, _⟩ := lines.onWave
  refine ⟨sendTail (some b) { u.takeRead with rspa := [] }, ?_, herr, hnack.trans hn, ?_⟩
  · rw [exec, execSendByte_of_admitted hf hc hb ((drawWrite_eq s).trans hw0), got, andThen_next]
  · rw [State.changesSince, hwave]
    exact events.trans List.map_append

end Sys2Proof.Machine

/-! PROOFS. The family of 42_start_stop: what START and STOP emit and leave (R150, R151), and what their patterns make of
the lines through both stages (R152, R252, R266). -/

namespace Sys2Proof.Machine

/-! ## The operations -/

theorem length_flatten_replicate_patBytes (p : Params) (d : BitVec 2) (n : Nat) :
    (List.replicate n (patBytes p d)).flatten.length = n * 3 := by
  rw [List.length_flatten, List.map_replicate, List.sum_replicate]
  rfl

/-- A pattern `n` times, another `n` times and once more are `2n + 1` PINs of three bytes (R81, R150, R151). -/
theorem length_patterns (p : Params) (d e : BitVec 2) (n : Nat) :
    ((List.replicate n (patBytes p d)).flatten ++ (List.replicate n (patBytes p e)).flatten ++ patBytes p e).length =
      3 * (2 * n + 1) := by
  have one : (patBytes p e).length = 3 := rfl
  rw [List.length_append, List.length_append, length_flatten_replicate_patBytes, length_flatten_replicate_patBytes, one]
  omega

/-- STOP's bytes (R151). -/
theorem encodeCommands_stop (p : Params) :
    encodeCommands p.opcodes (stopCommands p) = (List.replicate p.repeatCount (patBytes p 0b11#2)).flatten ++
      (List.replicate p.repeatCount (patBytes p 0b00#2)).flatten ++ patBytes p 0b00#2 := by
  simp only [stopCommands, encodeCommands_append, encodeCommands_replicate_pat]
  rfl

/-- What a failed last Emit leaves: a cut part of the bytes, FATAL, and RESULT with BUS kept (R55, R227). -/
theorem emitThen_failed {s : State} (cmds : List Instr) (k : State → State) {n : Nat} (h : s.drawWrite = .fail n) :
    emitThen cmds k s = { s.takeWrite with
      cmdq := s.cmdq ++ cutWrite (encodeCommands s.params.opcodes cmds) n,
      cmdOut := s.cmdOut ++ cutWrite (encodeCommands s.params.opcodes cmds) n,
      fatal := true, result := fatalResult s.bus } := by
  rw [emitThen_fail cmds k h, raiseFatal_eq]
  rfl

theorem execStart_of_admitted {s : State} (hf : s.fatal = false) :
    execStart s = .next (emitThen (startCommands s.params) finishStart s) := by
  rw [execStart, admission_anyBus hf, unlessRefused_none]

theorem execStop_of_admitted {s : State} (hf : s.fatal = false) :
    execStop s = .next (emitThen (stopCommands s.params) finishStop s) := by
  rw [execStop, admission_anyBus hf, unlessRefused_none]

/-- Started is all that RESULT shows after START (R150). -/
theorem finishStart_eq {s : State} (hf : s.fatal = false) :
    finishStart s = { s with bus := .started, result := 0x02000000#32 } := by
  have word : packResult {} false BusState.started.code = 0x02000000#32 := by decide
  rw [finishStart, writeResult, hf, word]

/-- Stopped is passed through, and Idle is what stays (R151, D11). -/
theorem finishStop_eq {s : State} (hf : s.fatal = false) :
    finishStop s = { s with bus := .idle, result := 0x00000000#32 } :=
  writeResult_idle hf rfl

theorem exec_start_written {s : State} (hf : s.fatal = false) (hw : s.drawWrite = .ok) :
    exec .start s = .next (finishStart (sent (startCommands s.params) s)) := by
  rw [exec, execStart_of_admitted hf, emitThen_ok _ _ hw, sent]

/-- Settles O29: admitted in every BUS state, START is one Emit; its two outcomes are the two next states. -/
theorem startEmitsAndMovesToStarted : Obligations.StartEmitsAndMovesToStarted := by
  refine ⟨fun s hf => exec_of_fatal hf rfl nofun, fun s hf => ⟨length_patterns _ _ _ _, fun hw => ?written,
    fun k hw => ?failed, decodeHost_encodeHost rfl⟩⟩
  all_goals rw [← encodeCommands_start]
  case written => exact (exec_start_written hf hw).trans (congrArg _ (finishStart_eq hf))
  case failed => rw [exec, execStart_of_admitted hf, emitThen_failed _ _ hw]

theorem exec_stop_written {s : State} (hf : s.fatal = false) (hw : s.drawWrite = .ok) :
    exec .stop s = .next (finishStop (sent (stopCommands s.params) s)) := by
  rw [exec, execStop_of_admitted hf, emitThen_ok _ _ hw, sent]

/-- Settles O30: admitted in every BUS state, STOP is one Emit; its two outcomes are the two next states. -/
theorem stopEmitsAndReturnsToIdle : Obligations.StopEmitsAndReturnsToIdle := by
  refine ⟨fun s hf => exec_of_fatal hf rfl nofun, fun s hf => ⟨length_patterns _ _ _ _, fun hw => ?written,
    fun k hw => ?failed, decodeHost_encodeHost rfl⟩⟩
  all_goals rw [← encodeCommands_stop]
  case written => exact (exec_stop_written hf hw).trans (congrArg _ (finishStop_eq hf))
  case failed => rw [exec, execStop_of_admitted hf, emitThen_failed _ _ hw]

/-! ## One pattern on the lines -/

/-- The levels pattern `d` puts on the lines when the target drives nothing: bit 1 drives SDA low, bit 0 SCL (R121,
R123). -/
def patternLevels (d : BitVec 2) : Levels := { sda := !d.getLsbD 1, scl := !d.getLsbD 0 }

/-- The drivers hold pattern `d` (R121). -/
structure Holds (d : BitVec 2) (s : State) : Prop where
  pindir : s.pindir = s.params.auxDir ++ d
  pinval : s.pinval = s.params.auxVal ++ 0#2

section
variable {s : State} {d : BitVec 2} (h : Holds d s)
include h

theorem Holds.pindir_one : s.pindir.getLsbD 1 = d.getLsbD 1 := by
  rw [h.pindir, BitVec.getLsbD_append]
  rfl

theorem Holds.pindir_zero : s.pindir.getLsbD 0 = d.getLsbD 0 := by
  rw [h.pindir, BitVec.getLsbD_append]
  rfl

theorem Holds.openDrain : OpenDrain s := by
  unfold OpenDrain
  rw [h.pinval, BitVec.getLsbD_append, BitVec.getLsbD_append]
  exact ⟨rfl, rfl⟩

theorem Holds.levels (hl : s.tlow = false) : s.levels = patternLevels d := by
  rw [levels_openDrain h.openDrain, h.pindir_one, h.pindir_zero, hl, Bool.or_false, patternLevels]

end

/-- A change of the lines takes an order from the environment when both change (R130). -/
theorem recordChange_orders (a : Levels) (s : State) :
    (recordChange a s).env.orders = if bothChange a s.levels then s.env.orders.advance else s.env.orders := by
  unfold recordChange
  split <;> rfl

theorem setDrivers_orders (dir val : Byte) (s : State) : (setDrivers dir val s).env.orders =
    if bothChange s.levels (setDrivers dir val s).levels then s.env.orders.advance else s.env.orders := by
  rw [setDrivers, recordChange_orders, recordChange_levels]

theorem react_orders (s : State) : (react s).env.orders =
    if bothChange s.levels (react s).levels then s.env.orders.advance else s.env.orders := by
  rw [react, targetDrives, recordChange_orders, recordChange_levels]
  rfl

theorem bothChange_self (a : Levels) : bothChange a a = false := by
  rw [bothChange, bne_self_eq_false, Bool.false_and]

theorem settingChanges_self (o : LineOrder) (a : Levels) : settingChanges o a a = [] := if_pos rfl

/-- A PIN takes an order only for its own change, when the target keeps its drive (R130, log 8). -/
theorem pinned_orders {s : State} {dir val : Byte} (hk : s.drawReact = s.tlow) : (pinned dir val s).env.orders =
    if bothChange s.levels (pinned dir val s).levels then s.env.orders.advance else s.env.orders := by
  have same : (react (setDrivers dir val s)).levels = (setDrivers dir val s).levels :=
    levels_eq (by simp) (by simp) (pinned_tlow.trans (hk.trans (by simp)))
  rw [pinned, react_orders, same, bothChange_self, if_neg Bool.false_ne_true, setDrivers_orders]

theorem TargetQuiet.pinned {n : Nat} {s : State} (h : TargetQuiet (n + 1) s) (dir val : Byte) (q : List Byte) :
    TargetQuiet n (pinned dir val { s with cmdq := q }) :=
  .of_driveAfter fun k hk => by
    rw [driveAfter_of_advance pinned_tlow pinned_reacts]
    exact h.driveAfter (Nat.succ_le_succ hk)

/-- The lines went from `s` to `t` by one setting to pattern `d`, and `t` holds it. -/
structure Sets (d : BitVec 2) (s t : State) : Prop where
  params : t.params = s.params
  holds  : Holds d t
  path   : Path s t (settingChanges s.drawOrder s.levels (patternLevels d))
  orders : t.env.orders =
    if bothChange s.levels (patternLevels d) then s.env.orders.advance else s.env.orders

theorem Sets.levels {d : BitVec 2} {s t : State} (h : Sets d s t) : t.levels = patternLevels d := by
  rw [← h.path.last, settingChanges_last]

/-- The same pattern again moves nothing (R131). -/
theorem Sets.again {d : BitVec 2} {s t u : State} (h : Sets d s t) (g : Sets d t u) : Sets d s u := by
  obtain ⟨gp, gh, path, orders⟩ := g
  rw [h.levels, settingChanges_self] at path
  rw [h.levels, bothChange_self, if_neg Bool.false_ne_true, h.orders] at orders
  exact ⟨gp.trans h.params, gh, List.append_nil (settingChanges s.drawOrder _ _) ▸ h.path.trans path, orders⟩

/-- The PIN of a pattern sets it, and the bytes it was fetched from do not matter (R121, R122). -/
theorem sets_pinned {n : Nat} {s : State} (quiet : TargetQuiet (n + 1) s) (d : BitVec 2) (q : List Byte) :
    Sets d s (pinned (s.params.auxDir ++ d) (s.params.auxVal ++ 0#2) { s with cmdq := q }) := by
  have still : ({ s with cmdq := q } : State).drawReact = s.tlow := quiet.keeps
  have params : (pinned (s.params.auxDir ++ d) (s.params.auxVal ++ 0#2) { s with cmdq := q }).params = s.params := by
    simp [pinned]
  have holds : Holds d (pinned (s.params.auxDir ++ d) (s.params.auxVal ++ 0#2) { s with cmdq := q }) :=
    ⟨by rw [pinned_pindir, params], by rw [pinned_pinval, params]⟩
  have levels := holds.levels (pinned_tlow.trans (still.trans quiet.1))
  have wave := pinned_wave (dir := s.params.auxDir ++ d) (val := s.params.auxVal ++ 0#2) still
  have orders := pinned_orders (dir := s.params.auxDir ++ d) (val := s.params.auxVal ++ 0#2) still
  rw [levels] at wave orders
  exact ⟨params, holds, ⟨wave, (settingChanges_last _ _ _).trans levels.symm⟩, orders⟩

/-! ## Patterns through Stage P -/

/-- Stage P executes one pattern from the front of what is queued (R129). -/
theorem runEngine_pat {n : Nat} {s : State} {d : BitVec 2} {l : List Instr} (ho : s.params.opcodes.Distinct)
    (quiet : TargetQuiet (n + 1) s) (hq : s.cmdq = encodeCommands s.params.opcodes (pat s.params d :: l)) :
    ∃ t, runEngine (n + 1) s = runEngine n t ∧ t.cmdq = encodeCommands t.params.opcodes l ∧ TargetQuiet n t ∧
      Sets d s t := by
  have executed := exec_pat s.params d { s with cmdq := encodeCommands s.params.opcodes l }
  rw [← pinned] at executed
  obtain ⟨run, htq, _⟩ := runEngine_command (n := n) ho rfl hq executed
  exact ⟨_, run, htq, quiet.pinned _ _ _, sets_pinned quiet d _⟩

/-- However often a pattern is repeated, the lines are set once (R131). -/
theorem runEngine_replicate_pat (k : Nat) {n : Nat} {s : State} {d : BitVec 2} {l : List Instr}
    (ho : s.params.opcodes.Distinct) (quiet : TargetQuiet (n + (k + 1)) s)
    (hq : s.cmdq = encodeCommands s.params.opcodes (List.replicate (k + 1) (pat s.params d) ++ l)) :
    ∃ t, runEngine (n + (k + 1)) s = runEngine n t ∧ t.cmdq = encodeCommands t.params.opcodes l ∧ TargetQuiet n t ∧
      Sets d s t := by
  induction k generalizing s with
  | zero => exact runEngine_pat ho quiet hq
  | succ k ih =>
    obtain ⟨t, run, htq, quiet, first⟩ := runEngine_pat ho quiet hq
    rw [← first.params] at ho htq
    obtain ⟨u, run', huq, quiet, rest⟩ := ih ho quiet htq
    exact ⟨u, run.trans run', huq, quiet, first.again rest⟩

theorem Path.changesSince {s t : State} {ch : List Levels} (h : Path s t ch) : t.changesSince s = ch := by
  rw [State.changesSince, h.wave, List.drop_left]

/-- The order the environment gives to the next change of both lines after one setting (R130, log 9). -/
theorem Sets.drawOrder {d : BitVec 2} {s t : State} (h : Sets d s t) : t.drawOrder =
    s.env.orders.nth Config.freeOrder (if bothChange s.levels (patternLevels d) then 1 else 0) := by
  rw [State.drawOrder, ← Stream.nth_zero, h.orders]
  split
  · exact Stream.nth_advance _ _ _
  · rfl

/-- Two settings one after the other, and the events of each. -/
theorem Sets.events {d e : BitVec 2} {s t u : State} (h : Sets d s t) (g : Sets e t u) :
    s.wave <+: u.wave ∧ eventsFrom s.levels (u.changesSince s) =
      eventsFrom s.levels (settingChanges s.drawOrder s.levels (patternLevels d)) ++
      eventsFrom (patternLevels d) (settingChanges
        (s.env.orders.nth Config.freeOrder (if bothChange s.levels (patternLevels d) then 1 else 0))
        (patternLevels d) (patternLevels e)) := by
  have path := h.path.trans g.path
  rw [h.drawOrder, h.levels] at path
  exact ⟨⟨_, path.wave.symm⟩, by rw [path.changesSince, eventsFrom_append, settingChanges_last]⟩

/-- Stage P executing what START or STOP emits: pattern `d` is set once and then pattern `e` (R150, R151). -/
theorem runEngine_patterns {s : State} {d e : BitVec 2} (hr : 1 ≤ s.params.repeatCount) (ho : s.params.opcodes.Distinct)
    (quiet : TargetQuiet (2 * s.params.repeatCount + 1) s)
    (hq : s.cmdq = encodeCommands s.params.opcodes (List.replicate s.params.repeatCount (pat s.params d) ++
      List.replicate s.params.repeatCount (pat s.params e) ++ [pat s.params e])) :
    ∃ t u, runEngine (2 * s.params.repeatCount + 1) s = .next u ∧ u.cmdq = [] ∧ Sets d s t ∧ Sets e t u := by
  obtain ⟨k, hk⟩ := Nat.exists_eq_add_of_le' hr
  have count : 2 * (k + 1) + 1 = 0 + (k + 1 + 1) + (k + 1) := by omega
  rw [hk, count] at quiet ⊢
  rw [hk, List.append_assoc, ← List.replicate_succ'] at hq
  obtain ⟨t, run, htq, quiet, first⟩ := runEngine_replicate_pat k ho quiet hq
  rw [← first.params] at ho htq
  rw [← List.append_nil (List.replicate _ _)] at htq
  obtain ⟨u, run', huq, _, second⟩ := runEngine_replicate_pat (k + 1) ho quiet htq
  exact ⟨t, u, run.trans run', huq, first, second⟩

/-! ## START and STOP on the lines -/

/-- Driving both lines low is a START condition iff both were high and SDA falls first (R152 (a)). -/
theorem events_bothLow (o : LineOrder) (a : Levels) : eventsFrom a (settingChanges o a (patternLevels 0b11#2)) =
    if (a.sda && a.scl) ∧ o = .sdaFirst then [.startCondition] else [] := by
  rcases a with ⟨_ | _, _ | _⟩ <;> cases o <;> decide

theorem bothChange_bothLow (a : Levels) : bothChange a (patternLevels 0b11#2) = (a.sda && a.scl) := by
  rcases a with ⟨_ | _, _ | _⟩ <;> rfl

/-- With SDA already low, driving SCL low is no event (R152). -/
theorem events_sclFalls (o : LineOrder) :
    eventsFrom (patternLevels 0b10#2) (settingChanges o (patternLevels 0b10#2) (patternLevels 0b11#2)) = [] := rfl

/-- Settles O55: the first pattern makes the events, for in the second one only SCL falls. -/
theorem startFromIdleBusMakesStartCondition : Obligations.StartFromIdleBusMakesStartCondition := by
  intro s ⟨hr, _, _, ho⟩ hf hq hw quiet
  obtain ⟨t, u, run, huq, first, second⟩ := runEngine_patterns (s := finishStart (sent (startCommands s.params) s))
    (d := 0b10#2) (e := 0b11#2) hr ho quiet (congrArg (· ++ _) hq)
  obtain ⟨wave, events⟩ := first.events second
  refine ⟨_, u, exec_start_written hf hw, run, huq, second.holds.pindir_one, second.holds.pindir_zero, second.levels,
    wave, events.trans ?_⟩
  rw [events_sclFalls, List.append_nil]
  change eventsFrom s.levels (settingChanges s.drawOrder s.levels (patternLevels 0b10#2)) = _
  generalize s.levels = a, s.drawOrder = o
  -- R152 (a) to (d): the four starting levels, each in both orders.
  rcases a with ⟨_ | _, _ | _⟩ <;> cases o <;> rfl

/-- Settles O56: the first pattern drives both lines low, and the second releases both. -/
theorem stopConditionNeedsSclToRiseFirst : Obligations.StopConditionNeedsSclToRiseFirst := by
  intro s ⟨hr, _, _, ho⟩ hf hq hw quiet idleBus falls rises
  obtain ⟨t, u, run, huq, first, second⟩ := runEngine_patterns (s := finishStop (sent (stopCommands s.params) s))
    (d := 0b11#2) (e := 0b00#2) hr ho quiet (congrArg (· ++ _) hq)
  obtain ⟨wave, events⟩ := first.events second
  refine ⟨_, u, exec_stop_written hf hw, run, huq, second.holds.pindir_one, second.holds.pindir_zero, second.levels,
    wave, events.trans ?_⟩
  rw [events_bothLow, bothChange_bothLow]
  refine congrArg₂ _ rfl (?_ : eventsFrom _ (settingChanges rises _ _) = _)
  clear_value rises
  cases rises <;> rfl

end Sys2Proof.Machine

/-! PROOFS. The family of 43_byte_transfer: SENDBYTE (R170, R171), READBYTE (R172) and SETADDR (R174): their reads, their
whole next states, what they emit, and their frame. -/

namespace Sys2Proof.Machine

/-! ## SETADDR -/

/-- The address byte is the address doubled, with the intent in bit 0 (R174). -/
theorem addressByte_toNat (a : BitVec 7) (r : Bool) : (addressByte a r).toNat = 2 * a.toNat + r.toNat := by
  have shifted : (a.setWidth 8 <<< 1).toNat = a.toNat <<< 1 := by
    rw [BitVec.toNat_shiftLeft, BitVec.toNat_setWidth_of_le (by omega), Nat.shiftLeft_eq]
    omega
  have intent : ((BitVec.ofBool r).setWidth 8).toNat = r.toNat := by cases r <;> rfl
  rw [addressByte, BitVec.toNat_or, shifted, intent, ← Nat.shiftLeft_add_eq_or_of_lt (by cases r <;> decide),
    Nat.shiftLeft_eq, Nat.mul_comm]

/-- Settles O32: SETADDR packs the address byte, and the fields of what it packs are those asked for. -/
theorem setAddrGivesTheAddressByte : Obligations.SetAddrGivesTheAddressByte := fun s a r =>
  ⟨packResult { data := addressByte a r } s.fatal s.bus.code, rfl, by rw [resultData_pack, addressByte_toNat],
    resultRaw1_pack _ _ _, resultRspn_pack _ _ _, resultNack_pack _ _ _, resultErr_pack _ _ _, resultFatalf_pack _ _ _,
    resultBusf_pack _ _ _, resultBit19_pack _ _ _, resultTop_pack _ _ _, decodeHost_encodeHost rfl⟩

/-! ## Reads -/

/-- A read that gives no byte changes nothing but the read inputs (R56). -/
theorem linkRead_empty {n k : Nat} {s : State} (hr : s.drawRead = .bytes k) (h : k = 0 ∨ s.rspa = []) :
    linkRead n s = (some [], s.takeRead) := by
  have taken : s.rspa.take (min k n) = [] := by rcases h with rfl | h <;> simp [*]
  have left : s.rspa.drop (min k n) = s.rspa := by rcases h with rfl | h <;> simp [*]
  rw [linkRead_bytes hr, taken, left]
  rfl

/-- An `IoError` ends SENDBYTE's reads (R170). -/
theorem readAttempts_ioError {n : Nat} {s t : State} (hx : engineRuns s = .next t) (hr : t.drawRead = .ioError) :
    readAttempts (n + 1) s = .next (none, t.takeRead) := by
  rw [readAttempts, hx, andThen_next, linkRead_ioError hr]

/-- A byte ends them, and is off the front of RSPA (R170). -/
theorem readAttempts_got {n k : Nat} {s t : State} {b : Byte} {rest : List Byte} (hx : engineRuns s = .next t)
    (hr : t.drawRead = .bytes (k + 1)) (hb : t.rspa = b :: rest) :
    readAttempts (n + 1) s = .next (some b, { t.takeRead with rspa := rest }) := by
  have taken : linkRead 1 t = (some [b], { t.takeRead with rspa := rest }) := by
    rw [linkRead_bytes hr, Nat.min_eq_right (by omega), hb]
    rfl
  rw [readAttempts, hx, andThen_next, taken]

/-- An empty read is followed by another while attempts remain (R170). -/
theorem readAttempts_empty {n k : Nat} {s t : State} (hx : engineRuns s = .next t) (hr : t.drawRead = .bytes k)
    (h : k = 0 ∨ t.rspa = []) : readAttempts (n + 1) s = readAttempts n t.takeRead := by
  rw [readAttempts, hx, andThen_next, linkRead_empty hr h]

/-- Settles O35: one attempt ends in one of three ways, by what its read gives. -/
theorem sendByteRetriesEmptyReadsOnly : Obligations.SendByteRetriesEmptyReadsOnly := fun _ =>
  ⟨rfl, fun _ _ hx => ⟨readAttempts_ioError hx, fun _ _ _ => readAttempts_got hx, fun _ => readAttempts_empty hx⟩⟩

/-! ## The two writes -/

/-- SENDBYTE's bytes before its read (R170). -/
theorem encodeCommands_send (p : Params) (v : Byte) : encodeCommands p.opcodes (sendCommands v) = sendBytes p v := rfl

/-- READBYTE's bytes before its read (R172). -/
theorem encodeCommands_read (p : Params) : encodeCommands p.opcodes (readCommands p) = readBytes p := rfl

theorem encodeCommands_pat (p : Params) (d : BitVec 2) : encodeCommands p.opcodes [pat p d] = patBytes p d := rfl

/-- What a failed Emit leaves when the operation would have gone on: the same as a failed last one (R55, R227). -/
theorem emitOr_failed {s : State} (cmds : List Instr) (k : State → Step) {n : Nat} (h : s.drawWrite = .fail n) :
    emitOr cmds k s = .next { s.takeWrite with
      cmdq := s.cmdq ++ cutWrite (encodeCommands s.params.opcodes cmds) n,
      cmdOut := s.cmdOut ++ cutWrite (encodeCommands s.params.opcodes cmds) n,
      fatal := true, result := fatalResult s.bus } := by
  rw [emitOr_fail cmds k h, raiseFatal_eq]
  rfl

/-- SENDBYTE's last write fails: whatever was read is replaced by the fatal error (R170, R228). -/
theorem sendTail_failed {s : State} (got : Option Byte) {k : Nat} (hw : s.drawWrite = .fail k) :
    sendTail got s = { s.takeWrite with
      cmdq := s.cmdq ++ cutWrite (patBytes s.params 0b01#2) k,
      cmdOut := s.cmdOut ++ cutWrite (patBytes s.params 0b01#2) k,
      fatal := true, result := fatalResult s.bus } := by
  rw [sendTail, emitThen_failed _ _ hw, encodeCommands_pat]

/-- SENDBYTE's last write succeeds: BUS moves on, and RESULT says what the reads gave (R170, R171). -/
theorem sendTail_written {s : State} (got : Option Byte) (hf : s.fatal = false) (hw : s.drawWrite = .ok) :
    sendTail got s = { s.takeWrite with
      cmdq := s.cmdq ++ patBytes s.params 0b01#2, cmdOut := s.cmdOut ++ patBytes s.params 0b01#2,
      bus := busAfterSend s.bus, result := packResult (sendFields got) false (busAfterSend s.bus).code } := by
  rw [sendTail, emitThen_ok _ _ hw, encodeCommands_pat, ← hf]
  rfl

/-- READBYTE with both bytes read and a status that reports no error goes on to its ACK or NACK command (R172, R173). -/
theorem readTail_whole {s : State} (last : Bool) (d : Byte) {st : Byte} (h : st &&& s.params.statusErrMask = 0) :
    readTail last (some [d, st]) s = emitThen [ackPattern s.params last] (finishRead d st) s := by
  have passes : shiftFailed s.params st = false := bne_eq_false_iff_eq.mpr h
  rw [readTail, passes, if_neg Bool.false_ne_true]

theorem readTail_failed {s : State} (last : Bool) (d : Byte) {st : Byte} {k : Nat}
    (h : st &&& s.params.statusErrMask = 0) (hw : s.drawWrite = .fail k) :
    readTail last (some [d, st]) s = { s.takeWrite with
      cmdq := s.cmdq ++ cutWrite (patBytes s.params (if last then 0b01#2 else 0b11#2)) k,
      cmdOut := s.cmdOut ++ cutWrite (patBytes s.params (if last then 0b01#2 else 0b11#2)) k,
      fatal := true, result := fatalResult s.bus } := by
  rw [readTail_whole last d h, emitThen_failed _ _ hw, encodeCommands_ackPattern]

/-- Two bytes or more readable, and two or more drawn: READBYTE's read takes the first two (R56, R172). -/
theorem linkRead_two {m : Nat} {s : State} {d st : Byte} {rest : List Byte} (hr : s.drawRead = .bytes (m + 2))
    (hb : s.rspa = d :: st :: rest) : linkRead 2 s = (some [d, st], { s.takeRead with rspa := rest }) := by
  rw [linkRead_bytes hr, Nat.min_eq_right (by omega), hb]
  rfl

section
variable {s u : State} {last : Bool} (hf : s.fatal = false) (hc : s.clkcfg = true)
include hf hc

theorem exec_sendByte_failed (hb : sendBus s.bus = true) (v : Byte) {k : Nat} (hw : s.drawWrite = .fail k) :
    exec (.sendByte v) s = .next { s.takeWrite with
      cmdq := s.cmdq ++ cutWrite (sendBytes s.params v) k, cmdOut := s.cmdOut ++ cutWrite (sendBytes s.params v) k,
      fatal := true, result := fatalResult s.bus } := by
  rw [exec, execSendByte, admission_eq_none.mpr ⟨hf, fun _ => hc, hb⟩, unlessRefused_none, emitOr_failed _ _ hw,
    encodeCommands_send]

theorem exec_readByte_failed (hb : readBus s.bus = true) (last : Bool) {k : Nat} (hw : s.drawWrite = .fail k) :
    exec (.readByte last) s = .next { s.takeWrite with
      cmdq := s.cmdq ++ cutWrite (readBytes s.params) k, cmdOut := s.cmdOut ++ cutWrite (readBytes s.params) k,
      fatal := true, result := fatalResult s.bus } := by
  rw [exec, execReadByte, admission_eq_none.mpr ⟨hf, fun _ => hc, hb⟩, unlessRefused_none, emitOr_failed _ _ hw,
    encodeCommands_read]

/-- SENDBYTE once its first write is good and its reads are done (R170). -/
theorem exec_sendByte_read (hb : sendBus s.bus = true) (hw : s.drawWrite = .ok) {v : Byte} {got : Option Byte}
    (hr : readAttempts s.params.rdAttempts (sent (sendCommands v) s) = .next (got, u)) :
    exec (.sendByte v) s = .next (sendTail got u) := by
  rw [exec, execSendByte_of_admitted hf hc hb hw, hr, andThen_next]

/-- READBYTE once its first write is good and Stage P has run (R172). -/
theorem exec_readByte_read (hb : readBus s.bus = true) (hw : s.drawWrite = .ok)
    (hx : engineRuns (sent (readCommands s.params) s) = .next u) {got : Option (List Byte)} {w : State}
    (hl : linkRead 2 u = (got, w)) : exec (.readByte last) s = .next (readTail last got w) := by
  rw [exec, execReadByte_of_admitted hf hc hb hw, hx, andThen_next, hl]

end

/-- Settles O36: each of the two writes of each operation may fail, and its fatal error is the operation's end. -/
theorem byteOperationsFailFatallyOnWrites : Obligations.ByteOperationsFailFatallyOnWrites := by
  refine fun s hf hc => ⟨fun v k hb => exec_sendByte_failed hf hc hb v, fun l k hb => exec_readByte_failed hf hc hb l,
    fun v k u got hb hw hr hw' => ?send, fun l k u m d st rest hb hw hx hr hrspa hst hw' => ?read⟩
  case send =>
    obtain ⟨same, _, _⟩ := readAttempts_next hr
    rw [exec_sendByte_read hf hc hb hw hr, sendTail_failed got hw', same.params, same.bus]
    rfl
  case read =>
    obtain ⟨same, _, _⟩ := engineRuns_next hx
    have params : u.params = s.params := same.params
    have bus : u.bus = s.bus := same.bus
    rw [exec_readByte_read hf hc hb hw hx (linkRead_two hr hrspa),
      readTail_failed (s := { u.takeRead with rspa := rest }) l d (params ▸ hst) hw', ← params, ← bus]
    rfl

/-- Settles O34: with both writes good, RESULT is packed from what the reads gave, and BUS moves on. -/
theorem sendByteDecodesItsResponse : Obligations.SendByteDecodesItsResponse := by
  intro s u v got hf hc hb hw hr hw'
  obtain ⟨same, _, _⟩ := readAttempts_next hr
  have fatal : u.fatal = false := same.fatal.trans hf
  have params : u.params = s.params := same.params
  have bus : busAfterSend u.bus = if s.bus = .started then .addressPhase else .dataPhase :=
    (congrArg _ same.bus).trans (busAfterSend_eq s.bus)
  refine ⟨packResult (sendFields got) false (busAfterSend u.bus).code, ?next, ?raw1, resultFatalf_pack _ _ _,
    resultBit19_pack _ _ _, resultTop_pack _ _ _, ?busf, ?byte, ?none⟩
  case next => rw [exec_sendByte_read hf hc hb hw hr, sendTail_written got fatal hw', params, bus]
  case raw1 => rw [resultRaw1_pack]; cases got <;> rfl
  case busf => rw [resultBusf_pack, bus]; split <;> rfl
  case byte =>
    rintro b rfl
    rw [resultData_pack, resultRspn_pack, resultNack_pack, resultErr_pack]
    exact ⟨rfl, rfl, rfl, rfl⟩
  case none =>
    rintro rfl
    rw [resultData_pack, resultRspn_pack, resultNack_pack, resultErr_pack]
    exact ⟨rfl, rfl, rfl, rfl⟩

/-! ## READBYTE's next states -/

/-- DATA and RAW1 are the low half of RESULT, so they may be put in afterwards (R25, R79). -/
theorem packResult_bytes (f : ResultFields) (b : Bool) (c : BitVec 3) :
    packResult f b c =
      packResult { f with data := 0, raw1 := 0 } b c ||| f.raw1.setWidth 32 <<< 8 ||| f.data.setWidth 32 := by
  apply BitVec.eq_of_getLsbD_eq
  intro i hi
  simp only [packResult, BitVec.getLsbD_append, BitVec.getLsbD_or, BitVec.getLsbD_shiftLeft, BitVec.getLsbD_setWidth]
  by_cases data : i < 8
  · simp [data, hi]
  · by_cases raw1 : i - 8 < 8
    · have within : i - 8 < 32 := by omega
      simp [data, raw1, hi, within, BitVec.getLsbD_of_ge f.data i (by omega)]
    · simp [data, raw1, BitVec.getLsbD_of_ge f.data i (by omega), BitVec.getLsbD_of_ge f.raw1 (i - 8) (by omega)]

/-- RESULT of READBYTE with one byte read (R172). -/
theorem packResult_oneByte (d : Byte) :
    packResult { data := d, rspn := 1, err := ErrorKind.readIncomplete.code } false 3 =
      0x06510000#32 ||| d.setWidth 32 := by
  have rest : packResult { rspn := 1, err := ErrorKind.readIncomplete.code } false 3 ||| (0#8).setWidth 32 <<< 8 =
    0x06510000#32 := by decide
  rw [← rest]
  exact packResult_bytes _ _ _

/-- A recoverable error of READBYTE writes BUS and RESULT and nothing else (R172). -/
theorem readFails_eq {s : State} (hf : s.fatal = false) (e : ErrorKind) (f : ResultFields) :
    readFails e f s = { s with bus := .dataPhase, result := packResult { f with err := e.code } false 3 } := by
  rw [← hf]
  rfl

/-- READBYTE's state writes after its last Emit are BUS and RESULT (R172). -/
theorem finishRead_eq {s : State} (hf : s.fatal = false) (d st : Byte) : finishRead d st s = { s with
    bus := .dataPhase, result := 0x06020000#32 ||| st.setWidth 32 <<< 8 ||| d.setWidth 32 } := by
  have rest : packResult { rspn := 2 } false BusState.dataPhase.code = 0x06020000#32 := by decide
  rw [finishRead, writeResult, hf, packResult_bytes, rest]

section
variable {s : State} (hf : s.fatal = false) (last : Bool)
include hf

theorem readTail_ioError : readTail last none s = { s with bus := .dataPhase, result := 0x06200000#32 } := by
  have word : packResult { err := ErrorKind.adapterIoFailed.code } false 3 = 0x06200000#32 := by decide
  rw [← word]
  exact readFails_eq hf _ _

theorem readTail_noByte : readTail last (some []) s = { s with bus := .dataPhase, result := 0x06500000#32 } := by
  have word : packResult { err := ErrorKind.readIncomplete.code } false 3 = 0x06500000#32 := by decide
  rw [← word]
  exact readFails_eq hf _ _

theorem readTail_oneByte (d : Byte) :
    readTail last (some [d]) s = { s with bus := .dataPhase, result := 0x06510000#32 ||| d.setWidth 32 } := by
  rw [← packResult_oneByte]
  exact readFails_eq hf _ _

/-- Two bytes whose status reports an error: the shift did not complete (R90, R172). -/
theorem readTail_shiftFailed (d : Byte) {st : Byte} (h : st &&& s.params.statusErrMask ≠ 0) :
    readTail last (some [d, st]) s = { s with
      bus := .dataPhase, result := 0x06520000#32 ||| st.setWidth 32 <<< 8 ||| d.setWidth 32 } := by
  have fails : shiftFailed s.params st = true := bne_iff_ne.mpr h
  have rest : packResult { rspn := 2, err := ErrorKind.readIncomplete.code } false 3 = 0x06520000#32 := by decide
  rw [readTail, fails, if_pos rfl, readFails_eq hf, packResult_bytes, rest]

/-- Two bytes whose status reports none, and the ACK or NACK command written (R172, R173). -/
theorem readTail_written (d : Byte) {st : Byte} (h : st &&& s.params.statusErrMask = 0) (hw : s.drawWrite = .ok) :
    readTail last (some [d, st]) s = { s.takeWrite with
      bus := .dataPhase,
      cmdq := s.cmdq ++ patBytes s.params (if last then 0b01#2 else 0b11#2),
      cmdOut := s.cmdOut ++ patBytes s.params (if last then 0b01#2 else 0b11#2),
      result := 0x06020000#32 ||| st.setWidth 32 <<< 8 ||| d.setWidth 32 } := by
  rw [readTail_whole last d h, emitThen_ok _ _ hw, encodeCommands_ackPattern]
  exact finishRead_eq (s := s.takeWrite.queue _) hf d st

end

/-- One byte readable, or one drawn: READBYTE's read takes one (R56, R172). -/
theorem linkRead_one {k : Nat} {s : State} {d : Byte} {rest : List Byte} (hr : s.drawRead = .bytes k)
    (hb : s.rspa = d :: rest) (h : k = 1 ∨ 1 ≤ k ∧ rest = []) :
    linkRead 2 s = (some [d], { s.takeRead with rspa := rest }) := by
  rw [linkRead_bytes hr, hb]
  rcases h with rfl | ⟨hk, rfl⟩
  · rfl
  · obtain ⟨m, hm⟩ := Nat.exists_eq_add_of_le' (Nat.le_min.mpr ⟨hk, one_le_two⟩)
    rw [hm, List.take_succ_cons, List.take_nil, List.drop_succ_cons, List.drop_nil]

/-- Settles O37: what READBYTE's read takes, and then its end for what was taken. -/
theorem readByteReturnsByteOrError : Obligations.ReadByteReturnsByteOrError := by
  intro s u last hf hc hb hw hx
  obtain ⟨same, _, _⟩ := engineRuns_next hx
  have fatal : u.fatal = false := same.fatal.trans hf
  have params : u.params = s.params := same.params
  have bus : u.bus = s.bus := same.bus
  have read {got : Option (List Byte)} {w : State} (hl : linkRead 2 u = (got, w)) :
      exec (.readByte last) s = .next (readTail last got w) := exec_readByte_read hf hc hb hw hx hl
  refine ⟨fun hr => ?ioError, fun k hr hk => ?noByte, fun k d rest hr hrspa hk => ?oneByte,
    fun k d st rest hr hrspa => ⟨fun hst => ?shiftFailed, fun hst => ⟨fun hw' => ?written, fun j hw' => ?failed⟩⟩⟩
  case ioError => exact (read (linkRead_ioError hr)).trans (congrArg _ (readTail_ioError (s := u.takeRead) fatal last))
  case noByte => exact (read (linkRead_empty hr hk)).trans (congrArg _ (readTail_noByte (s := u.takeRead) fatal last))
  case oneByte =>
    refine (read (linkRead_one hr hrspa hk)).trans (congrArg _ ?_)
    exact readTail_oneByte (s := { u.takeRead with rspa := rest }) fatal last d
  all_goals
    refine (read (linkRead_two hr hrspa)).trans (congrArg _ ?_)
    rw [← params] at hst
  case shiftFailed => exact readTail_shiftFailed (s := { u.takeRead with rspa := rest }) fatal last d hst
  case written =>
    rw [← params]
    exact readTail_written (s := { u.takeRead with rspa := rest }) fatal last d hst hw'
  case failed =>
    rw [← params, ← bus]
    exact readTail_failed (s := { u.takeRead with rspa := rest }) last d hst hw'

/-! ## What the byte operations emit -/

theorem execSendByte_emits {v : Byte} {s t : State} (h : execSendByte v s = .next t) (ht : t.fatal = false) :
    t.cmdOut = s.cmdOut ++ sendBytes s.params v ++ patBytes s.params 0b01#2 := by
  obtain ⟨_, ⟨n, _, rfl⟩ | ⟨_, got, u, hu, he⟩⟩ := execSendByte_next h
  · cases ht
  · obtain ⟨same, _, _⟩ := readAttempts_next hu
    have params : u.params = s.params := same.params
    have cmdOut : u.cmdOut = s.cmdOut ++ sendBytes s.params v := same.cmdOut
    rw [he.done ht, ← cmdOut, ← params]
    rfl

/-- Without the fatal error, READBYTE's error code tells whether its ACK or NACK command was written (R172). -/
theorem execReadByte_emits {last : Bool} {s t : State} (h : execReadByte last s = .next t) (ht : t.fatal = false) :
    (resultErr t.result = 0 ∧
      t.cmdOut = s.cmdOut ++ readBytes s.params ++ patBytes s.params (if last then 0b01#2 else 0b11#2)) ∨
    (resultErr t.result ≠ 0 ∧ t.cmdOut = s.cmdOut ++ readBytes s.params) := by
  obtain ⟨_, ⟨n, _, rfl⟩ | ⟨_, u, hu, hend⟩⟩ := execReadByte_next h
  · cases ht
  · have same := (engineRuns_next hu).1.trans (linkRead_same 2 u).1
    have params : (linkRead 2 u).2.params = s.params := same.params
    have cmdOut : (linkRead 2 u).2.cmdOut = s.cmdOut ++ readBytes s.params := same.cmdOut
    rcases hend with ⟨e, f, rfl, he⟩ | ⟨d, st, he⟩
    · refine .inr ⟨?_, cmdOut⟩
      have code : e.code ≠ 0 := by rcases he with rfl | rfl <;> decide
      rwa [readFails, raiseError_result, resultErr_pack]
    · refine .inl ⟨?_, ?_⟩
      · rw [he.done ht, finishRead, writeResult_result, resultErr_pack]
      · rw [he.done ht, ← cmdOut, ← params, ← encodeCommands_ackPattern]
        rfl

/-- Settles O39: SENDBYTE emits both its lists of commands, and READBYTE its second only when its error code is 0. -/
theorem byteOperationsEmitLiteralBytes : Obligations.ByteOperationsEmitLiteralBytes := by
  refine fun s t => ⟨fun v h ht => execSendByte_emits h ht, fun l h ht herr => ?noError, fun l h ht herr => ?error⟩
  case noError =>
    obtain ⟨_, emitted⟩ | ⟨hne, _⟩ := execReadByte_emits h ht
    · exact emitted
    · exact absurd herr hne
  case error =>
    obtain ⟨hz, _⟩ | ⟨_, emitted⟩ := execReadByte_emits h ht
    · exact absurd hz herr
    · exact emitted

/-! ## The frame -/

/-- No host operation takes a host word or a turn (R9). -/
theorem hostOperation_keeps_inputs {i : Instr} {s t : State} (hi : i.isHost = true) (h : exec i s = .next t) :
    t.env.words = s.env.words ∧ t.env.turns = s.env.turns :=
  hostOperation_keeps (P := fun x => x.env.words = s.env.words ∧ x.env.turns = s.env.turns) (fun _ _ p => p)
    (fun _ _ hx ⟨words, turns⟩ => ⟨(engineRuns_next hx).1.words.trans words, (engineRuns_next hx).1.turns.trans turns⟩)
    (fun n x ⟨words, turns⟩ => ⟨(linkRead_same n x).1.words.trans words, (linkRead_same n x).1.turns.trans turns⟩)
    (fun _ _ _ _ _ p => p) hi h ⟨rfl, rfl⟩

/-- `t` agrees with `s` on Stage P's registers, its responses and the lines; CMDQ may have grown at its end, and RSPA may
have lost bytes at its front (R2, R60). -/
structure StagePStill (s t : State) : Prop where
  pindir : t.pindir = s.pindir
  pinval : t.pinval = s.pinval
  div    : t.div = s.div
  div5   : t.div5 = s.div5
  adapt  : t.adapt = s.adapt
  ph3    : t.ph3 = s.ph3
  rxsh   : t.rxsh = s.rxsh
  rspq   : t.rspq = s.rspq
  tlow   : t.tlow = s.tlow
  wave   : t.wave = s.wave
  cmdq   : s.cmdq <+: t.cmdq
  rspa   : t.rspa <:+ s.rspa

theorem StagePStill.refl (s : State) : StagePStill s s :=
  ⟨rfl, rfl, rfl, rfl, rfl, rfl, rfl, rfl, rfl, rfl, List.prefix_refl _, List.suffix_refl _⟩

theorem StagePStill.trans {s t u : State} (h : StagePStill s t) (g : StagePStill t u) : StagePStill s u :=
  ⟨g.pindir.trans h.pindir, g.pinval.trans h.pinval, g.div.trans h.div, g.div5.trans h.div5, g.adapt.trans h.adapt,
    g.ph3.trans h.ph3, g.rxsh.trans h.rxsh, g.rspq.trans h.rspq, g.tlow.trans h.tlow, g.wave.trans h.wave,
    h.cmdq.trans g.cmdq, g.rspa.trans h.rspa⟩

/-- Stage S's own writes leave Stage P alone. -/
theorem StagePStill.stageS {s t : State} (h : StagePStill s t) (b : BusState) (f : Bool) (r : Word) :
    StagePStill s { t with bus := b, fatal := f, result := r } :=
  ⟨h.pindir, h.pinval, h.div, h.div5, h.adapt, h.ph3, h.rxsh, h.rspq, h.tlow, h.wave, h.cmdq, h.rspa⟩

theorem StagePStill.queue (bytes : List Byte) (s : State) : StagePStill s (s.takeWrite.queue bytes) :=
  ⟨rfl, rfl, rfl, rfl, rfl, rfl, rfl, rfl, rfl, rfl, List.prefix_append _ _, List.suffix_refl _⟩

theorem StagePStill.linkRead (n : Nat) (s : State) : StagePStill s (linkRead n s).2 := by
  rcases linkRead_cases n s with ⟨_, h⟩ | ⟨k, _, h⟩ <;> rw [h]
  · exact ⟨rfl, rfl, rfl, rfl, rfl, rfl, rfl, rfl, rfl, rfl, List.prefix_refl _, List.suffix_refl _⟩
  · exact ⟨rfl, rfl, rfl, rfl, rfl, rfl, rfl, rfl, rfl, rfl, List.prefix_refl _, List.drop_suffix _ _⟩

/-- A pace of 0: Stage P does not run before the read (log 6). -/
theorem engineRuns_zero {s : State} (h : s.env.paces.nth Config.freePace 0 = 0) : engineRuns s = .next s.takePace := by
  have pace : s.drawPace = 0 := (Stream.nth_zero _ _).symm.trans h
  rw [engineRuns, pace, runEngine]

theorem StagePStill.engineRuns {s t : State} (h : s.env.paces.nth Config.freePace 0 = 0) (hx : engineRuns s = .next t) :
    StagePStill s t := by
  rw [engineRuns_zero h] at hx
  cases hx
  exact ⟨rfl, rfl, rfl, rfl, rfl, rfl, rfl, rfl, rfl, rfl, List.prefix_refl _, List.suffix_refl _⟩

theorem linkRead_paces (n : Nat) (s : State) : (linkRead n s).2.env.paces = s.env.paces := by
  obtain ⟨l, h⟩ := linkRead_state n s
  rw [h]
  rfl

theorem StagePStill.readAttempts {n : Nat} {s u : State} {got : Option Byte}
    (hp : ∀ k, k < n → s.env.paces.nth Config.freePace k = 0) (h : readAttempts n s = .next (got, u)) :
    StagePStill s u := by
  induction n generalizing s with
  | zero => cases h; exact .refl _
  | succ n ih =>
    have runs := engineRuns_zero (hp 0 n.succ_pos)
    have still : StagePStill s (Machine.linkRead 1 s.takePace).2 :=
      (StagePStill.engineRuns (hp 0 n.succ_pos) runs).trans (.linkRead 1 _)
    have later : ∀ k, k < n → (Machine.linkRead 1 s.takePace).2.env.paces.nth Config.freePace k = 0 := fun k hk => by
      rw [linkRead_paces, takePace_env_paces, Stream.nth_advance]
      exact hp (k + 1) (Nat.succ_lt_succ hk)
    rw [Machine.readAttempts, runs, andThen_next] at h
    split at h
    · rename_i v hv
      cases h
      rwa [hv] at still
    · rename_i v hv
      cases h
      rwa [hv] at still
    · rename_i v hv
      rw [hv] at still later
      exact still.trans (ih later h)

/-- An operation's last Emit only adds to CMDQ, when the operation's state writes are Stage S's own. -/
theorem StagePStill.ends {cmds : List Instr} {k : State → State} {s t : State} (h : Ends cmds k s t)
    (hk : ∀ x, StagePStill x (k x)) : StagePStill s t := by
  rcases h with ⟨_, rfl⟩ | ⟨n, _, rfl⟩
  · exact (StagePStill.queue _ s).trans (hk _)
  · exact (StagePStill.queue _ s).stageS _ _ _

theorem execSendByte_still {v : Byte} {s t : State} (h : execSendByte v s = .next t)
    (hp : ∀ k, k < s.params.rdAttempts → s.env.paces.nth Config.freePace k = 0) : StagePStill s t := by
  obtain ⟨_, ⟨n, _, rfl⟩ | ⟨_, got, u, hu, he⟩⟩ := execSendByte_next h
  · exact (StagePStill.queue _ s).stageS _ _ _
  · have read : StagePStill (sent (sendCommands v) s) u := .readAttempts hp hu
    exact ((StagePStill.queue _ s).trans read).trans (.ends he fun x => (StagePStill.refl x).stageS _ _ _)

theorem execReadByte_still {last : Bool} {s t : State} (h : execReadByte last s = .next t)
    (hp : s.env.paces.nth Config.freePace 0 = 0) : StagePStill s t := by
  obtain ⟨_, ⟨n, _, rfl⟩ | ⟨_, u, hu, hend⟩⟩ := execReadByte_next h
  · exact (StagePStill.queue _ s).stageS _ _ _
  · have ran : StagePStill (sent (readCommands s.params) s) u := .engineRuns hp hu
    have read : StagePStill s (linkRead 2 u).2 := ((StagePStill.queue _ s).trans ran).trans (.linkRead 2 u)
    rcases hend with ⟨e, f, rfl, _⟩ | ⟨d, st, he⟩
    · exact read.stageS _ _ _
    · exact read.trans (.ends he fun x => (StagePStill.refl x).stageS _ x.fatal _)

/-- Settles O40: the first part is what a host operation keeps whatever Stage P does; the second is `StagePStill`. -/
theorem byteOperationsFrame : Obligations.ByteOperationsFrame := by
  intro s t i hi h
  have host : i.isHost = true := by rcases hi with ⟨v, rfl⟩ | ⟨l, rfl⟩ <;> rfl
  have clkcfg : t.clkcfg = s.clkcfg := by
    rcases hostOperation_clkcfg host h with hsame | ⟨_, d, rfl⟩
    · exact hsame
    · rcases hi with ⟨v, hi⟩ | ⟨l, hi⟩ <;> cases hi
  obtain ⟨params, _, cmdOut⟩ := Inside.of_hostOperation host h
  obtain ⟨words, turns⟩ := hostOperation_keeps_inputs host h
  refine ⟨⟨clkcfg, params, words, turns, cmdOut⟩, fun hp => ?_⟩
  have still : StagePStill s t := by
    rcases hi with ⟨v, rfl⟩ | ⟨l, rfl⟩
    · exact execSendByte_still h fun k hk => hp k (Nat.le_of_lt hk)
    · exact execReadByte_still h (hp 0 (Nat.zero_le _))
  exact ⟨still.pindir, still.pinval, still.div, still.div5, still.adapt, still.ph3, still.rxsh, still.rspq, still.tlow,
    still.wave, still.cmdq, still.rspa⟩

end Sys2Proof.Machine

/-! PROOFS. The family of 44_transactions: what one issued operation does to a composite (R203), what the payload loop
and the read loop issue and answer (R200, R201), and where the composites end. -/

namespace Sys2Proof.Machine

/-! ## One issued operation -/

section
variable {i : Instr} {acc res : TransactionResult} {s t : State} {k : State → CompositeOutcome}

/-- A composite goes on after an operation that completes without a fatal error, and ends there after one that meets it
(R203). -/
theorem issue_eq_next : issue (exec i) acc s k = .next (res, t) ↔
    (∃ u, Issues i s u ∧ k u = .next (res, t)) ∨
    (exec i s = .next t ∧ t.fatal = true ∧ res = { acc with status := some .adapterIoFailed }) := by
  rw [issue, andThen_eq_next]
  constructor
  · rintro ⟨u, hu, hk⟩
    cases hf : u.fatal <;> simp only [unlessFatal, hf, if_true, Bool.false_eq_true, if_false] at hk
    · exact .inl ⟨u, ⟨hu, hf⟩, hk⟩
    · cases hk
      exact .inr ⟨hu, hf, rfl⟩
  · rintro (⟨u, ⟨hu, hf⟩, hk⟩ | ⟨ht, hf, rfl⟩)
    · exact ⟨u, hu, by simpa [unlessFatal, hf] using hk⟩
    · exact ⟨t, ht, by simp [unlessFatal, hf]⟩

/-- Without a fatal error at its end, a composite has gone on after each operation it issued. -/
theorem issue_eq_next_of_not_fatal (ht : t.fatal = false) :
    issue (exec i) acc s k = .next (res, t) ↔ ∃ u, Issues i s u ∧ k u = .next (res, t) := by
  simp [issue_eq_next, ht]

end

/-- The result of a composite that ends with the fatal error has the status AdapterIoFailed. -/
def FatalIsIoFailed (x : CompositeOutcome) : Prop :=
  ∀ res t, x = .next (res, t) → t.fatal = true → res.status = some .adapterIoFailed

theorem fatalIsIoFailed_issue {i : Instr} {acc : TransactionResult} {s : State} {k : State → CompositeOutcome}
    (h : ∀ u, u.fatal = false → FatalIsIoFailed (k u)) : FatalIsIoFailed (issue (exec i) acc s k) := by
  intro res t hx ht
  obtain ⟨u, ⟨_, hu⟩, hk⟩ | ⟨_, _, rfl⟩ := issue_eq_next.mp hx
  · exact h u hu res t hk ht
  · rfl

/-! ## The composites in terms of `exec` -/

theorem closeWithStop_eq (acc : TransactionResult) (s : State) :
    closeWithStop acc s = issue (exec .stop) acc s fun t => .next (acc, t) := rfl

theorem sendPayload_cons (b : Byte) (rest : List Byte) (j : Nat) (acc : TransactionResult) (s : State) :
    sendPayload (b :: rest) j acc s = issue (exec (.sendByte b)) acc s fun t =>
      sendPayload rest (j + 1) (recordAck (.byte j) .dataNack (ackOf t) acc) t := rfl

/-- The result of a write after its address byte (R200). -/
def afterAddress (k : AckResult) : TransactionResult :=
  { recordAck .address .addressNack k {} with status := if k = .nack then some .addressNack else none }

theorem writeTransaction_eq (a : BitVec 7) (payload : List Byte) (s : State) :
    writeTransaction a payload s = issue (exec .start) {} s fun t =>
      issue (exec (.sendByte (addressByte a false))) {} t fun u =>
        if ackOf u = .nack ∧ u.params.abortOnAddrNack = true then closeWithStop (afterAddress (ackOf u)) u
        else sendPayload payload 0 (afterAddress (ackOf u)) u := rfl

theorem readLoop_succ (a : BitVec 7) (left i : Nat) (acc : TransactionResult) (s : State) :
    readLoop a (left + 1) i acc s = issue (exec .start) acc s fun t =>
      issue (exec (.sendByte (addressByte a true))) acc t fun u =>
        if ackOf u = .ack then
          issue (exec (.readByte (left == 0))) (recordAck (.byte i) .addressNack (ackOf u) acc) u fun v =>
            readLoop a left (i + 1) (recordRead i v (recordAck (.byte i) .addressNack (ackOf u) acc)) v
        else readLoop a left (i + 1) (recordAck (.byte i) .addressNack (ackOf u) acc) u := rfl

/-! ## After a fatal error -/

theorem fatalIsIoFailed_closeWithStop (acc : TransactionResult) (s : State) :
    FatalIsIoFailed (closeWithStop acc s) := by
  refine fatalIsIoFailed_issue (i := .stop) fun u hu res t hx ht => ?_
  cases hx
  exact absurd ht (by simp [hu])

theorem fatalIsIoFailed_sendPayload (payload : List Byte) (j : Nat) (acc : TransactionResult) (s : State) :
    FatalIsIoFailed (sendPayload payload j acc s) := by
  induction payload generalizing j acc s with
  | nil => exact fatalIsIoFailed_closeWithStop acc s
  | cons b rest ih => exact fatalIsIoFailed_issue (i := .sendByte b) fun u _ => ih _ _ u

theorem fatalIsIoFailed_writeTransaction (a : BitVec 7) (payload : List Byte) (s : State) :
    FatalIsIoFailed (writeTransaction a payload s) := by
  rw [writeTransaction_eq]
  refine fatalIsIoFailed_issue fun t _ => fatalIsIoFailed_issue fun u _ => ?_
  split
  · exact fatalIsIoFailed_closeWithStop _ u
  · exact fatalIsIoFailed_sendPayload payload 0 _ u

theorem fatalIsIoFailed_readLoop (a : BitVec 7) (left i : Nat) (acc : TransactionResult) (s : State) :
    FatalIsIoFailed (readLoop a left i acc s) := by
  induction left generalizing i acc s with
  | zero => exact fatalIsIoFailed_closeWithStop _ s
  | succ left ih =>
    rw [readLoop_succ]
    refine fatalIsIoFailed_issue fun t _ => fatalIsIoFailed_issue fun u _ => ?_
    split
    · exact fatalIsIoFailed_issue fun v _ => ih _ _ v
    · exact ih _ _ u

/-! ## What the loops record -/

/-- `acc` with the later flags, bytes and errors of `r` after its own; the status is `acc`'s. -/
def TransactionResult.append (acc r : TransactionResult) : TransactionResult :=
  { acc with acks := acc.acks ++ r.acks, bytes := acc.bytes ++ r.bytes, errs := acc.errs ++ r.errs }

@[simp] theorem TransactionResult.append_empty (acc : TransactionResult) : acc.append {} = acc := by
  simp [TransactionResult.append]

theorem append_recordAck_ack (x : TransferIndex) (e : ErrorKind) (acc later : TransactionResult) :
    (recordAck x e .ack acc).append later = acc.append { later with acks := .ack :: later.acks } := by
  simp [TransactionResult.append, recordAck]

theorem append_recordAck_nack (x : TransferIndex) (e : ErrorKind) (acc later : TransactionResult) :
    (recordAck x e .nack acc).append later =
      acc.append { later with acks := .nack :: later.acks, errs := (x, e) :: later.errs } := by
  simp [TransactionResult.append, recordAck]

theorem append_recordRead_ack (x : TransferIndex) (e : ErrorKind) (i : Nat) (s : State)
    (acc later : TransactionResult) :
    (recordRead i s (recordAck x e .ack acc)).append later =
      acc.append (withRead i s { later with acks := .ack :: later.acks }) := by
  unfold recordRead withRead
  cases errorKindOf (resultErr s.result) <;> simp [TransactionResult.append, recordAck]

/-- What the payload loop adds to a result (R200). -/
def payloadResult (j : Nat) (acks : List AckResult) : TransactionResult := { acks := acks, errs := dataNacks j acks }

theorem append_payloadResult_cons (j : Nat) (k : AckResult) (acks : List AckResult) (acc : TransactionResult) :
    (recordAck (.byte j) .dataNack k acc).append (payloadResult (j + 1) acks) =
      acc.append (payloadResult j (k :: acks)) := by
  cases k with
  | ack => exact append_recordAck_ack _ _ acc _
  | nack => exact append_recordAck_nack _ _ acc _

/-! ## What the composites issue and answer -/

section
variable {acc res : TransactionResult} {s t : State} (ht : t.fatal = false)
include ht

theorem closeWithStop_eq_next : closeWithStop acc s = .next (res, t) ↔ Issues .stop s t ∧ res = acc := by
  rw [closeWithStop_eq, issue_eq_next_of_not_fatal ht]
  constructor
  · rintro ⟨u, hu, hx⟩
    cases hx
    exact ⟨hu, rfl⟩
  · rintro ⟨hu, rfl⟩
    exact ⟨t, hu, rfl⟩

theorem sendPayload_eq_next {payload : List Byte} {j : Nat} : sendPayload payload j acc s = .next (res, t) ↔
    ∃ w acks, SendsInOrder payload s acks w ∧ Issues .stop w t ∧ res = acc.append (payloadResult j acks) := by
  induction payload generalizing j acc s with
  | nil =>
    rw [sendPayload, closeWithStop_eq_next ht]
    constructor
    · rintro ⟨hstop, rfl⟩
      exact ⟨s, [], ⟨rfl, rfl⟩, hstop, (TransactionResult.append_empty _).symm⟩
    · rintro ⟨w, acks, ⟨rfl, rfl⟩, hstop, rfl⟩
      exact ⟨hstop, TransactionResult.append_empty acc⟩
  | cons b rest ih =>
    rw [sendPayload_cons, issue_eq_next_of_not_fatal ht]
    simp only [ih, append_payloadResult_cons]
    constructor
    · rintro ⟨u, hu, w, acks, hsends, hstop, rfl⟩
      exact ⟨w, ackOf u :: acks, ⟨u, acks, hu, rfl, hsends⟩, hstop, rfl⟩
    · rintro ⟨w, _, ⟨u, acks, hu, rfl, hsends⟩, hstop, rfl⟩
      exact ⟨u, hu, w, acks, hsends, hstop, rfl⟩

theorem readLoop_eq_next {a : BitVec 7} {left i : Nat} : readLoop a left i acc s = .next (res, t) ↔
    ∃ w r, ReadsInOrder a left i s r w ∧ Issues .stop w t ∧ res = firstError (acc.append r) := by
  induction left generalizing i acc s with
  | zero =>
    rw [readLoop, closeWithStop_eq_next ht]
    constructor
    · rintro ⟨hstop, rfl⟩
      exact ⟨s, {}, ⟨rfl, rfl⟩, hstop, by rw [TransactionResult.append_empty]⟩
    · rintro ⟨w, r, ⟨rfl, rfl⟩, hstop, rfl⟩
      exact ⟨hstop, by rw [TransactionResult.append_empty]⟩
  | succ left ih =>
    rw [readLoop_succ]
    simp only [issue_eq_next_of_not_fatal ht]
    constructor
    · rintro ⟨u, hu, v, hv, hx⟩
      cases hk : ackOf v with
      | ack =>
        simp only [hk, if_true, issue_eq_next_of_not_fatal ht, ih, append_recordRead_ack] at hx
        obtain ⟨x, hx, w, later, hreads, hstop, rfl⟩ := hx
        exact ⟨w, _, ⟨u, v, hu, hv, .inr ⟨hk, x, later, hx, hreads, rfl⟩⟩, hstop, rfl⟩
      | nack =>
        simp only [hk, reduceCtorEq, if_false, ih, append_recordAck_nack] at hx
        obtain ⟨w, later, hreads, hstop, rfl⟩ := hx
        exact ⟨w, _, ⟨u, v, hu, hv, .inl ⟨hk, later, hreads, rfl⟩⟩, hstop, rfl⟩
    · rintro ⟨w, r, ⟨u, v, hu, hv, hcycle⟩, hstop, rfl⟩
      refine ⟨u, hu, v, hv, ?_⟩
      obtain ⟨hk, later, hreads, rfl⟩ | ⟨hk, x, later, hx, hreads, rfl⟩ := hcycle
      · simp only [hk, reduceCtorEq, if_false, ih, append_recordAck_nack]
        exact ⟨w, later, hreads, hstop, rfl⟩
      · simp only [hk, if_true, issue_eq_next_of_not_fatal ht, ih, append_recordRead_ack]
        exact ⟨x, hx, w, later, hreads, hstop, rfl⟩

/-- What a write has issued and answered when it ends without a fatal error (R200). -/
theorem writeTransaction_eq_next {a : BitVec 7} {payload : List Byte} :
    writeTransaction a payload s = .next (res, t) ↔
      ∃ u v, Issues .start s u ∧ Issues (.sendByte (addressByte a false)) u v ∧
        ((ackOf v = .nack ∧ s.params.abortOnAddrNack = true ∧ Issues .stop v t ∧ res = afterAddress .nack) ∨
          (¬ (ackOf v = .nack ∧ s.params.abortOnAddrNack = true) ∧ ∃ w acks, SendsInOrder payload v acks w ∧
            Issues .stop w t ∧ res = (afterAddress (ackOf v)).append (payloadResult 0 acks))) := by
  rw [writeTransaction_eq]
  simp only [issue_eq_next_of_not_fatal ht]
  have params {u v : State} (hu : Issues .start s u) (hv : Issues (.sendByte (addressByte a false)) u v) :
      v.params = s.params :=
    (Inside.of_hostOperation rfl hv.1).params.trans (Inside.of_hostOperation rfl hu.1).params
  constructor
  · rintro ⟨u, hu, v, hv, hx⟩
    refine ⟨u, v, hu, hv, ?_⟩
    rw [params hu hv] at hx
    split at hx
    · next abort =>
      obtain ⟨hk, ha⟩ := abort
      exact .inl ⟨hk, ha, hk ▸ (closeWithStop_eq_next ht).mp hx⟩
    · next goOn => exact .inr ⟨goOn, (sendPayload_eq_next ht).mp hx⟩
  · rintro ⟨u, v, hu, hv, hend⟩
    refine ⟨u, hu, v, hv, ?_⟩
    rw [params hu hv]
    obtain ⟨hk, ha, hx⟩ | ⟨goOn, hx⟩ := hend
    · rw [if_pos ⟨hk, ha⟩, hk]
      exact (closeWithStop_eq_next ht).mpr hx
    · rw [if_neg goOn]
      exact (sendPayload_eq_next ht).mpr hx

/-- What a read of one byte or more has issued and answered when it ends without a fatal error (R201). -/
theorem readTransaction_eq_next {a : BitVec 7} {n : Nat} : readTransaction a (n + 1) s = .next (res, t) ↔
    ∃ w r, ReadsInOrder a (n + 1) 0 s r w ∧ Issues .stop w t ∧
      res = { r with status := r.errs.head?.map Prod.snd } :=
  readLoop_eq_next ht

end

/-! ## Where the composites end -/

theorem issues_stop_bus {s t : State} (h : Issues .stop s t) : t.bus = .idle := by
  obtain ⟨hx, ht⟩ := h
  rw [(execStop_next hx).2.done ht]
  rfl

theorem ackOf_eq_nack {s : State} (h : resultNack s.result = true) : ackOf s = .nack := if_pos h

/-- Settles O59: the aborting case of what a write issues and answers. -/
theorem addressNackSendsNoPayload : Obligations.AddressNackSendsNoPayload := by
  intro a payload s t u v habort hstart ht hsend hu hnack hstop hv
  exact (writeTransaction_eq_next hv).mpr
    ⟨t, u, ⟨hstart, ht⟩, ⟨hsend, hu⟩, .inl ⟨ackOf_eq_nack hnack, habort, ⟨hstop, hv⟩, rfl⟩⟩

/-- Settles O60: without a fatal error each composite has issued what R200 and R201 say, STOP last, which leaves BUS
Idle; with one, the operation that met it gave the status. -/
theorem compositesReturnToIdle : Obligations.CompositesReturnToIdle := by
  intro s t a res
  refine ⟨fun payload h ht => ?writeIdle, fun n h ht => ?readIdle,
    fun payload => fatalIsIoFailed_writeTransaction a payload s res t,
    fun n => fatalIsIoFailed_readLoop a (n + 1) 0 {} s res t, rfl, fun payload => ?write, fun n => ?read⟩
  case writeIdle =>
    obtain ⟨u, v, _, _, ⟨_, _, hstop, _⟩ | ⟨_, w, acks, _, hstop, _⟩⟩ := (writeTransaction_eq_next ht).mp h
    · exact issues_stop_bus hstop
    · exact issues_stop_bus hstop
  case readIdle =>
    obtain ⟨w, r, _, hstop, _⟩ := (readTransaction_eq_next ht).mp h
    exact issues_stop_bus hstop
  case write =>
    refine (and_congr_left fun ht => writeTransaction_eq_next ht).trans (and_iff_left_of_imp ?_)
    rintro ⟨u, v, _, _, ⟨_, _, hstop, _⟩ | ⟨_, w, acks, _, hstop, _⟩⟩
    · exact hstop.2
    · exact hstop.2
  case read =>
    refine (and_congr_left fun ht => readTransaction_eq_next ht).trans (and_iff_left_of_imp ?_)
    rintro ⟨w, r, _, hstop, _⟩
    exact hstop.2

end Sys2Proof.Machine
